-- ==== Sys2Proof/Word.lean ====
section
/-! DEFINITION. The two unsigned types of the block (00_scope.md section 5): `u8` and `u16`.
There are no signed values anywhere in the block. -/

namespace Sys2Proof

/-- `u8`: the octet, the unit of encoding (R60). -/
abbrev Byte := BitVec 8

/-- `u16`: the duration of a Sleep, the two counters of the Time Base, the two words of the QUERY
reply. -/
abbrev Word := BitVec 16

end Sys2Proof
end

