-- ==== Sys2Proof/Config.lean ====
section
/-! DEFINITION. What an implementation fixes (00_scope.md section 4), the numeric literals of the
protocol as named constants (U12), and the free values. -/

namespace Sys2Proof.Config

/-! ## The nine codes of the protocol (R62, R64, R66) -/

/-- Outer command RESET (R62). -/
abbrev codeReset : Byte := 0xC0#8
/-- Outer command WRITE (R62). -/
abbrev codeWrite : Byte := 0xC1#8
/-- Outer command QUERY (R62). -/
abbrev codeQuery : Byte := 0xC2#8
/-- Inner opcode Sleep (R64). -/
abbrev opSleep : Byte := 0xD0#8
/-- Inner opcode Write (R64). -/
abbrev opWrite : Byte := 0xD1#8
/-- Inner opcode Close (R64). -/
abbrev opClose : Byte := 0xD2#8
/-- Status code OK (R66). -/
abbrev statusOk : Byte := 0xE0#8
/-- Status code invalid (R66). -/
abbrev statusInvalid : Byte := 0xE1#8
/-- Status code overflow (R66). -/
abbrev statusOverflow : Byte := 0xE2#8

/-! ## The parameters a step of the machine reads -/

/-- The parameters that the functional rules use. The state carries them (field `cfg`, which no step
writes), so that a statement about every state is a statement about every value of them. -/
structure Params where
  /-- `CAP`, the queue capacity in bytes (R2). -/
  cap : Nat
  /-- `HDR_LEN_ALWAYS`: every packet carries a length byte after its code (R5). -/
  hdrLenAlways : Bool
  /-- `RESET_WRITE_SEQ`: the (address, value) pairs written after the chip's hardware reset (R4). -/
  resetWriteSeq : List (Byte × Byte)
deriving DecidableEq, Repr

/-- The legal values of `CAP` (R2, D32). -/
abbrev Params.wf (p : Params) : Prop := 1 ≤ p.cap ∧ p.cap ≤ 65535

/-- `RESET_WRITE_SEQ` of this machine: the spec leaves it OPEN and lets no claim rest on its contents
(R4, D13), so it has no body. -/
opaque resetWriteSeq : List (Byte × Byte)

/-- The values 00_scope.md section 4 takes: `CAP = 1024`, `HDR_LEN_ALWAYS = true`. -/
def Params.reference : Params :=
  { cap := 1024, hdrLenAlways := true, resetWriteSeq := Sys2Proof.Config.resetWriteSeq }

/-! ## The timing parameters (R3, U5, D17) -/

/-- The three timing parameters. The model takes them as an argument (R3): no step reads them, and the
functions of Machine/Observe.lean that bound real time do. All three in one unit of time. -/
structure Timing where
  /-- `T_TICK`: the period of the time-base interrupt. -/
  tTick : Nat
  /-- `T_STROBE`: the minimum hold time after each edge of the write strobe. -/
  tStrobe : Nat
  /-- `T_RST`: the minimum time the chip's reset line stays asserted. -/
  tRst : Nat
deriving DecidableEq, Repr

/-- The reference figures of R194, in microseconds: about 1 ms, about 10 microseconds, at least 1 ms. -/
def Timing.reference : Timing := { tTick := 1000, tStrobe := 10, tRst := 1000 }

/-! ## Parameters that no step reads: OPEN in the spec, so without a body -/

/-- `SEL_ADDR_LEVEL`: the electrical level of `SEL = ADDR` (D15). -/
opaque selAddrLevel : Bool
/-- `RST_ACTIVE_LEVEL`: the electrical level of `RST = ASSERTED` (D15). -/
opaque rstActiveLevel : Bool
/-- `STATUS_EMPTY_LEVEL`: the electrical level of `STATUS = EMPTY` (D11, R152). -/
opaque statusEmptyLevel : Bool
/-- `NCH`: the number of channels (D30, R135). No definition reads it: class addresses are computed for
every channel index (assumption 14). -/
opaque nch : Nat
/-- `NOP`: the number of operators of a channel (D30, R135). No definition reads it: class addresses are
computed for every operator index (assumption 14). -/
opaque nop : Nat
/-- `OPOFF[op][ch]`: the operator offset table (D30, R136). -/
opaque opOff : Nat → Nat → Byte
/-- `CLK_HZ`: the processor clock, used by no rule (D2). -/
opaque clkHz : Nat

/-! ## Free values -/

/-- The `n`-th free value: the result of a QREMOVE on an empty queue (U1: any value) and the contents
of a queue cell that nothing has written (U3: any value). -/
opaque freeByte : Nat → Byte

end Sys2Proof.Config
end

