-- ==== Sys2Proof/Syntax.lean ====
section
/-! DEFINITION. The twelve rows of spec/opcode_table.json: outer commands, inner records, replies. -/

namespace Sys2Proof

/-- One constructor for each row of the table. The operands are the fields of the row's encoding. -/
inductive Instr where
  /-- `C.RESET` (`C0 len`, R101): `len` is read and ignored. -/
  | cReset (len : Byte)
  /-- `C.WRITE` (`C1 len`, R102 to R105): `len` payload bytes follow in `RX`. They are not an operand:
  the command reads them one by one while it runs, and may stop before it has read them all. -/
  | cWrite (len : Byte)
  /-- `C.QUERY` (`C2 len`, R106): `len` is read and ignored. -/
  | cQuery (len : Byte)
  /-- `C.other` (R107): any of the 253 unassigned outer codes, and the length byte it ignores. -/
  | cOther (code len : Byte)
  /-- `D.SLEEP` (`D0 lo hi`, R121). -/
  | dSleep (duration : Word)
  /-- `D.WRITE` (`D1 register value`, R122). -/
  | dWrite (register value : Byte)
  /-- `D.CLOSE` (`D2`, R123). -/
  | dClose
  /-- `D.other` (R124): any of the 253 unassigned inner opcodes. -/
  | dOther (d : Byte)
  /-- `E.OK` (`E0`, R66). -/
  | eOk
  /-- `E.OK.Q` (`E0`, capacity, occupancy, R67): the reply to a QUERY. -/
  | eOkQ (capacity occupancy : Word)
  /-- `E.INVALID` (`E1`, R66). -/
  | eInvalid
  /-- `E.OVERFLOW` (`E2`, R66). -/
  | eOverflow
deriving DecidableEq, Repr

/-- Where a byte stream is read decides what its first byte means (R73): an outer code only at the
start of a packet, an inner opcode only at the start of a record, a status code only on `TX`. The
replies `E.OK` and `E.OK.Q` begin alike and are told apart by the command they answer (R67). -/
inductive Level where
  /-- A packet on `RX`. -/
  | packet
  /-- A record in a C.WRITE payload or in the queue. -/
  | record
  /-- A reply on `TX` to a command other than C.QUERY. -/
  | reply
  /-- A reply on `TX` to C.QUERY. -/
  | queryReply
deriving DecidableEq, Repr

/-- The level at which an instruction stands. -/
def Instr.level : Instr → Level
  | .cReset _ => .packet
  | .cWrite _ => .packet
  | .cQuery _ => .packet
  | .cOther _ _ => .packet
  | .dSleep _ => .record
  | .dWrite _ _ => .record
  | .dClose => .record
  | .dOther _ => .record
  | .eOk => .reply
  | .eOkQ _ _ => .queryReply
  | .eInvalid => .reply
  | .eOverflow => .reply

end Sys2Proof
end

