-- ==== Sys2Proof/Machine/State.lean ====
section
/-! DEFINITION. The state of the block, as plain data: 10_state.md, and the model's own fields. -/

namespace Sys2Proof.Machine

/-! ## Values of the lines (R19, R20) -/

/-- `SEL`: the address/data-select line. -/
inductive Sel where
  | addr
  | data
deriving DecidableEq, Repr

/-- `WR`: the write-strobe line, active low. -/
inductive Strobe where
  | low
  | high
deriving DecidableEq, Repr

/-- `RST`: the chip's reset line. -/
inductive ResetLine where
  | asserted
  | released
deriving DecidableEq, Repr

/-- `STATUS`: the status line (R152). -/
inductive StatusLine where
  | empty
  | nonempty
deriving DecidableEq, Repr

/-! ## What the pins have done, and what the environment will do -/

/-- The two lower bounds a `Delay` waits for (R3): `T_STROBE` and `T_RST`. The third timing parameter,
`T_TICK`, is the time between two events `EnvEvent.timer` (`Config.Timing`). -/
inductive DelayKind where
  | strobe
  | settle
deriving DecidableEq, Repr

/-- One step of a bus sequence (R130): a pin change or a delay. -/
inductive PinEvent where
  | sel (v : Sel)
  | data (v : Byte)
  | wr (v : Strobe)
  | rst (v : ResetLine)
  | delay (k : DelayKind)
deriving DecidableEq, Repr

/-- What happens outside the main context between two of its micro-steps (R49). -/
inductive EnvEvent where
  /-- A period of the timer ends: its interrupt becomes due (R167). -/
  | timer
  /-- The host sends a byte (R25). -/
  | hostSends (b : Byte)
  /-- The transmitter becomes ready, or busy (R25). -/
  | transmitter (ready : Bool)
deriving DecidableEq, Repr

/-! ## The sequencer's phase (R23, R151) -/

/-- The phases between two steps. `P_RESET`, `P_WCHK` and `P_QUERY` never wait before their work is
done and are merged into the step that dispatches on `I.cmd`, as R151 allows (assumption 6). -/
inductive Phase where
  /-- `P_BOOT` -/
  | boot
  /-- `P_POLL` -/
  | poll
  /-- `P_CMD` -/
  | cmd
  /-- `P_LEN` -/
  | len
  /-- `P_WOP` -/
  | wop
  /-- `P_WARG(k)`: `k` operand bytes of the record are still to come. -/
  | warg (k : Nat)
  /-- `P_REPLY(s)`, and the waits inside `P_QUERY`: the bytes of the reply not yet sent. -/
  | reply (pending : List Byte)
  /-- `P_CONSUME` -/
  | consume
  /-- `P_STATUS` -/
  | status
deriving DecidableEq, Repr

/-! ## Memories -/

/-- A byte memory as a list of (address, byte) cells with rising addresses. An address that is not
listed holds nothing: `none` in `SH` (R18), a byte that nothing has written in `Q.buf` (U3). -/
abbrev Memory := List Host.Cell

/-- The canonical form: addresses strictly rise. Equal memories are equal lists. -/
abbrev Memory.wf (m : Memory) : Prop := m.Pairwise (fun x y => x.1 < y.1)

/-! ## The groups of 10_state.md -/

/-- The Ring Buffer Queue (R10 to R13). The indices and the count are natural numbers with their
bounds as an invariant (D3). -/
structure Queue where
  /-- `Q.buf` -/
  buf : Memory
  /-- `Q.wr` -/
  wr : Nat
  /-- `Q.rd` -/
  rd : Nat
  /-- `Q.count` -/
  count : Nat
deriving DecidableEq, Repr

/-- The Time Base (R15, R16) and its interrupt's enable and pending bits (R168). -/
structure TimeBase where
  /-- `T.tick` -/
  tick : Word
  /-- `T.cd` -/
  cd : Word
  /-- The timer interrupt is enabled. -/
  irqEn : Bool
  /-- The timer interrupt is pending. -/
  irqPend : Bool
deriving DecidableEq, Repr

/-- The device side (R18, R19). -/
structure Device where
  /-- `SH`: the shadow state. -/
  sh : Memory
  /-- `SEL` -/
  sel : Sel
  /-- `WR` -/
  wr : Strobe
  /-- `RST` -/
  rst : ResetLine
  /-- `D[7:0]` -/
  d : Byte
  /-- The model's own field: everything driven so far, oldest first (assumption 12). -/
  bus : List PinEvent
deriving DecidableEq, Repr

/-- The working registers of Command Ingestion (R21). -/
structure IngestRegs where
  /-- `I.cmd` -/
  cmd : Byte
  /-- `I.len` -/
  len : Byte
  /-- `I.rem` -/
  rem : Byte
  /-- `I.op` -/
  op : Byte
  /-- `I.n` -/
  n : BitVec 2
deriving DecidableEq, Repr

/-- The working registers of the Queue Consumer (R22). -/
structure ConsumeRegs where
  /-- `K.d` -/
  d : Byte
  /-- `K.b0` -/
  b0 : Byte
  /-- `K.b1` -/
  b1 : Byte
deriving DecidableEq, Repr

/-- The environment: the model's own fields (assumptions 4, 5). -/
structure Env where
  /-- The transmitter can take a byte. -/
  txReady : Bool
  /-- The schedule: the events before each coming micro-step of the main context. Past its end
  nothing happens. -/
  sched : List (List EnvEvent)
deriving DecidableEq, Repr

/-- The state of the block. -/
@[ext]
structure State where
  /-- The parameters of the machine; no step writes them. -/
  cfg : Config.Params
  /-- `Q` -/
  q : Queue
  /-- `T` -/
  t : TimeBase
  /-- `SH` and the pins. -/
  dev : Device
  /-- `STATUS` -/
  status : StatusLine
  /-- `I` -/
  i : IngestRegs
  /-- `K` -/
  k : ConsumeRegs
  /-- `M.phase` -/
  phase : Phase
  /-- `RX`, oldest first. -/
  rx : List Byte
  /-- `TX`, oldest first. -/
  tx : List Byte
  /-- The environment. -/
  env : Env
  /-- How many free values have been handed out (assumption 9). -/
  free : Nat
deriving DecidableEq, Repr

/-! ## Updates: one group at a time -/

/-- Replace `Q`. -/
def State.setQ (s : State) (q : Queue) : State := { s with q := q }
/-- Replace `T`. -/
def State.setT (s : State) (t : TimeBase) : State := { s with t := t }
/-- Replace the device side. -/
def State.setDev (s : State) (dev : Device) : State := { s with dev := dev }
/-- Replace `STATUS`. -/
def State.setStatus (s : State) (status : StatusLine) : State := { s with status := status }
/-- Replace `I`. -/
def State.setI (s : State) (i : IngestRegs) : State := { s with i := i }
/-- Replace `K`. -/
def State.setK (s : State) (k : ConsumeRegs) : State := { s with k := k }
/-- Replace `M.phase`. -/
def State.setPhase (s : State) (phase : Phase) : State := { s with phase := phase }
/-- Replace `RX`. -/
def State.setRx (s : State) (rx : List Byte) : State := { s with rx := rx }
/-- Replace `TX`. -/
def State.setTx (s : State) (tx : List Byte) : State := { s with tx := tx }
/-- Replace the environment. -/
def State.setEnv (s : State) (env : Env) : State := { s with env := env }
/-- Replace the count of free values. -/
def State.setFree (s : State) (free : Nat) : State := { s with free := free }

/-! ## Stops -/

/-- Why the machine stops with a fault. "Nothing in the block faults: there is no trap and no halted
state" (93_implementation_defined.md), so there is no reason: nobody can raise one, which is safe. -/
inductive Fault where
deriving DecidableEq, Repr

/-- Why an instruction is refused. -/
inductive Refusal where
  /-- The instruction has no meaning in the model. Raised by an arm of `exec` only; no arm raises it.
  Safe: the model stops where the block goes on. -/
  | notModelled (mnemonic : String)
deriving DecidableEq, Repr

/-! ## Block reset (R28, R180) -/

/-- The state after block reset of a block with the parameters `cfg`, in an environment that will do
`sched`: the table of R28. `SEL`, `D`, `I.*` and `K.*` are unspecified there: the model's values are
assumptions 7 and 8. -/
def State.ofReset (cfg : Config.Params) (sched : List (List EnvEvent)) : State :=
  { cfg := cfg
    q := { buf := [], wr := 0, rd := 0, count := 0 }
    t := { tick := 0#16, cd := 0#16, irqEn := true, irqPend := false }
    dev := { sh := [], sel := .addr, wr := .high, rst := .released, d := 0#8, bus := [] }
    status := .empty
    i := { cmd := 0#8, len := 0#8, rem := 0#8, op := 0#8, n := 0#2 }
    k := { d := 0#8, b0 := 0#8, b1 := 0#8 }
    phase := .boot
    rx := []
    tx := []
    env := { txReady := true, sched := sched }
    free := 0 }

/-- The machine right after block reset, with the parameters the spec takes and an environment that
does nothing. -/
def State.reset : State := State.ofReset Config.Params.reference []

end Sys2Proof.Machine
end

