-- ==== Sys2Proof/Machine/Memory.lean ====
section
/-! DEFINITION. Reading and writing a byte memory (`MemRead`, `MemWrite`, always of one byte:
00_scope.md section 5, R45). -/

namespace Sys2Proof.Machine

/-- The byte an address holds, if anything was written there. -/
def Memory.read : Memory → Nat → Option Byte
  | [], _ => none
  | (a', b) :: m, a => if a' = a then some b else Memory.read m a

/-- Write one byte, keeping the addresses rising. -/
def Memory.write : Memory → Nat → Byte → Memory
  | [], a, v => [(a, v)]
  | (a', b) :: m, a, v =>
    if a < a' then (a, v) :: (a', b) :: m
    else if a = a' then (a, v) :: m
    else (a', b) :: Memory.write m a v

end Sys2Proof.Machine
end

