-- ==== Sys2Proof/Machine/Flags.lean ====
section
/-! DEFINITION. The four conditions computed from the state (R24); none is stored. -/

namespace Sys2Proof.Machine

/-- `EMPTY`: the occupancy decides, not the indices (R13). -/
def Queue.isEmpty (q : Queue) : Bool := q.count == 0

/-- `FREE`, which is QFREE (R83): `CAP - Q.count`. -/
def Queue.freeCapacity (cap : Nat) (q : Queue) : Nat := cap - q.count

/-- `FULL`: `Q.count == CAP`. -/
def Queue.isFull (cap : Nat) (q : Queue) : Bool := q.count == cap

/-- `GATE_OPEN`, which is what GATE returns (R92): all 16 bits of `T.cd` are 0. -/
def TimeBase.gateOpen (t : TimeBase) : Bool := t.cd == 0#16

/-- The value STATUSUPDATE drives (R152). -/
def Queue.statusLine (q : Queue) : StatusLine := if q.isEmpty then .empty else .nonempty

end Sys2Proof.Machine
end

