-- ==== Sys2Proof/WellFormed.lean ====
section
/-! DEFINITION. Which terms of `Instr` stand for bytes of the protocol. -/

namespace Sys2Proof

/-- Bytes that are assigned outer codes (R62). -/
def isOuterCode (c : Byte) : Bool :=
  c == Config.codeReset || c == Config.codeWrite || c == Config.codeQuery

/-- Bytes that are assigned inner opcodes (R64). -/
def isInnerOpcode (d : Byte) : Bool :=
  d == Config.opSleep || d == Config.opWrite || d == Config.opClose

/-- A length operand exists as a byte of the packet when every packet has one (`HDR_LEN_ALWAYS`, R5);
where the packet has none, the operand is 0. -/
def lenPresent (hdr : Bool) (len : Byte) : Bool := hdr || len == 0#8

/-- `C.other` and `D.other` carry only unassigned codes (R69, R70); every other operand may have any
value (R65). `hdr` is `HDR_LEN_ALWAYS`. -/
def Instr.wellFormed (hdr : Bool) : Instr → Bool
  | .cReset len => lenPresent hdr len
  | .cWrite _ => true
  | .cQuery len => lenPresent hdr len
  | .cOther code len => !isOuterCode code && lenPresent hdr len
  | .dSleep _ => true
  | .dWrite _ _ => true
  | .dClose => true
  | .dOther d => !isInnerOpcode d
  | .eOk => true
  | .eOkQ _ _ => true
  | .eInvalid => true
  | .eOverflow => true

end Sys2Proof
end

