-- ==== Sys2Proof/Decode.lean ====
section
/-! DEFINITION. The decoder, total on any bytes, at each level (30_encoding.md), then the encoder, then
the host's table word. -/

namespace Sys2Proof

/-! ## Bytes of a word: little-endian (R44, R68) -/

/-- The 16-bit value whose low byte comes first. -/
def wordOfBytes (lo hi : Byte) : Word := hi ++ lo

/-- `w[7:0]`. -/
def lowByte (w : Word) : Byte := w.extractLsb' 0 8

/-- `w[15:8]`. -/
def highByte (w : Word) : Byte := w.extractLsb' 8 8

/-- A word in the order it is sent, stored and removed: low byte first (R44). -/
def bytesOfWord (w : Word) : List Byte := [lowByte w, highByte w]

/-! ## Decoding -/

/-- Why bytes are not an instruction. Unassigned codes are none of these: they decode to `C.other` and
`D.other` (R69, R70). -/
inductive Rejection where
  /-- There is no byte at all. -/
  | empty
  /-- The bytes end before the instruction does. -/
  | truncated
  /-- The first byte of a reply is not one of the three status codes (R66). -/
  | notAStatusCode
deriving DecidableEq, Repr

/-- Dispatch on the outer code (R100): all 8 bits select (R62). -/
def decodeOuter (code len : Byte) : Instr :=
  if code = Config.codeReset then .cReset len
  else if code = Config.codeWrite then .cWrite len
  else if code = Config.codeQuery then .cQuery len
  else .cOther code len

/-- Dispatch on the discriminator (R120), given the two bytes that follow it; a record of one byte
does not use them. -/
def decodeInner (d b0 b1 : Byte) : Instr :=
  if d = Config.opSleep then .dSleep (wordOfBytes b0 b1)
  else if d = Config.opWrite then .dWrite b0 b1
  else if d = Config.opClose then .dClose
  else .dOther d

/-- Does the packet with this code carry a length byte (R5, R100)? -/
def hasLenByte (hdr : Bool) (code : Byte) : Bool := hdr || code == Config.codeWrite

/-- A packet's header (R61). The payload of a C.WRITE is not part of it: it stays in the rest. -/
def decodePacket (hdr : Bool) : List Byte → Except Rejection (Instr × List Byte)
  | [] => .error .empty
  | code :: rest =>
    if hasLenByte hdr code then
      match rest with
      | [] => .error .truncated
      | len :: rest => .ok (decodeOuter code len, rest)
    else .ok (decodeOuter code 0#8, rest)

/-- A record (R64): its length follows from its first byte alone (R71). -/
def decodeRecord : List Byte → Except Rejection (Instr × List Byte)
  | [] => .error .empty
  | d :: rest =>
    if d = Config.opSleep ∨ d = Config.opWrite then
      match rest with
      | b0 :: b1 :: rest => .ok (decodeInner d b0 b1, rest)
      | _ => .error .truncated
    else .ok (decodeInner d 0#8 0#8, rest)

/-- A reply of format `S1` (R67). -/
def decodeStatus : List Byte → Except Rejection (Instr × List Byte)
  | [] => .error .empty
  | c :: rest =>
    if c = Config.statusOk then .ok (.eOk, rest)
    else if c = Config.statusInvalid then .ok (.eInvalid, rest)
    else if c = Config.statusOverflow then .ok (.eOverflow, rest)
    else .error .notAStatusCode

/-- A reply of format `S5` (R67). -/
def decodeQueryReply : List Byte → Except Rejection (Instr × List Byte)
  | [] => .error .empty
  | c :: rest =>
    if c = Config.statusOk then
      match rest with
      | c0 :: c1 :: o0 :: o1 :: rest => .ok (.eOkQ (wordOfBytes c0 c1) (wordOfBytes o0 o1), rest)
      | _ => .error .truncated
    else .error .notAStatusCode

/-- The decoder: one instruction from the front of a byte stream, and the rest of the stream. -/
def decode (hdr : Bool) : Level → List Byte → Except Rejection (Instr × List Byte)
  | .packet, bs => decodePacket hdr bs
  | .record, bs => decodeRecord bs
  | .reply, bs => decodeStatus bs
  | .queryReply, bs => decodeQueryReply bs

/-- The reply whose bytes are exactly these: five bytes are a QUERY reply, one byte is a status. -/
def decodeReply (bs : List Byte) : Option Instr :=
  match bs with
  | [_] => (decodeStatus bs).toOption.map Prod.fst
  | [_, _, _, _, _] => (decodeQueryReply bs).toOption.map Prod.fst
  | _ => none

/-! ## Encoding -/

/-- A header (R61): the length byte stands only where the packet has one (R5). -/
def encodeHeader (hdr : Bool) (code len : Byte) : List Byte :=
  if hasLenByte hdr code then [code, len] else [code]

/-- The bytes of an instruction, in wire order (R62 to R67, R72). -/
def encode (hdr : Bool) : Instr → List Byte
  | .cReset len => encodeHeader hdr Config.codeReset len
  | .cWrite len => encodeHeader hdr Config.codeWrite len
  | .cQuery len => encodeHeader hdr Config.codeQuery len
  | .cOther code len => encodeHeader hdr code len
  | .dSleep duration => Config.opSleep :: bytesOfWord duration
  | .dWrite register value => [Config.opWrite, register, value]
  | .dClose => [Config.opClose]
  | .dOther d => [d]
  | .eOk => [Config.statusOk]
  | .eOkQ capacity occupancy => Config.statusOk :: (bytesOfWord capacity ++ bytesOfWord occupancy)
  | .eInvalid => [Config.statusInvalid]
  | .eOverflow => [Config.statusOverflow]

/-- The payload `{ r1; r2; ... }` of a C.WRITE (R63, R72): the records' bytes, in order. -/
def encodeRecords (rs : List Instr) : List Byte := rs.flatMap (encode true)

/-- The packet `C.WRITE { r1; r2; ... }` (R72): the length is computed from the records. -/
def encodeWritePacket (rs : List Instr) : List Byte :=
  Config.codeWrite :: BitVec.ofNat 8 (encodeRecords rs).length :: encodeRecords rs

/-! ## The host's table word -/

/-- Byte `j` of an instruction's bits, the first byte in bits 7..0. -/
def tableByte (w j : Nat) : Byte := BitVec.ofNat 8 (w / 256 ^ j)

/-- The first `n` bytes of an instruction's bits. -/
def tableBytes (w n : Nat) : List Byte := (List.range n).map (tableByte w)

/-- At which level a row of the table stands. The three code ranges are disjoint (R73), so an assigned
code tells its level. `E.OK` and `E.OK.Q` share a code and are told apart by the row's length; so are
the two rows without a code, `C.other` (two bytes) and `D.other` (one byte). -/
def tableLevel (nbits w : Nat) : Level :=
  let c := tableByte w 0
  if isOuterCode c then .packet
  else if isInnerOpcode c then .record
  else if c = Config.statusInvalid ∨ c = Config.statusOverflow then .reply
  else if c = Config.statusOk then (if nbits ≤ 8 then .reply else .queryReply)
  else if nbits ≤ 8 then .record else .packet

/-- The instruction the decoder reads from the bits of a row, every bit above them 0. -/
def decodeTableWord (nbits w : Nat) : Option Instr :=
  (decode true (tableLevel nbits w) (tableBytes (w % 2 ^ nbits) 5)).toOption.map Prod.fst

end Sys2Proof
end

