-- ==== Sys2Proof/Machine/Operands.lean ====
section
/-! DEFINITION. How operands are put together from bytes (R64, R68), the bytes of the replies (R67),
and the addresses of the three register classes (R135, R136). -/

namespace Sys2Proof.Machine

/-- `RecLen(op)`: the length of a record from its first byte; 0 means "not a record" (R64, D6). Two
bits hold it (`I.n`, R21). -/
def recLen (op : Byte) : BitVec 2 :=
  if op = Config.opSleep then 3#2
  else if op = Config.opWrite then 3#2
  else if op = Config.opClose then 1#2
  else 0#2

/-- The five bytes of the reply to C.QUERY, format `S5` (R67): the occupancy is zero-extended to 16
bits. -/
def queryReply (cap count : Nat) : List Byte :=
  Config.statusOk :: (bytesOfWord (BitVec.ofNat 16 cap) ++ bytesOfWord (BitVec.ofNat 16 count))

/-! ## Register classes: an interface that no rule of the queue path calls (R135, D30) -/

/-- The chip address of global register `g`. -/
def globalAddress (g : Byte) : Byte := g

/-- The chip address of the channel register with base `b` of channel `ch`. The sum is PRESUMED, from
general knowledge (R135). The spec gives it for `ch` in `0..NCH-1` only; DESIGN CHOICE: the model takes
the same sum, modulo 256, for every other `ch` (assumption 14). -/
def channelAddress (b ch : Byte) : Byte := b + ch

/-- The chip address of the operator register with base `b` of operator `op` of channel `ch`, through
the operator offset table (R136). The sum is PRESUMED, from general knowledge (R135). The spec gives it
for `op` in `0..NOP-1` and `ch` in `0..NCH-1` only; DESIGN CHOICE: the model takes the same sum, modulo
256, for every other `op` and `ch`, with whatever the free table `Config.opOff` holds there (assumption
14). -/
def operatorAddress (b : Byte) (op ch : Nat) : Byte := b + Config.opOff op ch

end Sys2Proof.Machine
end

