-- ==== Sys2Proof/Machine/Ops.lean ====
section
/-! DEFINITION. The named operations the instructions are built from: the interrupt and the other
environment events, the queue primitives, the transport, the bus sequences, the error reply. -/

namespace Sys2Proof.Machine

/-! ## The timer interrupt (R90, R167 to R169) -/

/-- TICK (R90): the tick counter wraps, the countdown stops at zero. -/
def TimeBase.onTick (t : TimeBase) : TimeBase :=
  { t with tick := t.tick + 1#16, cd := if t.cd = 0#16 then 0#16 else t.cd - 1#16 }

/-- Take the interrupt if it is enabled and pending: pending is cleared and the handler runs to its end
(R168, R169). Nothing else of the state is saved or changed. -/
def TimeBase.serve (t : TimeBase) : TimeBase :=
  if t.irqEn && t.irqPend then ({ t with irqPend := false } : TimeBase).onTick else t

/-- A period of the timer ends: the interrupt becomes pending, and is taken at once unless it is held
off (R168). -/
def TimeBase.timerDue (t : TimeBase) : TimeBase := ({ t with irqPend := true } : TimeBase).serve

/-- The first half of SETCD (R91): the interrupt is held off. -/
def TimeBase.holdOff (t : TimeBase) : TimeBase := { t with irqEn := false }

/-- The second half of SETCD: the 16-bit store, then the interrupt is let in again and, if a period
ended meanwhile, taken (R168, R170). -/
def TimeBase.storeAndRelease (n : Word) (t : TimeBase) : TimeBase :=
  ({ t with cd := n, irqEn := true } : TimeBase).serve

/-! ## The environment between two micro-steps (R49) -/

/-- One event. -/
def applyEvent (s : State) : EnvEvent → State
  | .timer => s.setT s.t.timerDue
  | .hostSends b => s.setRx (s.rx ++ [b])
  | .transmitter ready => s.setEnv { s.env with txReady := ready }

/-- What the schedule says happens before the next micro-step. -/
def interleave (s : State) : State :=
  match s.env.sched with
  | [] => s
  | events :: rest => events.foldl applyEvent (s.setEnv { s.env with sched := rest })

/-- One micro-step of the main context, after what happens before it. -/
def micro (f : State → State) (s : State) : State := f (interleave s)

/-! ## The Ring Buffer Queue (R80 to R82) -/

/-- QCLEAR (R80): the buffer is not erased (D21). -/
def Queue.clear (q : Queue) : Queue := { q with wr := 0, rd := 0, count := 0 }

/-- QAPPEND (R81). Outside its precondition the call is refused: nothing changes (D20). -/
def Queue.append (cap : Nat) (b : Byte) (q : Queue) : Queue :=
  if q.count < cap then
    { q with count := q.count + 1, buf := Memory.write q.buf q.wr b, wr := (q.wr + 1) % cap }
  else q

/-- The byte QREMOVE returns, where the spec fixes it: the precondition holds and the cell was
written. -/
def Queue.front (q : Queue) : Option Byte :=
  if 0 < q.count then Memory.read q.buf q.rd else none

/-- QREMOVE's effect on the queue (R82). Outside its precondition nothing changes (D20). -/
def Queue.advance (cap : Nat) (q : Queue) : Queue :=
  if 0 < q.count then { q with count := q.count - 1, rd := (q.rd + 1) % cap } else q

/-- The byte QREMOVE returns: any value where the spec fixes none (U1, U3). -/
def State.frontByte (s : State) : Byte := s.q.front.getD (Config.freeByte s.free)

/-- The state after QREMOVE; the count of free values advances when one was handed out. -/
def State.dropFront (s : State) : State :=
  (s.setQ (s.q.advance s.cfg.cap)).setFree (if s.q.front.isSome then s.free else s.free + 1)

/-- QCLEAR as a micro-step. -/
def qClear : State → State := micro fun s => s.setQ s.q.clear

/-- QAPPEND as a micro-step. -/
def qAppend (b : Byte) : State → State := micro fun s => s.setQ (s.q.append s.cfg.cap b)

/-- QREMOVE as a micro-step, its result put into a working register by `put`. The byte itself is the
one the decoder read at the head of the queue. -/
def qRemoveInto (put : ConsumeRegs → ConsumeRegs) : State → State :=
  micro fun s => s.dropFront.setK (put s.k)

/-! ## The countdown store (R91, R170) -/

/-- SETCD (R91): one indivisible store. What becomes due while the interrupt is held off is served
right after it. -/
def setCountdown (n : Word) (s : State) : State :=
  let s := micro (fun s => s.setT s.t.holdOff) s
  micro (fun s => s.setT (s.t.storeAndRelease n)) s

/-! ## The transport (R25) -/

/-- `RxByte()` when a byte is there: the oldest byte and the state without it; otherwise the main
context has no step and waits. -/
def rxByte (s : State) : Option Byte × State :=
  let s := interleave s
  match s.rx with
  | [] => (none, s)
  | b :: rest => (some b, s.setRx rest)

/-- Send the bytes of a reply with `TxByte`, one micro-step each, then go on to CONSUME (R151). Where
the transmitter is not ready the main context waits, with the bytes still to send in its phase. -/
def sendReply : List Byte → State → State
  | [], s => s.setPhase .consume
  | b :: bs, s =>
    let s := interleave s
    if s.env.txReady then sendReply bs (s.setTx (s.tx ++ [b])) else s.setPhase (.reply (b :: bs))

/-- `raise Invalid`, `raise Overflow` (R164): send the status byte, drop the packet, go on to the
CONSUME of the same pass. Nothing is saved, no mode or mask changes, and there is nothing to return
from (R165). -/
def raiseError (code : Byte) (s : State) : State := sendReply [code] s

/-! ## The Device Write Engine (R130 to R138) -/

/-- One pin change or delay: each signal keeps its value until it is driven again (R19). -/
def Device.drive (dev : Device) (e : PinEvent) : Device :=
  match e with
  | .sel v => { dev with sel := v, bus := dev.bus ++ [e] }
  | .data v => { dev with d := v, bus := dev.bus ++ [e] }
  | .wr v => { dev with wr := v, bus := dev.bus ++ [e] }
  | .rst v => { dev with rst := v, bus := dev.bus ++ [e] }
  | .delay _ => { dev with bus := dev.bus ++ [e] }

/-- The shadow update, the last step of a DEVWRITE (R137). -/
def Device.shadow (a v : Byte) (dev : Device) : Device :=
  { dev with sh := Memory.write dev.sh a.toNat v }

/-- Drive a sequence, one micro-step for each pin change or delay. -/
def driveAll (es : List PinEvent) (s : State) : State :=
  es.foldl (fun s e => micro (fun s => s.setDev (s.dev.drive e)) s) s

/-- One half of a bus write (R131): select, data, then the strobe low and high, each held. -/
def busHalf (sel : Sel) (v : Byte) : List PinEvent :=
  [.sel sel, .data v, .wr .low, .delay .strobe, .wr .high, .delay .strobe]

/-- The eight pin changes and four delays of DEVWRITE(a, v), in order (R131). -/
def devWriteTrace (a v : Byte) : List PinEvent := busHalf .addr a ++ busHalf .data v

/-- DEVWRITE (R131, R137). -/
def devWrite (a v : Byte) (s : State) : State :=
  micro (fun s => s.setDev (s.dev.shadow a v)) (driveAll (devWriteTrace a v) s)

/-- The reset pulse at the head of CHIPRESET (R138). -/
def resetPulseTrace : List PinEvent := [.rst .asserted, .delay .settle, .rst .released]

/-- DEVWRITEs in list order. -/
def devWrites (seq : List (Byte × Byte)) (s : State) : State :=
  seq.foldl (fun s av => devWrite av.1 av.2 s) s

/-- CHIPRESET (R138): the reset pulse, then `RESET_WRITE_SEQ`. -/
def chipReset (s : State) : State :=
  devWrites s.cfg.resetWriteSeq (driveAll resetPulseTrace s)

/-! ## The Status Indicator (R152) -/

/-- STATUSUPDATE (R152). -/
def statusUpdate : State → State := micro fun s => s.setStatus s.q.statusLine

end Sys2Proof.Machine
end

