-- ==== Sys2Proof/Machine/Inner.lean ====
section
/-! DEFINITION. The meanings of the inner records (43_queue_consumer.md), from the point where the guard
of CONSUME has passed. Each removes its own bytes, the discriminator first (R120); its operands are
those bytes as the decoder read them at the head of the queue (assumption 16). -/

namespace Sys2Proof.Machine

/-- The removal of the discriminator (R120). -/
def removeDiscriminator (d : Byte) : State → State := qRemoveInto fun k => { k with d := d }

/-- The removal of the two operand bytes, in dequeue order (R121, R122). -/
def removeOperands (b0 b1 : Byte) (s : State) : State :=
  qRemoveInto (fun k => { k with b1 := b1 }) (qRemoveInto (fun k => { k with b0 := b0 }) s)

/-- D.SLEEP (R121): the duration goes into the countdown, in one store. -/
def execDSleep (duration : Word) (s : State) : Host.Outcome State Fault Refusal :=
  let s := removeDiscriminator Config.opSleep s
  let s := removeOperands (lowByte duration) (highByte duration) s
  .next ((setCountdown duration s).setPhase .status)

/-- D.WRITE (R122): the register byte is the chip's address, unchanged and unchecked (D33). -/
def execDWrite (register value : Byte) (s : State) : Host.Outcome State Fault Refusal :=
  let s := removeDiscriminator Config.opWrite s
  let s := removeOperands register value s
  .next ((devWrite register value s).setPhase .status)

/-- D.CLOSE (R123): as C.RESET, but without a reply. -/
def execDClose (s : State) : Host.Outcome State Fault Refusal :=
  let s := removeDiscriminator Config.opClose s
  .next ((chipReset (qClear s)).setPhase .status)

/-- Any other discriminator (R124): the one byte leaves the queue and nothing else happens. -/
def execDOther (d : Byte) (s : State) : Host.Outcome State Fault Refusal :=
  .next ((removeDiscriminator d s).setPhase .status)

end Sys2Proof.Machine
end

