-- ==== Sys2Proof/Machine/Outer.lean ====
section
/-! DEFINITION. The meanings of the outer commands (42_command_ingestion.md), from the point where their
header has been read from `RX`. -/

namespace Sys2Proof.Machine

/-! ## The record loop of C.WRITE (R103, R104) -/

/-- The operand bytes of a record: `k` more are read and appended, each after its own blocking
`RxByte()`. The flag says whether all have come; otherwise the main context waits in `P_WARG`. -/
def appendOperands : Nat → State → State × Bool
  | 0, s => (s, true)
  | k + 1, s =>
    match rxByte s with
    | (none, s) => (s.setPhase (.warg (k + 1)), false)
    | (some b, s) => appendOperands k (qAppend b s)

/-- `I.rem <- I.rem - I.n`: a whole record has been appended. -/
def State.recordDone (s : State) : State :=
  s.setI { s.i with rem := s.i.rem - s.i.n.setWidth 8 }

/-- The record loop (R103): ends with the reply, or waits in `P_WOP` or `P_WARG` for the host. A record
start that is no opcode, and a record longer than the remaining length, end it with `E.INVALID`
(R104). The loop makes at most `I.rem` rounds; if the fuel ended sooner the main context would merely
pause in `P_WOP`. -/
def recordLoop : Nat → State → State
  | 0, s => s.setPhase .wop
  | fuel + 1, s =>
    if s.i.rem = 0#8 then sendReply [Config.statusOk] s
    else
      match rxByte s with
      | (none, s) => s.setPhase .wop
      | (some op, s) =>
        let s := s.setI { s.i with op := op, n := recLen op }
        if recLen op = 0#2 ∨ s.i.rem < (recLen op).setWidth 8 then raiseError Config.statusInvalid s
        else
          match appendOperands ((recLen op).toNat - 1) (qAppend op s) with
          | (s, false) => s
          | (s, true) => recordLoop fuel s.recordDone

/-- The record loop with all the fuel it can use. -/
def runRecords (s : State) : State := recordLoop (s.i.rem.toNat + 1) s

/-! ## The four meanings -/

/-- C.RESET (R101): `len` is ignored; the queue, then the chip, then the reply. -/
def execCReset (_len : Byte) (s : State) : Host.Outcome State Fault Refusal :=
  .next (sendReply [Config.statusOk] (chipReset (qClear s)))

/-- C.WRITE (R102 to R105): the overflow check on the declared length, before any payload byte is read;
then the record loop. -/
def execCWrite (len : Byte) (s : State) : Host.Outcome State Fault Refusal :=
  let s := interleave s
  if s.q.freeCapacity s.cfg.cap < len.toNat then .next (raiseError Config.statusOverflow s)
  else .next (runRecords (s.setI { s.i with rem := len }))

/-- C.QUERY (R106): `len` is ignored; the reply carries the capacity and the occupancy; no mutation. -/
def execCQuery (_len : Byte) (s : State) : Host.Outcome State Fault Refusal :=
  .next (sendReply (queryReply s.cfg.cap s.q.count) s)

/-- Any other outer code (R107): the length byte is ignored. -/
def execCOther (_code _len : Byte) (s : State) : Host.Outcome State Fault Refusal :=
  .next (raiseError Config.statusInvalid s)

end Sys2Proof.Machine
end

