-- ==== Sys2Proof/Machine/Replies.lean ====
section
/-! DEFINITION. The meanings of the replies (R66, R67): their bytes are handed to `TxByte`, then the
main context goes on to CONSUME (`P_REPLY`, `P_QUERY` of R151). -/

namespace Sys2Proof.Machine

/-- E.OK (R66). -/
def execEOk (s : State) : Host.Outcome State Fault Refusal :=
  .next (sendReply [Config.statusOk] s)

/-- E.OK.Q (R67): both words low byte first. -/
def execEOkQ (capacity occupancy : Word) (s : State) : Host.Outcome State Fault Refusal :=
  .next (sendReply (Config.statusOk :: (bytesOfWord capacity ++ bytesOfWord occupancy)) s)

/-- E.INVALID (R66). -/
def execEInvalid (s : State) : Host.Outcome State Fault Refusal :=
  .next (sendReply [Config.statusInvalid] s)

/-- E.OVERFLOW (R66). -/
def execEOverflow (s : State) : Host.Outcome State Fault Refusal :=
  .next (sendReply [Config.statusOverflow] s)

end Sys2Proof.Machine
end

