-- ==== Sys2Proof/Machine/Dispatch.lean ====
section
/-! DEFINITION. One arm per constructor of `Instr`. -/

namespace Sys2Proof.Machine

def exec (i : Instr) (s : State) : Host.Outcome State Fault Refusal :=
  match i with
  | .cReset len => Sys2Proof.Machine.execCReset len s
  | .cWrite len => Sys2Proof.Machine.execCWrite len s
  | .cQuery len => Sys2Proof.Machine.execCQuery len s
  | .cOther code len => Sys2Proof.Machine.execCOther code len s
  | .dSleep duration => Sys2Proof.Machine.execDSleep duration s
  | .dWrite register value => Sys2Proof.Machine.execDWrite register value s
  | .dClose => Sys2Proof.Machine.execDClose s
  | .dOther d => Sys2Proof.Machine.execDOther d s
  | .eOk => Sys2Proof.Machine.execEOk s
  | .eOkQ capacity occupancy => Sys2Proof.Machine.execEOkQ capacity occupancy s
  | .eInvalid => Sys2Proof.Machine.execEInvalid s
  | .eOverflow => Sys2Proof.Machine.execEOverflow s

end Sys2Proof.Machine
end

