-- ==== Sys2Proof/Machine/Sequencer.lean ====
section
/-! DEFINITION. What the main context does in each phase (R150, R151): the boot sequence, fetching a
packet's header, fetching a record, the status update; and where the host's table word is stored for
the next fetch. -/

namespace Sys2Proof.Machine

/-- `P_BOOT` (R181). -/
def boot (s : State) : State := (statusUpdate (chipReset (qClear s))).setPhase .poll

/-- `P_POLL`: `RxAvail()` (R25) decides (R150). -/
def pollRx : State → State := micro fun s => s.setPhase (if s.rx = [] then .consume else .cmd)

/-- `P_LEN` (R100): the length byte, then dispatch on `I.cmd`. -/
def fetchLen (s : State) : Host.Outcome State Fault Refusal :=
  match rxByte s with
  | (none, s) => .next (s.setPhase .len)
  | (some len, s) => exec (decodeOuter s.i.cmd len) (s.setI { s.i with len := len })

/-- `P_CMD` (R100): the outer code; the length byte follows where the packet has one (R5). -/
def fetchHeader (s : State) : Host.Outcome State Fault Refusal :=
  match rxByte s with
  | (none, s) => .next (s.setPhase .cmd)
  | (some code, s) =>
    let s := s.setI { s.i with cmd := code }
    if hasLenByte s.cfg.hdrLenAlways code then fetchLen s else exec (decodeOuter code 0#8) s

/-- The record at the head of the queue, read as QREMOVE would read its bytes. -/
def headRecord (s : State) : Instr :=
  decodeInner s.frontByte s.dropFront.frontByte s.dropFront.dropFront.frontByte

/-- `P_CONSUME`: CONSUME (R120), its two tests, then the record at the head of the queue. -/
def consume (s : State) : Host.Outcome State Fault Refusal :=
  let s := interleave s
  if s.q.isEmpty then .next (s.setPhase .status)
  else
    let s := interleave s
    if s.t.gateOpen then exec (headRecord s) s else .next (s.setPhase .status)

/-- `P_STATUS`. -/
def updateStatus (s : State) : State := (statusUpdate s).setPhase .poll

/-- `P_WARG(k)`, where the host had stalled (R111). -/
def resumeOperands (k : Nat) (s : State) : State :=
  match appendOperands k s with
  | (s, false) => s
  | (s, true) => runRecords s.recordDone

/-- `P_REPLY`, where the transmitter was not ready: the bytes still to send are the reply, or the rest
of one. -/
def resumeReply (pending : List Byte) (s : State) : Host.Outcome State Fault Refusal :=
  match decodeReply pending with
  | some i => exec i s
  | none => .next (sendReply pending s)

/-! ## Where the host's table word goes -/

/-- The bytes at the head of the queue, and nothing behind them. -/
def Queue.holding (cap : Nat) (bs : List Byte) (q : Queue) : Queue :=
  bs.foldl (fun q b => q.append cap b) { q with wr := q.rd, count := 0 }

/-- A packet's bytes on `RX`: the header, and the payload of a C.WRITE. -/
def packetBytes (hdr : Bool) (w : Nat) : List Byte :=
  let code := tableByte w 0
  if hasLenByte hdr code then
    tableBytes w (2 + if code = Config.codeWrite then (tableByte w 1).toNat else 0)
  else [code]

/-- Place an instruction where the next step fetches it: a packet on `RX` at the start of an INGEST, a
record at the head of the queue with the gate open, a reply with the transmitter ready. -/
def placeWord (s : State) (nbits w : Nat) : State :=
  let w' := w % 2 ^ nbits
  match tableLevel nbits w with
  | .packet => (s.setRx (packetBytes s.cfg.hdrLenAlways w')).setPhase .cmd
  | .record =>
    ((s.setQ (s.q.holding s.cfg.cap (tableBytes w' 3))).setT { s.t with cd := 0#16 }).setPhase .consume
  | .reply => (s.setEnv { s.env with txReady := true }).setPhase (.reply (tableBytes w' 1))
  | .queryReply => (s.setEnv { s.env with txReady := true }).setPhase (.reply (tableBytes w' 5))

end Sys2Proof.Machine
end

