-- ==== Sys2Proof/Machine/Step.lean ====
section
/-! DEFINITION. One step of the machine: the main context runs its phase up to the next phase at which
it can wait or start anew, and the environment acts before each of its micro-steps (R48, R49, R151). -/

namespace Sys2Proof.Machine

/-- One step. A main context that waits changes nothing but what the environment does. -/
def step (s : State) : Host.Outcome State Fault Refusal :=
  match s.phase with
  | .boot => .next (boot s)
  | .poll => .next (pollRx s)
  | .cmd => fetchHeader s
  | .len => fetchLen s
  | .wop => .next (runRecords s)
  | .warg k => .next (resumeOperands k s)
  | .reply pending => resumeReply pending s
  | .consume => consume s
  | .status => .next (updateStatus s)

/-- `s` with the instruction of a table word stored where the next step fetches it (assumptions 4 and
15). -/
def State.withFetchWord (s : State) (nbits w : Nat) : State := placeWord s nbits w

end Sys2Proof.Machine
end

