-- ==== Sys2Proof/Machine/Observe.lean ====
section
/-! DEFINITION. What is seen from outside: the chip's latch events (R133), the least duration of a trace
(R139, R194), what a strictly periodic timer makes of a countdown (R93, R194), and the electrical levels
of the lines (D11, D15). No step reads any of it. -/

namespace Sys2Proof.Machine

/-- What the chip sees (R133). -/
inductive ChipEvent where
  /-- The pair (`SEL`, `D`) at a rising edge of `WR`. -/
  | latch (sel : Sel) (d : Byte)
  /-- A reset pulse on `RST`, at its end. -/
  | resetPulse
deriving DecidableEq, Repr

/-- The events a trace causes, from the lines' values before it. The chip latches at each `WR <- HIGH`
while `RST` is released. -/
def chipEvents (sel : Sel) (d : Byte) (rst : ResetLine) : List PinEvent → List ChipEvent
  | [] => []
  | .sel v :: es => chipEvents v d rst es
  | .data v :: es => chipEvents sel v rst es
  | .wr .low :: es => chipEvents sel d rst es
  | .wr .high :: es =>
    if rst = .released then .latch sel d :: chipEvents sel d rst es else chipEvents sel d rst es
  | .rst .asserted :: es => chipEvents sel d .asserted es
  | .rst .released :: es =>
    if rst = .asserted then .resetPulse :: chipEvents sel d .released es
    else chipEvents sel d .released es
  | .delay _ :: es => chipEvents sel d rst es

/-- The least time a delay takes (R3, D17: `T_STROBE` and `T_RST` are lower bounds). -/
def DelayKind.least (time : Config.Timing) : DelayKind → Nat
  | .strobe => time.tStrobe
  | .settle => time.tRst

/-- The least time a trace takes: the sum of its delays (R139, R194). -/
def minDuration (time : Config.Timing) : List PinEvent → Nat
  | [] => 0
  | .delay k :: es => k.least time + minDuration time es
  | _ :: es => minDuration time es

/-! ## A strictly periodic timer (R93) -/

/-- How many periods of the timer end in the first `elapsed` units of time, where the first of them
ends `first` units from now and the others follow `T_TICK` apart. -/
def periodsBy (time : Config.Timing) (first elapsed : Nat) : Nat :=
  if elapsed < first then 0 else (elapsed - first) / time.tTick + 1

/-- The Time Base after `elapsed` units of time of a strictly periodic timer: one TICK for each period
that ended (R90, R93). -/
def TimeBase.after (time : Config.Timing) (first elapsed : Nat) (t : TimeBase) : TimeBase :=
  TimeBase.onTick^[periodsBy time first elapsed] t

/-- When the gate opens (R93): at the end of as many periods as the countdown shows, and at once where
it shows none. -/
def TimeBase.gateOpensAt (time : Config.Timing) (first : Nat) (t : TimeBase) : Nat :=
  if t.gateOpen then 0 else first + (t.cd.toNat - 1) * time.tTick

/-- The level of the select line. -/
def Device.selLevel (dev : Device) : Bool :=
  if dev.sel = .addr then Config.selAddrLevel else !Config.selAddrLevel

/-- The level of the strobe line: `LOW` is low, as the document says. -/
def Device.wrLevel (dev : Device) : Bool := dev.wr = .high

/-- The level of the chip's reset line. -/
def Device.rstLevel (dev : Device) : Bool :=
  if dev.rst = .asserted then Config.rstActiveLevel else !Config.rstActiveLevel

/-- The level of the status line. -/
def State.statusLevel (s : State) : Bool :=
  if s.status = .empty then Config.statusEmptyLevel else !Config.statusEmptyLevel

end Sys2Proof.Machine
end

