-- ==== Sys2Proof/Safety.lean ====
section
/-! DEFINITION. The terms in which claims about the machine are stated: what the environment has done,
what the queue holds, what a bus sequence has done, and the invariants of a safe run. No step reads
any of it. -/

namespace Sys2Proof.Safety

open Sys2Proof.Machine

/-! ## The environment -/

/-- How many timer periods end in these slots of a schedule. -/
def timerCount (sched : List (List EnvEvent)) : Nat := sched.flatten.countP (· == .timer)

/-- The byte an event adds to `RX`. -/
def eventByte : EnvEvent → Option Byte
  | .hostSends b => some b
  | _ => none

/-- The bytes the host sends in these slots of a schedule. -/
def hostBytes (sched : List (List EnvEvent)) : List Byte := sched.flatten.filterMap eventByte

/-- The transmitter is ready and stays ready for the whole schedule (D22 makes it ready always in the
end; this says it never makes the main context wait). -/
def LineFree (s : State) : Prop :=
  s.env.txReady = true ∧ ∀ events ∈ s.env.sched, EnvEvent.transmitter false ∉ events

/-- The environment does nothing while the main context runs, and the transmitter is ready: the
convention of the test vectors (95_test_vectors.md). -/
def Quiet (s : State) : Prop := s.env.txReady = true ∧ s.env.sched = []

/-- Between two micro-steps at most one timer period ends (R168). -/
def OnePeriodAtATime (s : State) : Prop :=
  ∀ events ∈ s.env.sched, events.countP (· == .timer) ≤ 1

/-- The interrupt as it stands between two micro-steps (R28, R168): enabled, none pending. -/
def InterruptIdle (t : TimeBase) : Prop := t.irqEn = true ∧ t.irqPend = false

/-- From `s` to `t` exactly `n` slots of the schedule passed, and the Time Base saw the TICKs that fell
in them and nothing else (R49, R96). -/
def Elapsed (n : Nat) (s t : State) : Prop :=
  t.env.sched = s.env.sched.drop n ∧
    (InterruptIdle s.t → t.t = TimeBase.onTick^[timerCount (s.env.sched.take n)] s.t)

/-- From `s` to `t`, `n` slots of the schedule passed and exactly `bytes` were taken from `RX`, oldest
first: they and what is left are what stood there and what the host sent meanwhile (R25). -/
def Takes (n : Nat) (bytes : List Byte) (s t : State) : Prop :=
  Elapsed n s t ∧ s.rx ++ hostBytes (s.env.sched.take n) = bytes ++ t.rx

/-- How many slots of the schedule have passed from `s` to `t`. -/
def slotsUsed (s t : State) : Nat := s.env.sched.length - t.env.sched.length

/-- The schedule is that of a strictly periodic timer (R93): by the end of its `n`-th slot, which is
the time `clock n`, as many periods have ended as `periodsBy` says. -/
def Periodic (time : Config.Timing) (first : Nat) (clock : Nat → Nat) (s : State) : Prop :=
  ∀ n, n ≤ s.env.sched.length →
    timerCount (s.env.sched.take n) = periodsBy time first (clock n)

/-- Each of the payload bytes `p` has come to `RX` by the time the record loop reads it (R103): `before`
slots pass first, and then each byte takes two, for its `RxByte()` and its QAPPEND (R49). -/
def ArrivesInTime (before : Nat) (p : List Byte) (s : State) : Prop :=
  ∀ j, j < p.length →
    p.take (j + 1) <+: s.rx ++ hostBytes (s.env.sched.take (before + 2 * j + 1))

/-- The same, and by the time the loop would read the byte after `p` none has come (R111). -/
def RunsOutAfter (before : Nat) (p : List Byte) (s : State) : Prop :=
  ArrivesInTime before p s ∧
    s.rx ++ hostBytes (s.env.sched.take (before + 2 * p.length + 1)) = p

/-- `n` slots of the schedule pass and the main context does nothing: only the Time Base, `RX` and the
environment move. -/
def TimePasses (n : Nat) (s t : State) : Prop :=
  Elapsed n s t ∧ t.rx = s.rx ++ hostBytes (s.env.sched.take n) ∧ t.cfg = s.cfg ∧ t.q = s.q ∧
    t.dev = s.dev ∧ t.status = s.status ∧ t.i = s.i ∧ t.k = s.k ∧ t.phase = s.phase ∧
    t.tx = s.tx ∧ t.free = s.free

/-- From `s` to `t` the reply `bytes` was sent as far as the transmitter took it, in order: whole, and
the main context goes on to CONSUME; or in part, and it waits in `P_REPLY` with the others. Over a
free line it is sent whole. -/
def ReplyOutcome (bytes : List Byte) (s t : State) : Prop :=
  ∃ sent pending, bytes = sent ++ pending ∧ t.tx = s.tx ++ sent ∧
    t.phase = (if pending = [] then .consume else .reply pending) ∧ (LineFree s → pending = [])

/-- From `s` to `t` a reply was sent and nothing else was done. -/
def RepliesOnly (bytes : List Byte) (s t : State) : Prop :=
  ReplyOutcome bytes s t ∧
    ∃ n u, TimePasses n s u ∧ t = { u with tx := t.tx, phase := t.phase }

/-! ## The queue -/

/-- The byte in the cell `i` places behind the read index. -/
def queuedByte (cap : Nat) (q : Queue) (i : Nat) : Byte :=
  (Memory.read q.buf ((q.rd + i) % cap)).getD 0#8

/-- The queued bytes, oldest first: `Q.count` of them from `Q.rd` on. -/
def contents (cap : Nat) (q : Queue) : List Byte := (List.range q.count).map (queuedByte cap q)

/-- An instruction that Command Ingestion appends to the queue (R64). -/
def isQueueRecord : Instr → Bool
  | .dSleep _ => true
  | .dWrite _ _ => true
  | .dClose => true
  | .dOther _ => false
  | .cReset _ => false
  | .cWrite _ => false
  | .cQuery _ => false
  | .cOther _ _ => false
  | .eOk => false
  | .eOkQ _ _ => false
  | .eInvalid => false
  | .eOverflow => false

/-- The bytes are a concatenation of whole well-formed records (R63, R126). -/
def WholeRecords (bs : List Byte) : Prop :=
  ∃ rs : List Instr, (∀ r ∈ rs, isQueueRecord r = true) ∧ encodeRecords rs = bs

/-- The header bytes that a step of Command Ingestion can take from `RX` (R100). -/
def headerBytes (s t : State) : List Byte :=
  match s.phase with
  | .cmd => [t.i.cmd, t.i.len]
  | .len => [t.i.len]
  | _ => []

/-- The queue (R11 to R13, R84): bounds, the tie between the three values, the canonical form of the
buffer, and every occupied cell written. -/
def QueueInv (cap : Nat) (q : Queue) : Prop :=
  q.wr < cap ∧ q.rd < cap ∧ q.count ≤ cap ∧ q.wr = (q.rd + q.count) % cap ∧
    Memory.wf q.buf ∧ (∀ c ∈ q.buf, c.1 < cap) ∧
    ∀ i, i < q.count → (Memory.read q.buf ((q.rd + i) % cap)).isSome = true

/-- From `s` to `t` the bytes `p` were put behind the queued ones, in order; every other cell of the
buffer and the read index stay (R81, R103). -/
def Appended (p : List Byte) (s t : State) : Prop :=
  contents s.cfg.cap t.q = contents s.cfg.cap s.q ++ p ∧ QueueInv s.cfg.cap t.q ∧
    t.q.count = s.q.count + p.length ∧ t.q.rd = s.q.rd ∧
    t.q.wr = (s.q.wr + p.length) % s.cfg.cap ∧
    ∀ a, (∀ j, j < p.length → a ≠ (s.q.wr + j) % s.cfg.cap) →
      Memory.read t.q.buf a = Memory.read s.q.buf a

/-- What the record loop of C.WRITE leaves alone: everything but the queue, `I.rem`, `I.op`, `I.n`, the
Time Base, the transport, the phase and the environment. -/
def IngestsOnly (s t : State) : Prop :=
  t.i = { s.i with rem := t.i.rem, op := t.i.op, n := t.i.n } ∧
    t = { s with
      q := t.q, i := t.i, t := t.t, env := t.env, rx := t.rx, tx := t.tx, phase := t.phase }

/-- `I.op` and `I.n` after the records `rs`: those of the last of them, and unchanged where there is
none. -/
def LastRecordIs (rs : List Instr) (s t : State) : Prop :=
  (rs = [] → t.i.op = s.i.op ∧ t.i.n = s.i.n) ∧
    ∀ r, rs.getLast? = some r → (encode true r).head? = some t.i.op ∧ t.i.n = recLen t.i.op

/-- From `s` to `t`, in `n` slots, the bytes `p` were read and appended, and the main context waits for
more: `RX` is empty, and no reply was sent (R111). -/
def WaitsAfter (n : Nat) (p : List Byte) (s t : State) : Prop :=
  Takes n p s t ∧ t.rx = [] ∧ t.tx = s.tx ∧ (LineFree s → LineFree t) ∧ Appended p s t ∧
    IngestsOnly s t

/-- Where it waits, and what of the declared length is left: at the start of a record with the records
`rs` behind it, or inside the record `r` of which the bytes `here` have come and `missing` have not. -/
def WaitsAt (rs : List Instr) (r : Instr) (here missing : List Byte) (s t : State) : Prop :=
  (here = [] → t.phase = .wop ∧ LastRecordIs rs s t) ∧
    (here ≠ [] → t.phase = .warg missing.length ∧ here.head? = some t.i.op ∧
      t.i.n = recLen t.i.op ∧ t.i.n.toNat = (encode true r).length)

/-- A C.WRITE that waited, in a state before its next step: in `P_WARG(k)` with `k` operand bytes of a
record missing, in `P_WOP` with none, and `rem` bytes of the declared length behind them (R103). -/
def PayloadLeft (k rem : Nat) (s : State) : Prop :=
  (s.phase = .warg k ∧ s.i.n.toNat ≤ s.i.rem.toNat ∧ rem = s.i.rem.toNat - s.i.n.toNat) ∨
    (s.phase = .wop ∧ k = 0 ∧ rem = s.i.rem.toNat)

/-- Every byte taken from `RX` from `s` to `t` is accounted for: bytes of the header, then bytes that
were appended to the queue, each of them, in order, and then at most one more, the one that was answered
with `0xE1` (R103, R104). So no QAPPEND was refused for want of room. -/
def AppendsWhatItTakes (s t : State) : Prop :=
  ∃ n header kept bad, Takes n (header ++ kept ++ bad) s t ∧ header <+: headerBytes s t ∧
    contents s.cfg.cap t.q = contents s.cfg.cap s.q ++ kept ∧
    (bad = [] ∨ bad = [t.i.op] ∧ ReplyOutcome [0xE1#8] s t)

/-- A C.RESET was read and cleared the queue (R52, R101). -/
def ClearedByReset (s t : State) : Prop :=
  (s.phase = .cmd ∨ s.phase = .len) ∧ t.i.cmd = 0xC0#8 ∧
    t.q = { buf := s.q.buf, wr := 0, rd := 0, count := 0 }

/-! ## The device side -/

/-- What a DEVWRITE(a, v) leaves (R131, R137): the pins, the shadow entry, and the twelve steps of its
sequence on the trace. -/
def DevWriteDone (a v : Byte) (before after : Device) : Prop :=
  after.sel = .data ∧ after.d = v ∧ after.wr = .high ∧ after.rst = before.rst ∧
    Memory.read after.sh a.toNat = some v ∧
    (∀ x, x ≠ a.toNat → Memory.read after.sh x = Memory.read before.sh x) ∧
    after.bus = before.bus ++
      [.sel .addr, .data a, .wr .low, .delay .strobe, .wr .high, .delay .strobe,
        .sel .data, .data v, .wr .low, .delay .strobe, .wr .high, .delay .strobe]

/-- The value the last pair of a write sequence with the address `x` writes. -/
def lastWritten (seq : List (Byte × Byte)) (x : Nat) : Option Byte :=
  (seq.reverse.find? (fun av => av.1.toNat == x)).map Prod.snd

/-- What a CHIPRESET with the write sequence `seq` leaves (R138): the reset pulse, then the sequence of
each write, in list order; the shadow entries of the addresses written (R137). -/
def ChipResetDone (seq : List (Byte × Byte)) (before after : Device) : Prop :=
  after.rst = .released ∧
    after.bus = before.bus ++ ([.rst .asserted, .delay .settle, .rst .released] ++
      seq.flatMap fun av => devWriteTrace av.1 av.2) ∧
    (seq = [] → after.sel = before.sel ∧ after.d = before.d ∧ after.wr = before.wr) ∧
    (∀ a v, seq.getLast? = some (a, v) → after.sel = .data ∧ after.d = v ∧ after.wr = .high) ∧
    ∀ x, Memory.read after.sh x = (lastWritten seq x).or (Memory.read before.sh x)

/-- Where a bus sequence stands, for a monitor of R132 and R138. -/
inductive BusPhase where
  | idle
  | resetAsserted
  | resetSettled
  | selected (half : Sel)
  | presented (half : Sel)
  | strobeLow (half : Sel)
  | strobeLowHeld (half : Sel)
  | strobeHigh (half : Sel)
  | addressDone
deriving DecidableEq, Repr

/-- The monitor of R132: in each half select and data come before the strobe and stay until the delay
after its rising edge; each level of the strobe is held; the address half comes before the value half;
nothing is left out, merged or repeated. The reset pulse is asserted for the settle time (R138). -/
def busNext : BusPhase → PinEvent → Option BusPhase
  | .idle, .sel .addr => some (.selected .addr)
  | .idle, .rst .asserted => some .resetAsserted
  | .resetAsserted, .delay .settle => some .resetSettled
  | .resetSettled, .rst .released => some .idle
  | .addressDone, .sel .data => some (.selected .data)
  | .selected h, .data _ => some (.presented h)
  | .presented h, .wr .low => some (.strobeLow h)
  | .strobeLow h, .delay .strobe => some (.strobeLowHeld h)
  | .strobeLowHeld h, .wr .high => some (.strobeHigh h)
  | .strobeHigh .addr, .delay .strobe => some .addressDone
  | .strobeHigh .data, .delay .strobe => some .idle
  | _, _ => none

/-- The monitor over a trace; `none` once the trace breaks the discipline. -/
def busRun (p : BusPhase) : List PinEvent → Option BusPhase
  | [] => some p
  | e :: es => (busNext p e).bind fun p' => busRun p' es

/-- The bus is disciplined and at rest (R132, R134). -/
def BusAtRest (dev : Device) : Prop :=
  busRun .idle dev.bus = some .idle ∧ dev.wr = .high ∧ dev.rst = .released

/-! ## Invariants of a safe run -/

/-- The room C.WRITE has checked for is still there while it waits (R85, R102, R103). -/
def IngestInv (s : State) : Prop :=
  match s.phase with
  | .wop => s.q.count + s.i.rem.toNat ≤ s.cfg.cap
  | .warg k =>
    k < s.i.n.toNat ∧ s.i.n.toNat ≤ s.i.rem.toNat ∧
      s.q.count + k + (s.i.rem.toNat - s.i.n.toNat) ≤ s.cfg.cap
  | _ => True

/-- The shadow state (R18): the canonical form, and 8-bit addresses. -/
def ShadowInv (dev : Device) : Prop := Memory.wf dev.sh ∧ ∀ c ∈ dev.sh, c.1 < 256

/-- What holds between any two steps of a block with legal parameters. -/
def MachineInv (s : State) : Prop :=
  s.cfg.wf ∧ QueueInv s.cfg.cap s.q ∧ IngestInv s ∧ ShadowInv s.dev ∧ InterruptIdle s.t

/-- The queue holds whole records; while C.WRITE waits for operand bytes, it does once they have come
(R126). -/
def RecordsInv (s : State) : Prop :=
  match s.phase with
  | .warg k =>
    ∀ bs : List Byte, bs.length = k → WholeRecords (contents s.cfg.cap s.q ++ bs)
  | _ => WholeRecords (contents s.cfg.cap s.q)

end Sys2Proof.Safety
end

