-- ==== Sys2Proof/Certificates/Slice0/Obligations.lean ====
section
/-! DEFINITION. The statements for the provers. Every statement about an instruction or a step holds in
every schedule of the environment: between any two micro-steps the timer may fire, the host may send
and the transmitter may change (R49), unless a hypothesis says otherwise. Where a statement counts the
slots of the schedule, the cut into micro-steps is the model's, after R49 and R151 (assumptions 4 and
6). -/

open Sys2Proof Sys2Proof.Machine Sys2Proof.Safety

/-! ## Encoding -/

/-- Decoding an encoded well-formed instruction gives it back, at its level, whatever follows it, with
a length byte in every packet or only in C.WRITE. -/
def Obligations.DecodeOfEncodeIsIdentity : Prop :=
  ∀ (hdr : Bool) (i : Instr) (rest : List Byte), i.wellFormed hdr = true →
    decode hdr i.level (encode hdr i ++ rest) = .ok (i, rest)

/-- What the decoder reads from bytes is well-formed, stands at the level asked for, and encodes to
exactly the bytes taken. -/
def Obligations.EncodeOfDecodeIsIdentity : Prop :=
  ∀ (hdr : Bool) (l : Level) (bs : List Byte) (i : Instr) (rest : List Byte),
    decode hdr l bs = .ok (i, rest) →
      i.level = l ∧ i.wellFormed hdr = true ∧ encode hdr i ++ rest = bs

/-- One word of each family, from the tables of R62, R64, R66 and the vectors V-E1 to V-E10. -/
def Obligations.DecodesTheTablesWords : Prop :=
  decode true .packet [0xC0#8, 0xFF#8] = .ok (.cReset 0xFF#8, []) ∧
    decode true .packet [0xC1#8, 0x03#8, 0xD1#8] = .ok (.cWrite 0x03#8, [0xD1#8]) ∧
    decode true .packet [0xC2#8, 0x00#8] = .ok (.cQuery 0x00#8, []) ∧
    decode true .packet [0xD0#8, 0x00#8] = .ok (.cOther 0xD0#8 0x00#8, []) ∧
    decode true .record [0xD0#8, 0x34#8, 0x12#8] = .ok (.dSleep 0x1234#16, []) ∧
    decode true .record [0xD1#8, 0x20#8, 0x00#8] = .ok (.dWrite 0x20#8 0x00#8, []) ∧
    decode true .record [0xD2#8, 0xD1#8] = .ok (.dClose, [0xD1#8]) ∧
    decode true .queryReply [0xE0#8, 0x00#8, 0x04#8, 0x2C#8, 0x01#8] =
      .ok (.eOkQ 0x0400#16 0x012C#16, []) ∧
    decode true .reply [0xE2#8] = .ok (.eOverflow, [])

/-- RecLen: 3, 3 and 1 for the three inner opcodes, 0 for each of the 253 others (R64). -/
def Obligations.RecordLengthLookup : Prop :=
  recLen 0xD0#8 = 3#2 ∧ recLen 0xD1#8 = 3#2 ∧ recLen 0xD2#8 = 1#2 ∧
    ∀ op : Byte, op ≠ 0xD0#8 → op ≠ 0xD1#8 → op ≠ 0xD2#8 → recLen op = 0#2

/-! ## The four conditions and the reset values -/

/-- EMPTY, FREE, GATE_OPEN and FULL as R24 defines them, and their values after block reset. -/
def Obligations.ConditionsAreComputed : Prop :=
  (∀ (cap : Nat) (q : Queue), (q.isEmpty = true ↔ q.count = 0) ∧
      (q.count ≤ cap → q.freeCapacity cap + q.count = cap) ∧
      (q.isFull cap = true ↔ q.count = cap)) ∧
    (∀ t : TimeBase, t.gateOpen = true ↔ t.cd = 0#16) ∧
    ∀ (cfg : Config.Params) (sched : List (List EnvEvent)), cfg.wf →
      (State.ofReset cfg sched).q.isEmpty = true ∧
        (State.ofReset cfg sched).q.freeCapacity cfg.cap = cfg.cap ∧
        (State.ofReset cfg sched).t.gateOpen = true ∧
        (State.ofReset cfg sched).q.isFull cfg.cap = false

/-- Every value the table of R28 gives, in `State.reset` and after block reset of a block with any
parameters in any schedule. The table leaves `Q.buf`, `SEL`, `D`, `I.*` and `K.*` unspecified and
nothing is said of them here; that `State.reset` has the reference parameters and an environment that
does nothing is the model's choice (assumptions 1 to 5). -/
def Obligations.ResetLeavesTheTable : Prop :=
  State.reset = State.ofReset Config.Params.reference [] ∧
    ∀ (cfg : Config.Params) (sched : List (List EnvEvent)),
      let s := State.ofReset cfg sched
      s.q.wr = 0 ∧ s.q.rd = 0 ∧ s.q.count = 0 ∧ s.t.tick = 0#16 ∧ s.t.cd = 0#16 ∧
        (∀ a, Memory.read s.dev.sh a = none) ∧ s.dev.wr = .high ∧ s.dev.rst = .released ∧
        s.status = .empty ∧ s.phase = .boot ∧ s.rx = [] ∧ s.tx = [] ∧
        s.t.irqEn = true ∧ s.t.irqPend = false

/-! ## The Ring Buffer Queue -/

/-- QCLEAR (R80): both indices and the count become 0, and nothing else of the block is touched, in any
state; EMPTY becomes true and FREE becomes CAP. That the buffer keeps its bytes is the spec's own
decision D21 (R80, corner case a). -/
def Obligations.QClearZeroesIndicesAndCount : Prop :=
  ∀ s : State, (∃ u, TimePasses 1 s u ∧
    qClear s = { u with q := { buf := s.q.buf, wr := 0, rd := 0, count := 0 } }) ∧
      (qClear s).q.isEmpty = true ∧ (qClear s).q.freeCapacity s.cfg.cap = s.cfg.cap

/-- QAPPEND (R81) within its precondition: the byte stands at the write index and nowhere else, the
write index and the count advance, the read index stays; EMPTY becomes false, FREE is one less;
nothing else of the block is touched. -/
def Obligations.QAppendStoresAtTheWriteIndex : Prop :=
  ∀ (b : Byte) (s : State), s.q.count < s.cfg.cap →
    ∃ u q, TimePasses 1 s u ∧ qAppend b s = { u with q := q } ∧
      q.count = s.q.count + 1 ∧ q.wr = (s.q.wr + 1) % s.cfg.cap ∧ q.rd = s.q.rd ∧
      Memory.read q.buf s.q.wr = some b ∧
      (∀ a, a ≠ s.q.wr → Memory.read q.buf a = Memory.read s.q.buf a) ∧
      q.isEmpty = false ∧ q.freeCapacity s.cfg.cap + 1 = s.q.freeCapacity s.cfg.cap

/-- QREMOVE (R82) within its precondition: it returns the byte at the read index, the read index and
the count move on, the cell keeps its byte, and nothing else changes; EMPTY becomes true when the last
byte leaves. -/
def Obligations.QRemoveTakesAtTheReadIndex : Prop :=
  ∀ s : State, 0 < s.q.count →
    s.dropFront.q = { s.q with count := s.q.count - 1, rd := (s.q.rd + 1) % s.cfg.cap } ∧
      (s.dropFront.q.isEmpty = true ↔ s.q.count = 1) ∧
      ∀ b, Memory.read s.q.buf s.q.rd = some b →
        s.frontByte = b ∧ s.dropFront = { s with q := s.dropFront.q }

/-- Outside their preconditions, which no rule ever leaves, QAPPEND and QREMOVE change nothing of the
queue: the reading of U1 that the spec's D20 takes (assumptions 9 and 10). -/
def Obligations.QueueRefusesOutsideItsPreconditions : Prop :=
  (∀ (b : Byte) (s : State), ¬ s.q.count < s.cfg.cap → TimePasses 1 s (qAppend b s)) ∧
    ∀ s : State, s.q.count = 0 →
      s.dropFront = { s with free := s.free + 1 } ∧ s.frontByte = Config.freeByte s.free

/-- First-in first-out (R84): QAPPEND puts its byte behind the queued bytes, QREMOVE returns the first
of them and leaves the others, QCLEAR leaves none; and each keeps the occupancy invariant. -/
def Obligations.QueueIsFirstInFirstOut : Prop :=
  ∀ s : State, QueueInv s.cfg.cap s.q → 0 < s.cfg.cap →
    contents s.cfg.cap s.q.clear = [] ∧ QueueInv s.cfg.cap s.q.clear ∧
      (∀ b, s.q.count < s.cfg.cap →
        contents s.cfg.cap (s.q.append s.cfg.cap b) = contents s.cfg.cap s.q ++ [b] ∧
          QueueInv s.cfg.cap (s.q.append s.cfg.cap b)) ∧
      (0 < s.q.count →
        contents s.cfg.cap s.q = s.frontByte :: contents s.cfg.cap s.dropFront.q ∧
          QueueInv s.cfg.cap s.dropFront.q)

/-! ## The Time Base and its interrupt -/

/-- TICK (R90): the tick counter is incremented modulo 65536, the countdown is decremented and floored
at 0, and the gate becomes open on the TICK that takes the countdown from 1 to 0. With the interrupt
enabled and idle, the end of a timer period runs TICK at once and changes nothing else of the block,
whatever the main context is doing. -/
def Obligations.TickIncrementsAndDecrements : Prop :=
  (∀ t : TimeBase, t.onTick.tick.toNat = (t.tick.toNat + 1) % 65536 ∧
      t.onTick.cd.toNat = t.cd.toNat - 1 ∧ (t.onTick.gateOpen = true ↔ t.cd.toNat ≤ 1) ∧
      t.onTick.irqEn = t.irqEn ∧ t.onTick.irqPend = t.irqPend) ∧
    ∀ s : State, InterruptIdle s.t → applyEvent s .timer = { s with t := s.t.onTick }

/-- A period that ends while the interrupt is held off is not lost: it stays pending (R168). -/
def Obligations.HeldOffTickStaysPending : Prop :=
  ∀ s : State, s.t.irqEn = false →
    applyEvent s .timer = { s with t := { s.t with irqPend := true } }

/-- After `N` was stored the countdown reaches 0 on the N-th TICK that follows, not earlier and not
later, and the gate is closed until then (R93). -/
def Obligations.CountdownLastsExactlyNTicks : Prop :=
  ∀ (t : TimeBase) (k : Nat),
    (TimeBase.onTick^[k] t).cd.toNat = t.cd.toNat - k ∧
      ((TimeBase.onTick^[k] t).gateOpen = true ↔ t.cd.toNat ≤ k) ∧
      (TimeBase.onTick^[k] t).tick.toNat = (t.tick.toNat + k) % 65536

/-- SETCD (R91, R170): one atomic store. The periods that end before it tick the old countdown; one
that ends while it holds the interrupt off runs TICK right after it, on the new countdown, and is
not lost; no TICK acts in between. At most one period ends in a slot, since SETCD is far shorter than a
period (R168, assumption 11). -/
def Obligations.SetCountdownIsOneAtomicStore : Prop :=
  ∀ (n : Word) (s : State), InterruptIdle s.t → OnePeriodAtATime s →
    let before := TimeBase.onTick^[timerCount (s.env.sched.take 1)] s.t
    let stored : TimeBase := { before with cd := n }
    let u := setCountdown n s
    u.t = TimeBase.onTick^[timerCount ((s.env.sched.drop 1).take 1)] stored ∧
      u.env.sched = s.env.sched.drop 2 ∧ u.rx = s.rx ++ hostBytes (s.env.sched.take 2) ∧
      u = { s with t := u.t, rx := u.rx, env := u.env }

/-- The gate under a strictly periodic timer (R93, R194): a Time Base whose next period ends within
`T_TICK` opens its gate at `gateOpensAt` and not before, more than `(N-1) · T_TICK` and at most
`N · T_TICK` from now where the countdown shows `N`, so after 65535 periods at the latest; and the tick
counter comes back to its value after 65536 periods. R93's and R194's figures are inferences the spec
marks as derived. -/
def Obligations.SleepLastsItsTime : Prop :=
  ∀ (time : Config.Timing) (first x : Nat) (t : TimeBase), 0 < first → first ≤ time.tTick →
    ((t.after time first x).gateOpen = true ↔ t.gateOpensAt time first ≤ x) ∧
      (t.gateOpen = false → (t.cd.toNat - 1) * time.tTick < t.gateOpensAt time first) ∧
      t.gateOpensAt time first ≤ t.cd.toNat * time.tTick ∧
      t.gateOpensAt time first ≤ 65535 * time.tTick ∧
      (first ≤ x →
        (t.after time first (x + 65536 * time.tTick)).tick = (t.after time first x).tick)

/-- Whatever happens between two micro-steps, the main context's state is what it was: only the two
counters, `RX` and the environment have moved, the counters by one TICK for each period (R49, R169). -/
def Obligations.InterruptLeavesTheMainContextAlone : Prop :=
  ∀ s : State, TimePasses 1 s (interleave s)

/-- TICK commutes with every instruction but the one that stores the countdown: running it before the
instruction or after it gives the same state (R49). -/
def Obligations.TickCommutesWithInstructions : Prop :=
  ∀ (i : Instr) (s t : State), (∀ d, i ≠ .dSleep d) → exec i s = .next t →
    exec i { s with t := s.t.onTick } = .next { t with t := t.t.onTick }

/-! ## The Device Write Engine -/

/-- DEVWRITE (R131, R137): the eight pin changes and four delays in order, then the shadow entry; in any
state, for every address and value; nothing else of the block is touched. -/
def Obligations.DevWriteDrivesTheSequence : Prop :=
  ∀ (a v : Byte) (s : State), ∃ u dev, TimePasses 13 s u ∧ DevWriteDone a v s.dev dev ∧
    devWrite a v s = { u with dev := dev }

/-- CHIPRESET (R138): the reset pulse, then the writes of RESET_WRITE_SEQ in list order; the queue and
the countdown are not touched. -/
def Obligations.ChipResetDrivesTheSequence : Prop :=
  ∀ s : State, ∃ n u dev, TimePasses n s u ∧ ChipResetDone s.cfg.resetWriteSeq s.dev dev ∧
    chipReset s = { u with dev := dev }

/-- The chip sees of one DEVWRITE exactly the latch events (ADDR, a), (DATA, v), and of a CHIPRESET the
reset pulse and the pair of events of each of its writes (R133). -/
def Obligations.ChipSeesAddressThenValue : Prop :=
  (∀ (a v : Byte) (sel : Sel) (d : Byte),
      chipEvents sel d .released (devWriteTrace a v) = [.latch .addr a, .latch .data v]) ∧
    ∀ (seq : List (Byte × Byte)) (sel : Sel) (d : Byte),
      chipEvents sel d .released
          (resetPulseTrace ++ seq.flatMap fun av => devWriteTrace av.1 av.2) =
        .resetPulse :: seq.flatMap fun av => [.latch .addr av.1, .latch .data av.2]

/-- A DEVWRITE takes at least `4 · T_STROBE`, a CHIPRESET at least `T_RST` and that for each of its
writes (R139, R194); so a period of the timer ends inside every CHIPRESET where `T_RST` is no shorter
than `T_TICK` (R138, corner case e). The figures are inferences the spec marks as derived. -/
def Obligations.BusSequencesTakeTheirMinimumTime : Prop :=
  ∀ (time : Config.Timing) (seq : List (Byte × Byte)),
    (∀ a v, minDuration time (devWriteTrace a v) = 4 * time.tStrobe) ∧
      minDuration time (resetPulseTrace ++ seq.flatMap fun av => devWriteTrace av.1 av.2) =
        time.tRst + 4 * time.tStrobe * seq.length ∧
      ∀ first, 0 < first → first ≤ time.tTick → time.tTick ≤ time.tRst →
        1 ≤ periodsBy time first
          (minDuration time (resetPulseTrace ++ seq.flatMap fun av => devWriteTrace av.1 av.2))

/-! ## Outer commands -/

/-- C.RESET (R101): the queue is cleared and the chip reset driven in full, which leaves `v`, where
nothing has been sent; from `v`, and only then, `0xE0` is sent (R48). The countdown is not cancelled
(R95), `RX` is not flushed, and nothing else changes. `len` is ignored. -/
def Obligations.CResetClearsResetsAndReplies : Prop :=
  ∀ (len : Byte) (s : State), ∃ n u dev v t, TimePasses n s u ∧
    ChipResetDone s.cfg.resetWriteSeq s.dev dev ∧
    v = { u with q := { buf := s.q.buf, wr := 0, rd := 0, count := 0 }, dev := dev } ∧
    t = sendReply [0xE0#8] v ∧ exec (.cReset len) s = .next t ∧
    RepliesOnly [0xE0#8] v t ∧ ReplyOutcome [0xE0#8] s t

/-- C.WRITE, the overflow check (R102): with more declared bytes than are free, `0xE2` is sent, no
payload byte is read and nothing else changes; otherwise, `len = FREE` and `len = 0` among them,
`I.rem` becomes `len` and the record loop of R103 starts. -/
def Obligations.CWriteChecksTheDeclaredLength : Prop :=
  ∀ (len : Byte) (s : State), s.q.count ≤ s.cfg.cap →
    (s.cfg.cap - s.q.count < len.toNat →
      ∃ t, exec (.cWrite len) s = .next t ∧ RepliesOnly [0xE2#8] s t) ∧
    (len.toNat ≤ s.cfg.cap - s.q.count →
      ∃ u, TimePasses 1 s u ∧
        exec (.cWrite len) s = .next (runRecords { u with i := { s.i with rem := len } }))

/-- C.WRITE of whole records that fit (R103, R105), each payload byte in `RX` or sent by the time it is
read: exactly `len` payload bytes are read and exactly those appended, in order, behind what was queued;
`0xE0` is sent; every other cell of the buffer and everything else stays. With no records `len` is 0 and
nothing is read or appended, which the spec marks as derived. -/
def Obligations.CWriteAppendsWholeRecords : Prop :=
  ∀ (rs : List Instr) (len : Byte) (s : State),
    (∀ r ∈ rs, isQueueRecord r = true) → len.toNat = (encodeRecords rs).length →
    QueueInv s.cfg.cap s.q → s.q.count + len.toNat ≤ s.cfg.cap →
    ArrivesInTime 1 (encodeRecords rs) s →
      ∃ n t, exec (.cWrite len) s = .next t ∧ Takes n (encodeRecords rs) s t ∧
        ReplyOutcome [0xE0#8] s t ∧ Appended (encodeRecords rs) s t ∧ t.i.rem = 0#8 ∧
        LastRecordIs rs s t ∧ IngestsOnly s t

/-- C.WRITE with a record start that is no opcode, or whose record is longer than what is left of the
declared length (R104), each byte in `RX` or sent by the time it is read: `0xE1`; the offending byte is
gone from `RX` and not appended, every earlier record stays appended, and the bytes behind it stay in
`RX`. -/
def Obligations.CWriteRejectsABadRecord : Prop :=
  ∀ (rs : List Instr) (op : Byte) (len : Byte) (s : State),
    (∀ r ∈ rs, isQueueRecord r = true) → (encodeRecords rs).length < len.toNat →
    (recLen op = 0#2 ∨ len.toNat - (encodeRecords rs).length < (recLen op).toNat) →
    QueueInv s.cfg.cap s.q → s.q.count + len.toNat ≤ s.cfg.cap →
    ArrivesInTime 1 (encodeRecords rs ++ [op]) s →
      ∃ n t, exec (.cWrite len) s = .next t ∧ Takes n (encodeRecords rs ++ [op]) s t ∧
        ReplyOutcome [0xE1#8] s t ∧ Appended (encodeRecords rs) s t ∧
        t.i.rem.toNat = len.toNat - (encodeRecords rs).length ∧ t.i.op = op ∧
        t.i.n = recLen op ∧ IngestsOnly s t

/-- C.WRITE whose payload stops short (R103, R111): by the time the next byte is read it has not come.
What has come is appended, no reply is sent, and the main context waits, at the start of a record in
`P_WOP`, inside one in `P_WARG` with the number of operand bytes still missing; `I.op` and `I.n` are
those of the last record begun. The host may send on afterwards: the waiting state is one from which
WaitingCWriteGoesOn goes on. -/
def Obligations.CWriteWaitsForTheHost : Prop :=
  ∀ (rs : List Instr) (r : Instr) (here missing : List Byte) (len : Byte) (s : State),
    (∀ x ∈ rs, isQueueRecord x = true) → isQueueRecord r = true →
    encode true r = here ++ missing → missing ≠ [] →
    (encodeRecords rs).length + (encode true r).length ≤ len.toNat →
    QueueInv s.cfg.cap s.q → s.q.count + len.toNat ≤ s.cfg.cap →
    RunsOutAfter 1 (encodeRecords rs ++ here) s →
      ∃ t, exec (.cWrite len) s = .next t ∧
        WaitsAfter (2 * (encodeRecords rs ++ here).length + 2) (encodeRecords rs ++ here) s t ∧
        t.i.rem.toNat = len.toNat - (encodeRecords rs).length ∧ WaitsAt rs r here missing s t

/-- A C.WRITE that waited goes on where it was, in a step at `P_WOP` or `P_WARG` (R103, R104, R111),
whatever comes from the host meanwhile. With the missing operand bytes `bs` and the rest of its payload
there in time, all of it is appended and `0xE0` sent, as if the host had not paused (V-I18). Where a bad
record comes behind `bs` and whole records, those are appended and `0xE1` is sent. Where the bytes stop
short again, at the start of a record, inside one, or inside `bs`, what has come is appended and the
main context waits again. `RX` is empty when such a step begins in a run
(WaitingMainContextOnlyLetsTimePass), so its bytes come in its own slots. -/
def Obligations.WaitingCWriteGoesOn : Prop :=
  ∀ (k rem : Nat) (s : State), PayloadLeft k rem s → QueueInv s.cfg.cap s.q →
    s.q.count + k + rem ≤ s.cfg.cap →
      (∀ (bs : List Byte) (rs : List Instr), bs.length = k →
        (∀ r ∈ rs, isQueueRecord r = true) → (encodeRecords rs).length = rem →
        ArrivesInTime 0 (bs ++ encodeRecords rs) s →
          ∃ n t, step s = .next t ∧ Takes n (bs ++ encodeRecords rs) s t ∧
            ReplyOutcome [0xE0#8] s t ∧ Appended (bs ++ encodeRecords rs) s t ∧
            t.i.rem = 0#8 ∧ LastRecordIs rs s t ∧ IngestsOnly s t) ∧
      (∀ (bs : List Byte) (rs : List Instr) (op : Byte), bs.length = k →
        (∀ r ∈ rs, isQueueRecord r = true) → (encodeRecords rs).length < rem →
        (recLen op = 0#2 ∨ rem - (encodeRecords rs).length < (recLen op).toNat) →
        ArrivesInTime 0 (bs ++ encodeRecords rs ++ [op]) s →
          ∃ n t, step s = .next t ∧ Takes n (bs ++ encodeRecords rs ++ [op]) s t ∧
            ReplyOutcome [0xE1#8] s t ∧ Appended (bs ++ encodeRecords rs) s t ∧
            t.i.rem.toNat = rem - (encodeRecords rs).length ∧ t.i.op = op ∧
            t.i.n = recLen op ∧ IngestsOnly s t) ∧
      (∀ (bs : List Byte) (rs : List Instr) (r : Instr) (here missing : List Byte),
        bs.length = k → (∀ x ∈ rs, isQueueRecord x = true) → isQueueRecord r = true →
        encode true r = here ++ missing → missing ≠ [] →
        (encodeRecords rs).length + (encode true r).length ≤ rem →
        RunsOutAfter 0 (bs ++ encodeRecords rs ++ here) s →
          ∃ t, step s = .next t ∧
            WaitsAfter (2 * (bs ++ encodeRecords rs ++ here).length + 1)
              (bs ++ encodeRecords rs ++ here) s t ∧
            t.i.rem.toNat = rem - (encodeRecords rs).length ∧ WaitsAt rs r here missing s t) ∧
      ∀ bs : List Byte, bs.length < k → RunsOutAfter 0 bs s →
        ∃ t, step s = .next t ∧ WaitsAfter (2 * bs.length + 1) bs s t ∧ t.i = s.i ∧
          t.phase = .warg (k - bs.length)

/-- Over a free line a C.WRITE is answered by exactly one status byte, or has not been answered yet
because `RX` ran out (R108). -/
def Obligations.CWriteRepliesAtMostOnce : Prop :=
  ∀ (len : Byte) (s t : State), LineFree s → exec (.cWrite len) s = .next t →
    (t.phase = .consume ∧
        ∃ c, (c = 0xE0#8 ∨ c = 0xE1#8 ∨ c = 0xE2#8) ∧ t.tx = s.tx ++ [c]) ∨
      (t.tx = s.tx ∧ t.rx = [] ∧ (t.phase = .wop ∨ ∃ k, t.phase = .warg (k + 1)))

/-- C.QUERY (R106): `0xE0`, the capacity and the occupancy, both low byte first; no mutation. `len` is
ignored. -/
def Obligations.CQueryReportsCapacityAndOccupancy : Prop :=
  ∀ (len : Byte) (s : State), ∃ t, exec (.cQuery len) s = .next t ∧
    RepliesOnly [0xE0#8, BitVec.ofNat 8 s.cfg.cap, BitVec.ofNat 8 (s.cfg.cap / 256),
      BitVec.ofNat 8 s.q.count, BitVec.ofNat 8 (s.q.count / 256)] s t

/-- Any other outer code (R107): `0xE1`, and no state changes. -/
def Obligations.UnassignedOuterCodeDrawsInvalid : Prop :=
  ∀ (code len : Byte) (s : State), ∃ t, exec (.cOther code len) s = .next t ∧
    RepliesOnly [0xE1#8] s t

/-! ## Inner records -/

/-- D.SLEEP (R121): its three bytes leave the queue, the countdown becomes the duration (lower by one if
a period ended during the store, R170), every period ticks the tick counter, and nothing else changes.
At most one period ends in a slot (R168, assumption 11). -/
def Obligations.DSleepLoadsTheCountdown : Prop :=
  ∀ (duration : Word) (s : State), InterruptIdle s.t → OnePeriodAtATime s →
    QueueInv s.cfg.cap s.q → 3 ≤ s.q.count → ∃ t, exec (.dSleep duration) s = .next t ∧
      t.t.cd.toNat = duration.toNat - timerCount ((s.env.sched.drop 4).take 1) ∧
      t.t.tick = s.t.tick + BitVec.ofNat 16 (timerCount (s.env.sched.take 5)) ∧
      InterruptIdle t.t ∧ t.env.sched = s.env.sched.drop 5 ∧
      t.rx = s.rx ++ hostBytes (s.env.sched.take 5) ∧
      t = { s with
        q := { s.q with count := s.q.count - 3, rd := (s.q.rd + 3) % s.cfg.cap }
        k := { d := 0xD0#8, b0 := BitVec.ofNat 8 duration.toNat,
               b1 := BitVec.ofNat 8 (duration.toNat / 256) }
        phase := .status
        t := t.t
        rx := t.rx
        env := t.env }

/-- D.WRITE (R122): its three bytes leave the queue, one DEVWRITE with the register and value unchanged,
and nothing else changes. -/
def Obligations.DWriteDrivesTheChip : Prop :=
  ∀ (register value : Byte) (s : State), QueueInv s.cfg.cap s.q → 3 ≤ s.q.count →
    ∃ n u dev, TimePasses n s u ∧ DevWriteDone register value s.dev dev ∧
      exec (.dWrite register value) s = .next { u with
        q := { s.q with count := s.q.count - 3, rd := (s.q.rd + 3) % s.cfg.cap }
        dev := dev
        k := { d := 0xD1#8, b0 := register, b1 := value }
        phase := .status }

/-- D.CLOSE (R123): the queue is cleared, with every record behind the Close, and the chip reset; no
reply; the countdown is not written. -/
def Obligations.DCloseClearsAndResets : Prop :=
  ∀ s : State, QueueInv s.cfg.cap s.q → 1 ≤ s.q.count →
    ∃ n u dev, TimePasses n s u ∧ ChipResetDone s.cfg.resetWriteSeq s.dev dev ∧
      exec .dClose s = .next { u with
        q := { buf := s.q.buf, wr := 0, rd := 0, count := 0 }
        dev := dev
        k := { s.k with d := 0xD2#8 }
        phase := .status }

/-- Any other discriminator (R124): the one byte leaves the queue; no pin moves, no reply is sent, the
countdown is unchanged. -/
def Obligations.UnassignedDiscriminatorIsDropped : Prop :=
  ∀ (d : Byte) (s : State), QueueInv s.cfg.cap s.q → 1 ≤ s.q.count →
    ∃ n u, TimePasses n s u ∧ exec (.dOther d) s = .next { u with
      q := { s.q with count := s.q.count - 1, rd := (s.q.rd + 1) % s.cfg.cap }
      k := { s.k with d := d }
      phase := .status }

/-! ## Replies -/

/-- The replies (R66, R67): each hands its bytes to the transmitter, the words low byte first, and does
nothing else. -/
def Obligations.RepliesSendTheirBytes : Prop :=
  ∀ s : State,
    (∃ t, exec .eOk s = .next t ∧ RepliesOnly [0xE0#8] s t) ∧
      (∃ t, exec .eInvalid s = .next t ∧ RepliesOnly [0xE1#8] s t) ∧
      (∃ t, exec .eOverflow s = .next t ∧ RepliesOnly [0xE2#8] s t) ∧
      ∀ capacity occupancy : Word, ∃ t, exec (.eOkQ capacity occupancy) s = .next t ∧
        RepliesOnly [0xE0#8, BitVec.ofNat 8 capacity.toNat, BitVec.ofNat 8 (capacity.toNat / 256),
          BitVec.ofNat 8 occupancy.toNat, BitVec.ofNat 8 (occupancy.toNat / 256)] s t

/-! ## Steps -/

/-- A step at `P_CMD` that finds a header of `n` bytes, each by the time it is read, takes it into
`I.cmd` and `I.len` and runs the instruction it decodes to (R100). The bytes may stand in `RX` or come
while the step runs. With `HDR_LEN_ALWAYS` false a code other than `0xC1` has no length byte, `n` is 1
and `I.len` is not written (R5). -/
def Obligations.StepRunsThePacketOnRx : Prop :=
  ∀ (n : Nat) (s : State) (i : Instr) (rest : List Byte), s.phase = .cmd →
    s.rx ++ hostBytes (s.env.sched.take 1) ≠ [] →
    decode s.cfg.hdrLenAlways .packet (s.rx ++ hostBytes (s.env.sched.take n)) = .ok (i, rest) →
    (s.rx ++ hostBytes (s.env.sched.take n)).length = n + rest.length →
      ∃ u, TimePasses n s u ∧
        step s = exec i { u with
          rx := rest
          i := { s.i with
            cmd := (s.rx ++ hostBytes (s.env.sched.take n)).headD 0#8
            len := if n = 2 then (s.rx ++ hostBytes (s.env.sched.take n)).tail.headD 0#8
              else s.i.len } }

/-- A step at `P_CMD` that finds the code and, by the time it reads it, no length byte behind it takes
the code and waits in `P_LEN` (R100, P4). -/
def Obligations.HeaderWaitsForItsLength : Prop :=
  ∀ (s : State) (code : Byte), s.phase = .cmd →
    s.rx ++ hostBytes (s.env.sched.take 1) = [code] →
    s.rx ++ hostBytes (s.env.sched.take 2) = [code] →
    hasLenByte s.cfg.hdrLenAlways code = true →
      ∃ u, TimePasses 2 s u ∧
        step s = .next { u with rx := [], i := { s.i with cmd := code }, phase := .len }

/-- A step at `P_LEN` that finds the length byte it waited for, in `RX` or just sent, runs the
instruction (R100). -/
def Obligations.StepRunsThePacketOnceItsLengthComes : Prop :=
  ∀ (s : State) (len : Byte) (rest : List Byte), s.phase = .len →
    s.rx ++ hostBytes (s.env.sched.take 1) = len :: rest →
    ∃ u, TimePasses 1 s u ∧
      step s = exec (decodeOuter s.i.cmd len) { u with rx := rest, i := { s.i with len := len } }

/-- A step at `P_CONSUME` with a record at the head of the queue and the gate open at its GATE read
(R92: the periods that end before the read count) runs that record (R120). -/
def Obligations.StepRunsTheRecordAtTheHead : Prop :=
  ∀ (s : State) (i : Instr) (rest : List Byte), s.phase = .consume → QueueInv s.cfg.cap s.q →
    InterruptIdle s.t → s.t.cd.toNat ≤ timerCount (s.env.sched.take 2) →
    decode s.cfg.hdrLenAlways .record (contents s.cfg.cap s.q) = .ok (i, rest) →
      ∃ u, TimePasses 2 s u ∧ step s = exec i u

/-- A step at `P_CONSUME` whose guard fails, because the queue is empty or the gate closed at the GATE
read, does nothing but go on to `P_STATUS` (R120). -/
def Obligations.ConsumeDoesNothingWhenHeldBack : Prop :=
  ∀ s : State, s.phase = .consume → InterruptIdle s.t →
    (s.q.count = 0 ∨ timerCount (s.env.sched.take 2) < s.t.cd.toNat) →
      ∃ n u, TimePasses n s u ∧ step s = .next { u with phase := .status }

/-- A step at `P_REPLY` sends its pending bytes and does nothing else, whatever they are: a whole reply,
or what is left of one whose transmission had to wait (R151). Where they decode to a reply the step runs
that reply, with nothing added: that is the model's choice (assumption 22). -/
def Obligations.StepRunsThePendingReply : Prop :=
  ∀ (s : State) (pending : List Byte), s.phase = .reply pending →
    (∃ t, step s = .next t ∧ RepliesOnly pending s t) ∧
      ∀ (i : Instr) (l : Level), l = .reply ∨ l = .queryReply →
        decode s.cfg.hdrLenAlways l pending = .ok (i, []) → step s = exec i s

/-- A step at `P_POLL` tests `RxAvail()`: INGEST if a byte is there, CONSUME otherwise (R150). -/
def Obligations.PollChoosesIngestOrConsume : Prop :=
  ∀ s : State, s.phase = .poll → ∃ u, TimePasses 1 s u ∧
    step s = .next { u with
      phase := if s.rx ++ hostBytes (s.env.sched.take 1) = [] then .consume else .cmd }

/-- STATUSUPDATE (R152): a step at `P_STATUS` drives the status line from the occupancy alone, changes
nothing but the line, and ends the pass. The boot sequence drives it too (R181). That no other step
does, so that inside a pass the line still shows the value of the pass before, is the spec's own
decision D11 (assumption 19). -/
def Obligations.StatusFollowsTheOccupancy : Prop :=
  (∀ s : State, s.phase = .status → ∃ u, TimePasses 1 s u ∧
    step s = .next { u with
      status := if s.q.count = 0 then .empty else .nonempty
      phase := .poll }) ∧
    ∀ s t : State, step s = .next t → s.phase ≠ .status →
      t.status = if s.phase = .boot then .empty else s.status

/-- The boot sequence (R181) and the state after it (R182), for every RESET_WRITE_SEQ and every schedule:
the reset pulse and every write of the sequence were driven (R138), the tick counter shows the TICKs during boot, the countdown is 0, the pins and the shadow state are as the sequence
left them, and nothing was sent. -/
def Obligations.BootLeavesTheMachineReady : Prop :=
  ∀ (cfg : Config.Params) (sched : List (List EnvEvent)),
    ∃ n t, step (State.ofReset cfg sched) = .next t ∧ t.q.wr = 0 ∧ t.q.rd = 0 ∧
      t.q.count = 0 ∧ t.t.cd = 0#16 ∧
      t.t.tick = BitVec.ofNat 16 (timerCount (sched.take n)) ∧ t.env.sched = sched.drop n ∧
      ChipResetDone cfg.resetWriteSeq (State.ofReset cfg sched).dev t.dev ∧
      t.dev.wr = .high ∧ t.dev.rst = .released ∧
      (∀ a v, cfg.resetWriteSeq.getLast? = some (a, v) → t.dev.sel = .data ∧ t.dev.d = v) ∧
      (∀ x, Memory.read t.dev.sh x = lastWritten cfg.resetWriteSeq x) ∧
      t.status = .empty ∧ t.tx = [] ∧ t.rx = hostBytes (sched.take n) ∧ t.phase = .poll

/-- A main context that waits for a byte that is not there, or for a transmitter that stays busy, does
nothing: only time passes, and the phase stays (R111, R153, U15). R153 names `P_LEN`, `P_WOP`, `P_WARG`
and the transmitter; that `P_CMD` waits too, where nothing has come, is the model's choice (assumption
6): no run reaches `P_CMD` with `RX` empty (R151). And every step that ends in `P_LEN`, `P_WOP` or
`P_WARG` ends there because `RX` is empty. -/
def Obligations.WaitingMainContextOnlyLetsTimePass : Prop :=
  (∀ s : State,
    (s.rx = [] ∧ hostBytes (s.env.sched.take 1) = [] ∧
        (s.phase = .len ∨ s.phase = .cmd ∨ (∃ k, s.phase = .warg (k + 1)) ∨
          s.phase = .wop ∧ s.i.rem ≠ 0#8) ∨
      s.env.txReady = false ∧ (∀ es ∈ s.env.sched.take 1, EnvEvent.transmitter true ∉ es) ∧
        ∃ b bs, s.phase = .reply (b :: bs)) →
      ∃ t, step s = .next t ∧ TimePasses 1 s t) ∧
    ∀ s t : State, step s = .next t →
      t.phase = .len ∨ t.phase = .wop ∨ (∃ k, t.phase = .warg k) → t.rx = []

/-- No instruction and no step stops the machine, in any state: "No fatal/unrecoverable states exist
in-core" (R109). -/
def Obligations.NothingStopsTheMachine : Prop :=
  (∀ (i : Instr) (s : State), ∃ t, exec i s = .next t) ∧ ∀ s : State, ∃ t, step s = .next t

/-! ## Whole-machine rules -/

/-- What holds between any two steps holds right after block reset. -/
def Obligations.InvariantsHoldAtReset : Prop :=
  ∀ (cfg : Config.Params) (sched : List (List EnvEvent)), cfg.wf →
    MachineInv (State.ofReset cfg sched) ∧ RecordsInv (State.ofReset cfg sched) ∧
      BusAtRest (State.ofReset cfg sched).dev

/-- Every step keeps the machine's invariant (R13, R84, R85, R18, R168): indices and occupancy within
their bounds and tied together, every occupied cell written, both memories in canonical form, the
room that C.WRITE checked still there while it waits, the interrupt enabled and idle. -/
def Obligations.StepKeepsTheMachineInvariant : Prop :=
  ∀ s t : State, MachineInv s → step s = .next t → MachineInv t

/-- The queue always holds whole records when CONSUME starts (R126): every step keeps it. -/
def Obligations.StepKeepsWholeRecords : Prop :=
  ∀ s t : State, MachineInv s → RecordsInv s → step s = .next t → RecordsInv t

/-- The bus discipline of R132 is kept by every step, and between steps the bus is at rest: the strobe
high, the reset line released (R134). -/
def Obligations.StepKeepsTheBusDiscipline : Prop :=
  ∀ s t : State, BusAtRest s.dev → step s = .next t → BusAtRest t.dev

/-- The queue primitives are never called outside their preconditions (R81, R82, R85, R188). Where the
invariants hold no step hands out a free value, as a QREMOVE on an empty queue would, and the byte
CONSUME takes as a discriminator is the opcode of a whole record; and in Command Ingestion each byte
taken from `RX` for the queue comes to stand in it, as one that a full queue refused would not. -/
def Obligations.QueuePreconditionsAlwaysHold : Prop :=
  ∀ s t : State, MachineInv s → RecordsInv s → step s = .next t →
    t.free = s.free ∧
      (s.phase = .consume → 0 < s.q.count →
        ∃ op args, contents s.cfg.cap s.q = op :: args ∧ (recLen op).toNat ≤ s.q.count ∧
          recLen op ≠ 0#2) ∧
      (s.phase ≠ .boot → s.phase ≠ .consume → AppendsWhatItTakes s t ∨ ClearedByReset s t)

/-- A step of the Queue Consumer removes nothing, or one byte, or three, or clears the queue (R125). -/
def Obligations.ConsumeRemovesAtMostOneRecord : Prop :=
  ∀ s t : State, s.phase = .consume → step s = .next t →
    t.phase = .status ∧
      (t.q = s.q ∨ t.q = s.q.advance s.cfg.cap ∨
        t.q = ((s.q.advance s.cfg.cap).advance s.cfg.cap).advance s.cfg.cap ∨
        t.q = { buf := s.q.buf, wr := 0, rd := 0, count := 0 })

/-- Command Ingestion never modifies a queued byte and never takes one out: it appends behind them, or
the command it has read is a C.RESET, `I.cmd = 0xC0`, and clears the queue (R52). -/
def Obligations.IngestionOnlyAppends : Prop :=
  ∀ s t : State, MachineInv s → s.phase ≠ .boot → s.phase ≠ .consume → step s = .next t →
    (t.q.rd = s.q.rd ∧ contents s.cfg.cap s.q <+: contents s.cfg.cap t.q) ∨ ClearedByReset s t

/-- The block never sends anything unsolicited (R108): a step of the boot sequence, the poll, the Queue
Consumer or the Status Indicator leaves `TX` alone, and no step takes back a byte sent. -/
def Obligations.OnlyRepliesReachTheHost : Prop :=
  ∀ s t : State, step s = .next t →
    s.tx <+: t.tx ∧
      (s.phase = .boot ∨ s.phase = .poll ∨ s.phase = .consume ∨ s.phase = .status →
        t.tx = s.tx)

/-- The counters move by TICK and by D.SLEEP only (R95, R96): over any step the tick counter advances
by the number of periods that ended, and outside the Queue Consumer the countdown is lowered by as
many and floored at 0: no command writes it. No period is lost or invented, given that at most one
ends between two micro-steps (R168: SETCD is far shorter than a period). -/
def Obligations.CountersMoveByTickAndSleepOnly : Prop :=
  ∀ s t : State, InterruptIdle s.t → OnePeriodAtATime s → step s = .next t →
    timerCount t.env.sched ≤ timerCount s.env.sched ∧ InterruptIdle t.t ∧
      t.t.tick.toNat =
        (s.t.tick.toNat + (timerCount s.env.sched - timerCount t.env.sched)) % 65536 ∧
      (s.phase ≠ .consume →
        t.t.cd.toNat = s.t.cd.toNat - (timerCount s.env.sched - timerCount t.env.sched))

/-- The parameters of the machine are constants (R27). -/
def Obligations.ParametersNeverChange : Prop :=
  ∀ s t : State, step s = .next t → t.cfg = s.cfg

/-- Sleep gating (R93, R94, R127): however many steps run and whatever else the host sends, while fewer
TICKs have occurred than the countdown showed, no record is taken from the queue, and the countdown
shows what is left. A C.RESET may clear the queue but does not open the gate (R95). -/
def Obligations.NoRecordRunsDuringASleep : Prop :=
  ∀ (n : Nat) (s t : State), InterruptIdle s.t →
    Host.Core.run core n s = .next t →
    timerCount s.env.sched < timerCount t.env.sched + s.t.cd.toNat →
      t.k = s.k ∧ (t.q.rd = s.q.rd ∨ t.q.rd = 0) ∧
        t.t.cd.toNat + timerCount s.env.sched = s.t.cd.toNat + timerCount t.env.sched

/-- The same in time (R93, R194), under a strictly periodic timer whose next period ends within
`T_TICK`, for a countdown of `N` in `s` and any run from `s`. With `N > 0` no record is taken from the
queue up to `(N-1) · T_TICK`, and the gate stays closed. A step at `P_CONSUME` whose GATE read comes at
`N · T_TICK` or later, before which fewer than `N` TICKs have occurred, runs the record at the head of
the queue. So does, wherever the N-th TICK falls, the first step at `P_CONSUME` with a record whose GATE
read comes at `gateOpensAt` or later, which SleepLastsItsTime bounds by `N · T_TICK`. The GATE read is
two slots into the step. The bounds are inferences the spec marks as derived. -/
def Obligations.SleepIsBoundedInTime : Prop :=
  ∀ (time : Config.Timing) (first : Nat) (clock : Nat → Nat) (n : Nat) (s t : State), 0 < first →
    first ≤ time.tTick → InterruptIdle s.t → Periodic time first clock s →
    Host.Core.run core n s = .next t →
      (s.t.gateOpen = false → clock (slotsUsed s t) ≤ (s.t.cd.toNat - 1) * time.tTick →
        t.k = s.k ∧ (t.q.rd = s.q.rd ∨ t.q.rd = 0) ∧ t.t.gateOpen = false) ∧
      (t.phase = .consume → QueueInv t.cfg.cap t.q →
        slotsUsed s t + 2 ≤ s.env.sched.length →
        ((timerCount s.env.sched < timerCount t.env.sched + s.t.cd.toNat ∧
            s.t.cd.toNat * time.tTick ≤ clock (slotsUsed s t + 2)) ∨
          (s.t.gateOpensAt time first ≤ clock (slotsUsed s t + 2) ∧
            ∀ m u, m < n → Host.Core.run core m s = .next u → u.phase = .consume →
              0 < u.q.count → clock (slotsUsed s u + 2) < s.t.gateOpensAt time first)) →
        ∀ (i : Instr) (rest : List Byte),
          decode t.cfg.hdrLenAlways .record (contents t.cfg.cap t.q) = .ok (i, rest) →
            ∃ u, TimePasses 2 t u ∧ step t = exec i u)
end

