-- ==== Sys2Proof/Laws/Encoding.lean ====
section
/-! SUPPORT. Bytes of a word, and the codes of one level told apart. -/

namespace Sys2Proof.Laws

/-! ## Bytes of a word (R44) -/

theorem lowByte_eq (w : Word) : lowByte w = BitVec.ofNat 8 w.toNat := by
  apply BitVec.eq_of_toNat_eq; simp [lowByte]

theorem highByte_eq (w : Word) : highByte w = BitVec.ofNat 8 (w.toNat / 256) := by
  apply BitVec.eq_of_toNat_eq; simp [highByte, Nat.shiftRight_eq_div_pow]

theorem wordOfBytes_toNat (lo hi : Byte) :
    (wordOfBytes lo hi).toNat = 256 * hi.toNat + lo.toNat := by
  have h := lo.isLt
  rw [wordOfBytes, BitVec.toNat_append, Nat.shiftLeft_eq, Nat.mul_comm,
    Nat.two_pow_add_eq_or_of_lt h]

@[simp] theorem wordOfBytes_bytes (w : Word) : wordOfBytes (lowByte w) (highByte w) = w := by
  apply BitVec.eq_of_toNat_eq
  have h := w.isLt
  rw [wordOfBytes_toNat, lowByte_eq, highByte_eq]
  simp only [BitVec.toNat_ofNat]
  omega

@[simp] theorem lowByte_wordOfBytes (lo hi : Byte) : lowByte (wordOfBytes lo hi) = lo := by
  apply BitVec.eq_of_toNat_eq
  have h := lo.isLt
  rw [lowByte_eq, BitVec.toNat_ofNat, wordOfBytes_toNat]
  omega

@[simp] theorem highByte_wordOfBytes (lo hi : Byte) : highByte (wordOfBytes lo hi) = hi := by
  apply BitVec.eq_of_toNat_eq
  have h := lo.isLt
  have h' := hi.isLt
  rw [highByte_eq, BitVec.toNat_ofNat, wordOfBytes_toNat]
  omega

/-! ## Codes of one level differ (R73) -/

@[simp] theorem codeReset_ne_codeWrite : (Config.codeReset = Config.codeWrite) = False := by decide
@[simp] theorem codeReset_ne_codeQuery : (Config.codeReset = Config.codeQuery) = False := by decide
@[simp] theorem codeWrite_ne_codeReset : (Config.codeWrite = Config.codeReset) = False := by decide
@[simp] theorem codeWrite_ne_codeQuery : (Config.codeWrite = Config.codeQuery) = False := by decide
@[simp] theorem codeQuery_ne_codeReset : (Config.codeQuery = Config.codeReset) = False := by decide
@[simp] theorem codeQuery_ne_codeWrite : (Config.codeQuery = Config.codeWrite) = False := by decide
@[simp] theorem opSleep_ne_opWrite : (Config.opSleep = Config.opWrite) = False := by decide
@[simp] theorem opSleep_ne_opClose : (Config.opSleep = Config.opClose) = False := by decide
@[simp] theorem opWrite_ne_opSleep : (Config.opWrite = Config.opSleep) = False := by decide
@[simp] theorem opWrite_ne_opClose : (Config.opWrite = Config.opClose) = False := by decide
@[simp] theorem opClose_ne_opSleep : (Config.opClose = Config.opSleep) = False := by decide
@[simp] theorem opClose_ne_opWrite : (Config.opClose = Config.opWrite) = False := by decide
@[simp] theorem statusOk_ne_statusInvalid : (Config.statusOk = Config.statusInvalid) = False := by decide
@[simp] theorem statusOk_ne_statusOverflow : (Config.statusOk = Config.statusOverflow) = False := by decide
@[simp] theorem statusInvalid_ne_statusOk : (Config.statusInvalid = Config.statusOk) = False := by decide
@[simp] theorem statusInvalid_ne_statusOverflow : (Config.statusInvalid = Config.statusOverflow) = False := by decide
@[simp] theorem statusOverflow_ne_statusOk : (Config.statusOverflow = Config.statusOk) = False := by decide
@[simp] theorem statusOverflow_ne_statusInvalid : (Config.statusOverflow = Config.statusInvalid) = False := by decide

/-! ## Replies (R67) -/

/-- The QUERY reply, byte by byte. -/
theorem queryReply_eq (cap count : Nat) :
    Machine.queryReply cap count =
      [0xE0#8, BitVec.ofNat 8 cap, BitVec.ofNat 8 (cap / 256), BitVec.ofNat 8 count,
        BitVec.ofNat 8 (count / 256)] := by
  have h1 : ∀ n, BitVec.ofNat 8 (n % 65536 / 256) = BitVec.ofNat 8 (n / 256) := by
    intro n; apply BitVec.eq_of_toNat_eq; simp; omega
  have h2 : ∀ n, BitVec.ofNat 8 (n % 65536) = BitVec.ofNat 8 n := by
    intro n; apply BitVec.eq_of_toNat_eq; simp
  simp [Machine.queryReply, bytesOfWord, lowByte_eq, highByte_eq, h1, h2]

end Sys2Proof.Laws
end

