-- ==== Sys2Proof/Laws/State.lean ====
section
/-! SUPPORT. One lemma for each field and each update of `State`, so that no proof unfolds an update. -/

namespace Sys2Proof.Machine

variable (s : State)

section setQ
variable (v : Queue)
@[simp] theorem State.setQ_cfg : (s.setQ v).cfg = s.cfg := rfl
@[simp] theorem State.setQ_q : (s.setQ v).q = v := rfl
@[simp] theorem State.setQ_t : (s.setQ v).t = s.t := rfl
@[simp] theorem State.setQ_dev : (s.setQ v).dev = s.dev := rfl
@[simp] theorem State.setQ_status : (s.setQ v).status = s.status := rfl
@[simp] theorem State.setQ_i : (s.setQ v).i = s.i := rfl
@[simp] theorem State.setQ_k : (s.setQ v).k = s.k := rfl
@[simp] theorem State.setQ_phase : (s.setQ v).phase = s.phase := rfl
@[simp] theorem State.setQ_rx : (s.setQ v).rx = s.rx := rfl
@[simp] theorem State.setQ_tx : (s.setQ v).tx = s.tx := rfl
@[simp] theorem State.setQ_env : (s.setQ v).env = s.env := rfl
@[simp] theorem State.setQ_free : (s.setQ v).free = s.free := rfl
end setQ

section setT
variable (v : TimeBase)
@[simp] theorem State.setT_cfg : (s.setT v).cfg = s.cfg := rfl
@[simp] theorem State.setT_q : (s.setT v).q = s.q := rfl
@[simp] theorem State.setT_t : (s.setT v).t = v := rfl
@[simp] theorem State.setT_dev : (s.setT v).dev = s.dev := rfl
@[simp] theorem State.setT_status : (s.setT v).status = s.status := rfl
@[simp] theorem State.setT_i : (s.setT v).i = s.i := rfl
@[simp] theorem State.setT_k : (s.setT v).k = s.k := rfl
@[simp] theorem State.setT_phase : (s.setT v).phase = s.phase := rfl
@[simp] theorem State.setT_rx : (s.setT v).rx = s.rx := rfl
@[simp] theorem State.setT_tx : (s.setT v).tx = s.tx := rfl
@[simp] theorem State.setT_env : (s.setT v).env = s.env := rfl
@[simp] theorem State.setT_free : (s.setT v).free = s.free := rfl
end setT

section setDev
variable (v : Device)
@[simp] theorem State.setDev_cfg : (s.setDev v).cfg = s.cfg := rfl
@[simp] theorem State.setDev_q : (s.setDev v).q = s.q := rfl
@[simp] theorem State.setDev_t : (s.setDev v).t = s.t := rfl
@[simp] theorem State.setDev_dev : (s.setDev v).dev = v := rfl
@[simp] theorem State.setDev_status : (s.setDev v).status = s.status := rfl
@[simp] theorem State.setDev_i : (s.setDev v).i = s.i := rfl
@[simp] theorem State.setDev_k : (s.setDev v).k = s.k := rfl
@[simp] theorem State.setDev_phase : (s.setDev v).phase = s.phase := rfl
@[simp] theorem State.setDev_rx : (s.setDev v).rx = s.rx := rfl
@[simp] theorem State.setDev_tx : (s.setDev v).tx = s.tx := rfl
@[simp] theorem State.setDev_env : (s.setDev v).env = s.env := rfl
@[simp] theorem State.setDev_free : (s.setDev v).free = s.free := rfl
end setDev

section setStatus
variable (v : StatusLine)
@[simp] theorem State.setStatus_cfg : (s.setStatus v).cfg = s.cfg := rfl
@[simp] theorem State.setStatus_q : (s.setStatus v).q = s.q := rfl
@[simp] theorem State.setStatus_t : (s.setStatus v).t = s.t := rfl
@[simp] theorem State.setStatus_dev : (s.setStatus v).dev = s.dev := rfl
@[simp] theorem State.setStatus_status : (s.setStatus v).status = v := rfl
@[simp] theorem State.setStatus_i : (s.setStatus v).i = s.i := rfl
@[simp] theorem State.setStatus_k : (s.setStatus v).k = s.k := rfl
@[simp] theorem State.setStatus_phase : (s.setStatus v).phase = s.phase := rfl
@[simp] theorem State.setStatus_rx : (s.setStatus v).rx = s.rx := rfl
@[simp] theorem State.setStatus_tx : (s.setStatus v).tx = s.tx := rfl
@[simp] theorem State.setStatus_env : (s.setStatus v).env = s.env := rfl
@[simp] theorem State.setStatus_free : (s.setStatus v).free = s.free := rfl
end setStatus

section setI
variable (v : IngestRegs)
@[simp] theorem State.setI_cfg : (s.setI v).cfg = s.cfg := rfl
@[simp] theorem State.setI_q : (s.setI v).q = s.q := rfl
@[simp] theorem State.setI_t : (s.setI v).t = s.t := rfl
@[simp] theorem State.setI_dev : (s.setI v).dev = s.dev := rfl
@[simp] theorem State.setI_status : (s.setI v).status = s.status := rfl
@[simp] theorem State.setI_i : (s.setI v).i = v := rfl
@[simp] theorem State.setI_k : (s.setI v).k = s.k := rfl
@[simp] theorem State.setI_phase : (s.setI v).phase = s.phase := rfl
@[simp] theorem State.setI_rx : (s.setI v).rx = s.rx := rfl
@[simp] theorem State.setI_tx : (s.setI v).tx = s.tx := rfl
@[simp] theorem State.setI_env : (s.setI v).env = s.env := rfl
@[simp] theorem State.setI_free : (s.setI v).free = s.free := rfl
end setI

section setK
variable (v : ConsumeRegs)
@[simp] theorem State.setK_cfg : (s.setK v).cfg = s.cfg := rfl
@[simp] theorem State.setK_q : (s.setK v).q = s.q := rfl
@[simp] theorem State.setK_t : (s.setK v).t = s.t := rfl
@[simp] theorem State.setK_dev : (s.setK v).dev = s.dev := rfl
@[simp] theorem State.setK_status : (s.setK v).status = s.status := rfl
@[simp] theorem State.setK_i : (s.setK v).i = s.i := rfl
@[simp] theorem State.setK_k : (s.setK v).k = v := rfl
@[simp] theorem State.setK_phase : (s.setK v).phase = s.phase := rfl
@[simp] theorem State.setK_rx : (s.setK v).rx = s.rx := rfl
@[simp] theorem State.setK_tx : (s.setK v).tx = s.tx := rfl
@[simp] theorem State.setK_env : (s.setK v).env = s.env := rfl
@[simp] theorem State.setK_free : (s.setK v).free = s.free := rfl
end setK

section setPhase
variable (v : Phase)
@[simp] theorem State.setPhase_cfg : (s.setPhase v).cfg = s.cfg := rfl
@[simp] theorem State.setPhase_q : (s.setPhase v).q = s.q := rfl
@[simp] theorem State.setPhase_t : (s.setPhase v).t = s.t := rfl
@[simp] theorem State.setPhase_dev : (s.setPhase v).dev = s.dev := rfl
@[simp] theorem State.setPhase_status : (s.setPhase v).status = s.status := rfl
@[simp] theorem State.setPhase_i : (s.setPhase v).i = s.i := rfl
@[simp] theorem State.setPhase_k : (s.setPhase v).k = s.k := rfl
@[simp] theorem State.setPhase_phase : (s.setPhase v).phase = v := rfl
@[simp] theorem State.setPhase_rx : (s.setPhase v).rx = s.rx := rfl
@[simp] theorem State.setPhase_tx : (s.setPhase v).tx = s.tx := rfl
@[simp] theorem State.setPhase_env : (s.setPhase v).env = s.env := rfl
@[simp] theorem State.setPhase_free : (s.setPhase v).free = s.free := rfl
end setPhase

section setRx
variable (v : List Byte)
@[simp] theorem State.setRx_cfg : (s.setRx v).cfg = s.cfg := rfl
@[simp] theorem State.setRx_q : (s.setRx v).q = s.q := rfl
@[simp] theorem State.setRx_t : (s.setRx v).t = s.t := rfl
@[simp] theorem State.setRx_dev : (s.setRx v).dev = s.dev := rfl
@[simp] theorem State.setRx_status : (s.setRx v).status = s.status := rfl
@[simp] theorem State.setRx_i : (s.setRx v).i = s.i := rfl
@[simp] theorem State.setRx_k : (s.setRx v).k = s.k := rfl
@[simp] theorem State.setRx_phase : (s.setRx v).phase = s.phase := rfl
@[simp] theorem State.setRx_rx : (s.setRx v).rx = v := rfl
@[simp] theorem State.setRx_tx : (s.setRx v).tx = s.tx := rfl
@[simp] theorem State.setRx_env : (s.setRx v).env = s.env := rfl
@[simp] theorem State.setRx_free : (s.setRx v).free = s.free := rfl
end setRx

section setTx
variable (v : List Byte)
@[simp] theorem State.setTx_cfg : (s.setTx v).cfg = s.cfg := rfl
@[simp] theorem State.setTx_q : (s.setTx v).q = s.q := rfl
@[simp] theorem State.setTx_t : (s.setTx v).t = s.t := rfl
@[simp] theorem State.setTx_dev : (s.setTx v).dev = s.dev := rfl
@[simp] theorem State.setTx_status : (s.setTx v).status = s.status := rfl
@[simp] theorem State.setTx_i : (s.setTx v).i = s.i := rfl
@[simp] theorem State.setTx_k : (s.setTx v).k = s.k := rfl
@[simp] theorem State.setTx_phase : (s.setTx v).phase = s.phase := rfl
@[simp] theorem State.setTx_rx : (s.setTx v).rx = s.rx := rfl
@[simp] theorem State.setTx_tx : (s.setTx v).tx = v := rfl
@[simp] theorem State.setTx_env : (s.setTx v).env = s.env := rfl
@[simp] theorem State.setTx_free : (s.setTx v).free = s.free := rfl
end setTx

section setEnv
variable (v : Env)
@[simp] theorem State.setEnv_cfg : (s.setEnv v).cfg = s.cfg := rfl
@[simp] theorem State.setEnv_q : (s.setEnv v).q = s.q := rfl
@[simp] theorem State.setEnv_t : (s.setEnv v).t = s.t := rfl
@[simp] theorem State.setEnv_dev : (s.setEnv v).dev = s.dev := rfl
@[simp] theorem State.setEnv_status : (s.setEnv v).status = s.status := rfl
@[simp] theorem State.setEnv_i : (s.setEnv v).i = s.i := rfl
@[simp] theorem State.setEnv_k : (s.setEnv v).k = s.k := rfl
@[simp] theorem State.setEnv_phase : (s.setEnv v).phase = s.phase := rfl
@[simp] theorem State.setEnv_rx : (s.setEnv v).rx = s.rx := rfl
@[simp] theorem State.setEnv_tx : (s.setEnv v).tx = s.tx := rfl
@[simp] theorem State.setEnv_env : (s.setEnv v).env = v := rfl
@[simp] theorem State.setEnv_free : (s.setEnv v).free = s.free := rfl
end setEnv

section setFree
variable (v : Nat)
@[simp] theorem State.setFree_cfg : (s.setFree v).cfg = s.cfg := rfl
@[simp] theorem State.setFree_q : (s.setFree v).q = s.q := rfl
@[simp] theorem State.setFree_t : (s.setFree v).t = s.t := rfl
@[simp] theorem State.setFree_dev : (s.setFree v).dev = s.dev := rfl
@[simp] theorem State.setFree_status : (s.setFree v).status = s.status := rfl
@[simp] theorem State.setFree_i : (s.setFree v).i = s.i := rfl
@[simp] theorem State.setFree_k : (s.setFree v).k = s.k := rfl
@[simp] theorem State.setFree_phase : (s.setFree v).phase = s.phase := rfl
@[simp] theorem State.setFree_rx : (s.setFree v).rx = s.rx := rfl
@[simp] theorem State.setFree_tx : (s.setFree v).tx = s.tx := rfl
@[simp] theorem State.setFree_env : (s.setFree v).env = s.env := rfl
@[simp] theorem State.setFree_free : (s.setFree v).free = v := rfl
end setFree

end Sys2Proof.Machine
end

