-- ==== Sys2Proof/Laws/Env.lean ====
section
/-! SUPPORT. What happens between two micro-steps of the main context: `interleave` changes the Time
Base by TICKs, appends the host's bytes to `RX`, moves the transmitter, and changes nothing else
(R49, R169). -/

namespace Sys2Proof.Laws

open Sys2Proof.Machine Sys2Proof.Safety

/-! ## One event -/

section OneEvent
variable (s : State) (e : EnvEvent)

@[simp] theorem applyEvent_cfg : (applyEvent s e).cfg = s.cfg := by cases e <;> rfl
@[simp] theorem applyEvent_q : (applyEvent s e).q = s.q := by cases e <;> rfl
@[simp] theorem applyEvent_dev : (applyEvent s e).dev = s.dev := by cases e <;> rfl
@[simp] theorem applyEvent_status : (applyEvent s e).status = s.status := by cases e <;> rfl
@[simp] theorem applyEvent_i : (applyEvent s e).i = s.i := by cases e <;> rfl
@[simp] theorem applyEvent_k : (applyEvent s e).k = s.k := by cases e <;> rfl
@[simp] theorem applyEvent_phase : (applyEvent s e).phase = s.phase := by cases e <;> rfl
@[simp] theorem applyEvent_tx : (applyEvent s e).tx = s.tx := by cases e <;> rfl
@[simp] theorem applyEvent_free : (applyEvent s e).free = s.free := by cases e <;> rfl
@[simp] theorem applyEvent_sched : (applyEvent s e).env.sched = s.env.sched := by cases e <;> rfl

theorem applyEvent_rx : (applyEvent s e).rx = s.rx ++ (eventByte e).toList := by
  cases e <;> simp [applyEvent, eventByte]

end OneEvent

/-! ## The Time Base between micro-steps -/

@[simp] theorem onTick_irqEn (t : TimeBase) : t.onTick.irqEn = t.irqEn := rfl
@[simp] theorem onTick_irqPend (t : TimeBase) : t.onTick.irqPend = t.irqPend := rfl
@[simp] theorem onTick_tick (t : TimeBase) : t.onTick.tick = t.tick + 1#16 := rfl

/-- With the interrupt enabled and idle, a period that ends is one TICK. -/
theorem timerDue_idle {t : TimeBase} (h : InterruptIdle t) : t.timerDue = t.onTick := by
  obtain ⟨h1, h2⟩ := h
  cases t
  simp_all [TimeBase.timerDue, TimeBase.serve, TimeBase.onTick]

theorem onTick_idle {t : TimeBase} (h : InterruptIdle t) : InterruptIdle t.onTick := h

theorem iterate_onTick_idle {t : TimeBase} (h : InterruptIdle t) (n : Nat) :
    InterruptIdle (TimeBase.onTick^[n] t) := by
  induction n generalizing t with
  | zero => exact h
  | succ n ih => exact ih (onTick_idle h)

theorem timerDue_irqEn (t : TimeBase) : t.timerDue.irqEn = t.irqEn := by
  unfold TimeBase.timerDue TimeBase.serve
  split <;> rfl

/-! ## A list of events -/

section Events
variable (es : List EnvEvent) (s : State)

theorem applyEvents_frame : (es.foldl applyEvent s).cfg = s.cfg ∧ (es.foldl applyEvent s).q = s.q ∧
    (es.foldl applyEvent s).dev = s.dev ∧ (es.foldl applyEvent s).status = s.status ∧
    (es.foldl applyEvent s).i = s.i ∧ (es.foldl applyEvent s).k = s.k ∧
    (es.foldl applyEvent s).phase = s.phase ∧ (es.foldl applyEvent s).tx = s.tx ∧
    (es.foldl applyEvent s).free = s.free ∧ (es.foldl applyEvent s).env.sched = s.env.sched := by
  induction es generalizing s with
  | nil => simp
  | cons e es ih => simpa using ih (applyEvent s e)

theorem applyEvents_rx : (es.foldl applyEvent s).rx = s.rx ++ es.filterMap eventByte := by
  induction es generalizing s with
  | nil => simp
  | cons e es ih =>
    rw [List.foldl_cons, ih, applyEvent_rx]
    cases h : eventByte e <;> simp [h]

theorem applyEvents_time (h : InterruptIdle s.t) :
    (es.foldl applyEvent s).t = TimeBase.onTick^[es.countP (· == .timer)] s.t := by
  induction es generalizing s with
  | nil => rfl
  | cons e es ih =>
    rw [List.foldl_cons]
    cases e with
    | timer =>
      have ht : (applyEvent s .timer).t = s.t.onTick := by simp [applyEvent, timerDue_idle h]
      rw [ih _ (by rw [ht]; exact onTick_idle h), ht]
      simp
    | hostSends b => rw [ih _ (by simpa [applyEvent] using h)]; simp [applyEvent]
    | transmitter r => rw [ih _ (by simpa [applyEvent] using h)]; simp [applyEvent]

theorem applyEvents_ready (h : s.env.txReady = true) (hes : EnvEvent.transmitter false ∉ es) :
    (es.foldl applyEvent s).env.txReady = true := by
  induction es generalizing s with
  | nil => exact h
  | cons e es ih =>
    simp only [List.mem_cons, not_or] at hes
    refine ih _ ?_ hes.2
    cases e with
    | transmitter r => cases r <;> simp_all [applyEvent]
    | _ => simpa [applyEvent] using h

end Events

/-! ## One slot of the schedule -/

section Interleave
variable (s : State)

theorem interleave_frame : (interleave s).cfg = s.cfg ∧ (interleave s).q = s.q ∧
    (interleave s).dev = s.dev ∧ (interleave s).status = s.status ∧ (interleave s).i = s.i ∧
    (interleave s).k = s.k ∧ (interleave s).phase = s.phase ∧ (interleave s).tx = s.tx ∧
    (interleave s).free = s.free := by
  unfold interleave
  split
  · simp
  · rename_i es rest _
    obtain ⟨h1, h2, h3, h4, h5, h6, h7, h8, h9, -⟩ :=
      applyEvents_frame es (s.setEnv { s.env with sched := rest })
    exact ⟨h1, h2, h3, h4, h5, h6, h7, h8, h9⟩

@[simp] theorem interleave_cfg : (interleave s).cfg = s.cfg := (interleave_frame s).1
@[simp] theorem interleave_q : (interleave s).q = s.q := (interleave_frame s).2.1
@[simp] theorem interleave_dev : (interleave s).dev = s.dev := (interleave_frame s).2.2.1
@[simp] theorem interleave_status : (interleave s).status = s.status := (interleave_frame s).2.2.2.1
@[simp] theorem interleave_i : (interleave s).i = s.i := (interleave_frame s).2.2.2.2.1
@[simp] theorem interleave_k : (interleave s).k = s.k := (interleave_frame s).2.2.2.2.2.1
@[simp] theorem interleave_phase : (interleave s).phase = s.phase :=
  (interleave_frame s).2.2.2.2.2.2.1
@[simp] theorem interleave_tx : (interleave s).tx = s.tx := (interleave_frame s).2.2.2.2.2.2.2.1
@[simp] theorem interleave_free : (interleave s).free = s.free :=
  (interleave_frame s).2.2.2.2.2.2.2.2

theorem interleave_sched : (interleave s).env.sched = s.env.sched.drop 1 := by
  unfold interleave
  split
  · rename_i h; simp [h]
  · rename_i es rest h
    rw [(applyEvents_frame es _).2.2.2.2.2.2.2.2.2]; simp [h]

theorem interleave_rx : (interleave s).rx = s.rx ++ hostBytes (s.env.sched.take 1) := by
  unfold interleave
  split
  · rename_i h; simp [h, hostBytes]
  · rename_i es rest h
    rw [applyEvents_rx]; simp [h, hostBytes]

theorem interleave_time (h : InterruptIdle s.t) :
    (interleave s).t = TimeBase.onTick^[timerCount (s.env.sched.take 1)] s.t := by
  unfold interleave
  split
  · rename_i hs; simp [hs, timerCount]
  · rename_i es rest hs
    rw [applyEvents_time _ _ (by simpa using h)]; simp [hs, timerCount]

/-- One slot passes. -/
theorem interleave_elapsed : Elapsed 1 s (interleave s) :=
  ⟨interleave_sched s, interleave_time s⟩

theorem interleave_idle {s : State} (h : InterruptIdle s.t) : InterruptIdle (interleave s).t := by
  rw [interleave_time s h]; exact iterate_onTick_idle h _

theorem interleave_lineFree {s : State} (h : LineFree s) : LineFree (interleave s) := by
  refine ⟨?_, fun es hes => h.2 es (List.mem_of_mem_drop (interleave_sched s ▸ hes))⟩
  unfold interleave
  split
  · exact h.1
  · rename_i es rest hs
    exact applyEvents_ready _ _ (by simpa using h.1) (h.2 es (by simp [hs]))

/-- Where the schedule is over nothing happens. -/
theorem interleave_quiet {s : State} (h : s.env.sched = []) : interleave s = s := by
  simp [interleave, h]

end Interleave

/-! ## Time that passes over several micro-steps -/

theorem timerCount_append (a b : List (List EnvEvent)) :
    timerCount (a ++ b) = timerCount a + timerCount b := by simp [timerCount]

theorem hostBytes_append (a b : List (List EnvEvent)) :
    hostBytes (a ++ b) = hostBytes a ++ hostBytes b := by simp [hostBytes]

theorem take_add_drop {α : Type} (l : List α) (m n : Nat) :
    l.take (m + n) = l.take m ++ (l.drop m).take n := List.take_add

/-- `n` slots pass and `RX` is only appended to: what every operation does that reads no byte. -/
def Passes (n : Nat) (s t : State) : Prop :=
  Elapsed n s t ∧ t.rx = s.rx ++ hostBytes (s.env.sched.take n) ∧
    (LineFree s → LineFree t) ∧ (InterruptIdle s.t → InterruptIdle t.t)

theorem elapsed_trans {m n : Nat} {s t u : State} (h1 : Elapsed m s t) (h2 : Elapsed n t u)
    (hi : InterruptIdle s.t → InterruptIdle t.t) : Elapsed (m + n) s u := by
  refine ⟨by rw [h2.1, h1.1, List.drop_drop], fun h => ?_⟩
  rw [h2.2 (hi h), h1.2 h, ← Function.iterate_add_apply, h1.1, take_add_drop, timerCount_append,
    Nat.add_comm]

theorem Passes.refl (s : State) : Passes 0 s s := by
  simp [Passes, Elapsed, timerCount, hostBytes]

theorem Passes.trans {m n : Nat} {s t u : State} (h1 : Passes m s t) (h2 : Passes n t u) :
    Passes (m + n) s u := by
  refine ⟨elapsed_trans h1.1 h2.1 h1.2.2.2, ?_, fun h => h2.2.2.1 (h1.2.2.1 h),
    fun h => h2.2.2.2 (h1.2.2.2 h)⟩
  rw [h2.2.1, h1.2.1, h1.1.1, take_add_drop, hostBytes_append, List.append_assoc]

theorem interleave_passes (s : State) : Passes 1 s (interleave s) :=
  ⟨interleave_elapsed s, interleave_rx s, interleave_lineFree, interleave_idle⟩

/-- Time that passes over an operation that reads no byte takes none. -/
theorem Passes.takes {n : Nat} {s t : State} (h : Passes n s t) : Takes n [] s t :=
  ⟨h.1, h.2.1.symm⟩

theorem takes_trans {m n : Nat} {as bs : List Byte} {s t u : State} (h1 : Takes m as s t)
    (h2 : Takes n bs t u) (hi : InterruptIdle s.t → InterruptIdle t.t) :
    Takes (m + n) (as ++ bs) s u := by
  refine ⟨elapsed_trans h1.1 h2.1 hi, ?_⟩
  rw [take_add_drop, hostBytes_append, ← List.append_assoc, h1.2, List.append_assoc, ← h1.1.1, h2.2,
    List.append_assoc]

/-- What has come `m` slots after `t` is what has come `n + m` after `s`, without what was taken. -/
theorem takes_rx {n : Nat} {bs : List Byte} {s t : State} (h : Takes n bs s t) (m : Nat) :
    s.rx ++ hostBytes (s.env.sched.take (n + m)) =
      bs ++ (t.rx ++ hostBytes (t.env.sched.take m)) := by
  rw [take_add_drop, hostBytes_append, ← List.append_assoc, h.2, h.1.1, List.append_assoc]

/-- What `before` slots and the payload `bs` leave of a payload that arrives in time. -/
theorem arrivesInTime_after {before after : Nat} {bs p : List Byte} {s t : State}
    (h : ArrivesInTime (before + after) (bs ++ p) s)
    (ht : Takes (before + 2 * bs.length) bs s t) : ArrivesInTime after p t := by
  intro j hj
  have hp := h (bs.length + j) (by simp; omega)
  rw [show before + after + 2 * (bs.length + j) + 1 =
    before + 2 * bs.length + (after + 2 * j + 1) by omega, takes_rx ht, Nat.add_assoc,
    List.take_length_add_append, List.prefix_append_right_inj] at hp
  exact hp

theorem runsOutAfter_after {before after : Nat} {bs p : List Byte} {s t : State}
    (h : RunsOutAfter (before + after) (bs ++ p) s)
    (ht : Takes (before + 2 * bs.length) bs s t) : RunsOutAfter after p t := by
  refine ⟨arrivesInTime_after h.1 ht, ?_⟩
  have hr := h.2
  rwa [List.length_append, show before + after + 2 * (bs.length + p.length) + 1 =
    before + 2 * bs.length + (after + 2 * p.length + 1) by omega, takes_rx ht,
    List.append_cancel_left_eq] at hr

theorem arrivesInTime_append {before : Nat} {bs p : List Byte} {s : State}
    (h : ArrivesInTime before (bs ++ p) s) : ArrivesInTime before bs s := by
  intro j hj
  have := h j (by simp; omega)
  rwa [List.take_append_of_le_length (by omega)] at this

/-- The first byte that arrives in time is there after one slot. -/
theorem arrivesInTime_head {b : Byte} {p : List Byte} {s : State}
    (h : ArrivesInTime 0 (b :: p) s) : ∃ rest, (interleave s).rx = b :: rest := by
  obtain ⟨rest, hr⟩ := h 0 (by simp)
  exact ⟨rest, by rw [interleave_rx, ← hr]; simp⟩

/-- `n` slots pass and `bs` is taken from `RX`; the line stays free and the interrupt idle. -/
def Reads (n : Nat) (bs : List Byte) (s t : State) : Prop :=
  Takes n bs s t ∧ (LineFree s → LineFree t) ∧ (InterruptIdle s.t → InterruptIdle t.t)

theorem Passes.reads {n : Nat} {s t : State} (h : Passes n s t) : Reads n [] s t :=
  ⟨h.takes, h.2.2.1, h.2.2.2⟩

theorem Reads.trans {m n : Nat} {as bs : List Byte} {s t u : State} (h1 : Reads m as s t)
    (h2 : Reads n bs t u) : Reads (m + n) (as ++ bs) s u :=
  ⟨takes_trans h1.1 h2.1 h1.2.2, fun h => h2.2.1 (h1.2.1 h), fun h => h2.2.2 (h1.2.2 h)⟩

/-- A micro-step that leaves the Time Base, `RX` and the environment alone. -/
theorem micro_passes {f : State → State}
    (hf : ∀ s, (f s).t = s.t ∧ (f s).rx = s.rx ∧ (f s).env = s.env) (s : State) :
    Passes 1 s (micro f s) := by
  obtain ⟨⟨h1, h2⟩, h3, h4, h5⟩ := interleave_passes s
  obtain ⟨ht, hr, he⟩ := hf (interleave s)
  refine ⟨⟨by rw [micro, he, h1], fun h => by rw [micro, ht, h2 h]⟩, by rw [micro, hr, h3],
    fun h => ?_, fun h => ?_⟩
  · have := h4 h
    exact ⟨by rw [micro, he]; exact this.1, by rw [micro, he]; exact this.2⟩
  · rw [micro, ht]; exact h5 h

end Sys2Proof.Laws
end

