-- ==== Sys2Proof/Laws/Ops.lean ====
section
/-! SUPPORT. One lemma for each shared operation: everything it does, in every schedule. -/

namespace Sys2Proof.Laws

open Sys2Proof.Machine Sys2Proof.Safety

/-! ## Operations on the device side only -/

/-- Nothing of the main context but the device side has changed. -/
def SameButDev (s t : State) : Prop :=
  t.cfg = s.cfg ∧ t.q = s.q ∧ t.status = s.status ∧ t.i = s.i ∧ t.k = s.k ∧ t.phase = s.phase ∧
    t.tx = s.tx ∧ t.free = s.free

theorem SameButDev.refl (s : State) : SameButDev s s := ⟨rfl, rfl, rfl, rfl, rfl, rfl, rfl, rfl⟩

theorem SameButDev.trans {s t u : State} (h1 : SameButDev s t) (h2 : SameButDev t u) :
    SameButDev s u := by
  obtain ⟨a1, a2, a3, a4, a5, a6, a7, a8⟩ := h1
  obtain ⟨b1, b2, b3, b4, b5, b6, b7, b8⟩ := h2
  exact ⟨b1.trans a1, b2.trans a2, b3.trans a3, b4.trans a4, b5.trans a5, b6.trans a6,
    b7.trans a7, b8.trans a8⟩

/-- A micro-step on the device side. -/
theorem micro_setDev (g : Device → Device) (s : State) :
    SameButDev s (micro (fun s => s.setDev (g s.dev)) s) ∧
      Passes 1 s (micro (fun s => s.setDev (g s.dev)) s) ∧
      (micro (fun s => s.setDev (g s.dev)) s).dev = g s.dev :=
  ⟨by simp [SameButDev, micro], micro_passes (fun _ => ⟨rfl, rfl, rfl⟩) s, by simp [micro]⟩

/-- Driving a sequence: one slot of the schedule for each step of it. -/
theorem driveAll_spec (es : List PinEvent) (s : State) :
    SameButDev s (driveAll es s) ∧ Passes es.length s (driveAll es s) ∧
      (driveAll es s).dev = es.foldl Device.drive s.dev := by
  induction es generalizing s with
  | nil => exact ⟨SameButDev.refl s, Passes.refl s, rfl⟩
  | cons e es ih =>
    obtain ⟨a1, a2, a3⟩ := micro_setDev (fun dev => dev.drive e) s
    obtain ⟨b1, b2, b3⟩ := ih (micro (fun s => s.setDev (s.dev.drive e)) s)
    refine ⟨a1.trans b1, ?_, ?_⟩
    · rw [List.length_cons, Nat.add_comm]; exact a2.trans b2
    · rw [List.foldl_cons, ← a3]; exact b3

/-- The device side after a DEVWRITE. -/
def Device.written (a v : Byte) (dev : Device) : Device :=
  ((devWriteTrace a v).foldl Device.drive dev).shadow a v

theorem written_done (a v : Byte) (dev : Device) : DevWriteDone a v dev (Device.written a v dev) := by
  refine ⟨rfl, rfl, rfl, rfl, Memory.read_write_same _ _ _,
    fun x hx => Memory.read_write_other _ _ hx, ?_⟩
  simp [Device.written, devWriteTrace, busHalf, Device.drive, Device.shadow]

/-- DEVWRITE (R131): thirteen micro-steps. -/
theorem devWrite_spec (a v : Byte) (s : State) :
    SameButDev s (devWrite a v s) ∧ Passes 13 s (devWrite a v s) ∧
      (devWrite a v s).dev = Device.written a v s.dev := by
  obtain ⟨a1, a2, a3⟩ := driveAll_spec (devWriteTrace a v) s
  obtain ⟨b1, b2, b3⟩ := micro_setDev (fun dev => dev.shadow a v) (driveAll (devWriteTrace a v) s)
  exact ⟨a1.trans b1, a2.trans b2, by rw [Device.written, ← a3]; exact b3⟩

/-- The device side after a list of DEVWRITEs. -/
def Device.writtenAll (seq : List (Byte × Byte)) (dev : Device) : Device :=
  seq.foldl (fun dev av => Device.written av.1 av.2 dev) dev

theorem devWrites_spec (seq : List (Byte × Byte)) (s : State) :
    SameButDev s (devWrites seq s) ∧ Passes (13 * seq.length) s (devWrites seq s) ∧
      (devWrites seq s).dev = Device.writtenAll seq s.dev := by
  induction seq generalizing s with
  | nil => exact ⟨SameButDev.refl s, Passes.refl s, rfl⟩
  | cons av seq ih =>
    obtain ⟨a1, a2, a3⟩ := devWrite_spec av.1 av.2 s
    obtain ⟨b1, b2, b3⟩ := ih (devWrite av.1 av.2 s)
    refine ⟨a1.trans b1, ?_, ?_⟩
    · have := a2.trans b2
      rwa [show 13 + 13 * seq.length = 13 * (av :: seq).length by simp; omega] at this
    · rw [Device.writtenAll, List.foldl_cons, ← a3]; exact b3

theorem writtenAll_append (xs ys : List (Byte × Byte)) (dev : Device) :
    Device.writtenAll (xs ++ ys) dev = Device.writtenAll ys (Device.writtenAll xs dev) :=
  List.foldl_append

/-- A list of DEVWRITEs, as the last of them leaves it. -/
theorem writtenAll_done (seq : List (Byte × Byte)) (dev : Device) :
    (Device.writtenAll seq dev).rst = dev.rst ∧
      (Device.writtenAll seq dev).bus =
        dev.bus ++ seq.flatMap (fun av => devWriteTrace av.1 av.2) ∧
      (∀ a v, seq.getLast? = some (a, v) → (Device.writtenAll seq dev).sel = .data ∧
        (Device.writtenAll seq dev).d = v ∧ (Device.writtenAll seq dev).wr = .high) ∧
      ∀ x, Memory.read (Device.writtenAll seq dev).sh x =
        (lastWritten seq x).or (Memory.read dev.sh x) := by
  induction seq using List.reverseRecOn with
  | nil => simp [Device.writtenAll, lastWritten]
  | append_singleton seq av ih =>
    obtain ⟨i1, i2, -, i4⟩ := ih
    obtain ⟨d1, d2, d3, d4, d5, d6, d7⟩ :=
      written_done av.1 av.2 (Device.writtenAll seq dev)
    rw [writtenAll_append]
    change (Device.written av.1 av.2 _).rst = _ ∧ (Device.written av.1 av.2 _).bus = _ ∧
      (∀ a v, _ → (Device.written av.1 av.2 _).sel = _ ∧ (Device.written av.1 av.2 _).d = _ ∧
        (Device.written av.1 av.2 _).wr = _) ∧
      ∀ x, Memory.read (Device.written av.1 av.2 _).sh x = _
    refine ⟨d4.trans i1, ?_, ?_, fun x => ?_⟩
    · rw [d7, i2]; simp [devWriteTrace, busHalf]
    · intro a v h
      simp only [List.getLast?_append, List.getLast?_singleton, Option.some_or,
        Option.some.injEq] at h
      subst h
      exact ⟨d1, d2, d3⟩
    · by_cases hx : x = av.1.toNat
      · subst hx; rw [d5]; simp [lastWritten]
      · rw [d6 x hx, i4 x]
        simp [lastWritten, Ne.symm hx]

/-- The device side after a CHIPRESET. -/
def Device.resetDone (seq : List (Byte × Byte)) (dev : Device) : Device :=
  Device.writtenAll seq (resetPulseTrace.foldl Device.drive dev)

theorem resetDone_done (seq : List (Byte × Byte)) (dev : Device) :
    ChipResetDone seq dev (Device.resetDone seq dev) := by
  obtain ⟨h1, h2, h3, h4⟩ := writtenAll_done seq (resetPulseTrace.foldl Device.drive dev)
  refine ⟨h1, ?_, ?_, h3, h4⟩
  · rw [Device.resetDone, h2]; simp [resetPulseTrace, Device.drive]
  · rintro rfl; exact ⟨rfl, rfl, rfl⟩

/-- CHIPRESET (R138). -/
theorem chipReset_spec (s : State) :
    SameButDev s (chipReset s) ∧ Passes (3 + 13 * s.cfg.resetWriteSeq.length) s (chipReset s) ∧
      (chipReset s).dev = Device.resetDone s.cfg.resetWriteSeq s.dev := by
  obtain ⟨a1, a2, a3⟩ := driveAll_spec resetPulseTrace s
  obtain ⟨b1, b2, b3⟩ := devWrites_spec s.cfg.resetWriteSeq (driveAll resetPulseTrace s)
  exact ⟨a1.trans b1, a2.trans b2, by rw [Device.resetDone, ← a3]; exact b3⟩

/-! ## Queue primitives as micro-steps -/

theorem qClear_spec (s : State) : qClear s = (interleave s).setQ s.q.clear ∧
    Passes 1 s (qClear s) :=
  ⟨by simp [qClear, micro], micro_passes (fun _ => ⟨rfl, rfl, rfl⟩) s⟩

theorem qAppend_spec (b : Byte) (s : State) :
    qAppend b s = (interleave s).setQ (s.q.append s.cfg.cap b) ∧ Passes 1 s (qAppend b s) :=
  ⟨by simp [qAppend, micro], micro_passes (fun _ => ⟨rfl, rfl, rfl⟩) s⟩

theorem qRemoveInto_spec (put : ConsumeRegs → ConsumeRegs) (s : State) :
    qRemoveInto put s = (interleave s).dropFront.setK (put s.k) ∧
      Passes 1 s (qRemoveInto put s) :=
  ⟨by simp [qRemoveInto, micro, State.dropFront], micro_passes (fun _ => ⟨rfl, rfl, rfl⟩) s⟩

theorem statusUpdate_spec (s : State) :
    statusUpdate s = (interleave s).setStatus s.q.statusLine ∧ Passes 1 s (statusUpdate s) :=
  ⟨by simp [statusUpdate, micro], micro_passes (fun _ => ⟨rfl, rfl, rfl⟩) s⟩

/-! ## The transport -/

/-- `RxByte()`: a slot passes, then the oldest byte there is, if any, is taken. -/
theorem rxByte_cases (s : State) :
    ((interleave s).rx = [] ∧ rxByte s = (none, interleave s)) ∨
      ∃ b rest, (interleave s).rx = b :: rest ∧ rxByte s = (some b, (interleave s).setRx rest) := by
  unfold rxByte
  cases h : (interleave s).rx with
  | nil => exact .inl ⟨rfl, by simp [h]⟩
  | cons b rest => exact .inr ⟨b, rest, rfl, by simp [h]⟩

/-- `RxByte()` with a byte there takes that byte. -/
theorem rxByte_takes {s : State} {b : Byte} {rest : List Byte} (h : (interleave s).rx = b :: rest) :
    Takes 1 [b] s ((interleave s).setRx rest) :=
  ⟨interleave_elapsed s, by rw [← interleave_rx, h]; rfl⟩

theorem rxByte_reads {s : State} {b : Byte} {rest : List Byte} (h : (interleave s).rx = b :: rest) :
    rxByte s = (some b, (interleave s).setRx rest) ∧ Reads 1 [b] s ((interleave s).setRx rest) :=
  ⟨by simp [rxByte, h], rxByte_takes h, fun hl => interleave_lineFree hl,
    fun hi => interleave_idle hi⟩

/-- Sending a reply: some of its bytes are sent, in order; then either all were, and the main context
goes on to CONSUME, or it waits with the others. Nothing else changes. -/
theorem sendReply_spec (bs : List Byte) (s : State) :
    ∃ sent pending n, bs = sent ++ pending ∧ Passes n s (sendReply bs s) ∧
      (sendReply bs s).tx = s.tx ++ sent ∧
      (sendReply bs s).phase = (if pending = [] then .consume else .reply pending) ∧
      (LineFree s → pending = []) ∧
      (sendReply bs s).cfg = s.cfg ∧ (sendReply bs s).q = s.q ∧ (sendReply bs s).dev = s.dev ∧
      (sendReply bs s).status = s.status ∧ (sendReply bs s).i = s.i ∧ (sendReply bs s).k = s.k ∧
      (sendReply bs s).free = s.free := by
  induction bs generalizing s with
  | nil =>
    exact ⟨[], [], 0, rfl, Passes.refl s, by simp [sendReply], by simp [sendReply], fun _ => rfl,
      rfl, rfl, rfl, rfl, rfl, rfl, rfl⟩
  | cons b bs ih =>
    have hp := interleave_passes s
    by_cases hr : (interleave s).env.txReady = true
    · obtain ⟨sent, pending, n, h1, h2, h3, h4, h5, h6⟩ :=
        ih ((interleave s).setTx ((interleave s).tx ++ [b]))
      have e : sendReply (b :: bs) s =
          sendReply bs ((interleave s).setTx ((interleave s).tx ++ [b])) := by
        simp [sendReply, hr]
      rw [e]
      refine ⟨b :: sent, pending, 1 + n, by simp [h1], ?_, by rw [h3]; simp, h4,
        fun hl => h5 (interleave_lineFree hl), by simpa using h6⟩
      exact Passes.trans (t := (interleave s).setTx ((interleave s).tx ++ [b])) hp h2
    · have e : sendReply (b :: bs) s = (interleave s).setPhase (.reply (b :: bs)) := by
        simp [sendReply, hr]
      rw [e]
      refine ⟨[], b :: bs, 1, rfl, hp, by simp, by simp, fun hl => ?_, by simp⟩
      exact absurd (interleave_lineFree hl).1 hr

/-- A reply over a free line is sent whole. -/
theorem sendReply_lineFree (bs : List Byte) {s : State} (h : LineFree s) :
    ∃ n, Passes n s (sendReply bs s) ∧ (sendReply bs s).tx = s.tx ++ bs ∧
      (sendReply bs s).phase = .consume ∧ (sendReply bs s).cfg = s.cfg ∧
      (sendReply bs s).q = s.q ∧ (sendReply bs s).dev = s.dev ∧
      (sendReply bs s).status = s.status ∧ (sendReply bs s).i = s.i ∧ (sendReply bs s).k = s.k ∧
      (sendReply bs s).free = s.free := by
  obtain ⟨sent, pending, n, h1, h2, h3, h4, h5, h6⟩ := sendReply_spec bs s
  have hp := h5 h
  subst hp
  simp only [List.append_nil] at h1
  subst h1
  exact ⟨n, h2, h3, by simpa using h4, h6⟩

/-! ## The countdown store (R91, R170) -/

/-- A TICK that becomes due while SETCD holds it off stays pending. -/
theorem heldOff_time (es : List EnvEvent) (s : State) (h1 : s.t.irqEn = false) :
    (es.foldl applyEvent s).t.tick = s.t.tick ∧ (es.foldl applyEvent s).t.irqEn = false ∧
      (es.foldl applyEvent s).t.irqPend = (s.t.irqPend || es.contains .timer) := by
  induction es generalizing s with
  | nil => simp [h1]
  | cons e es ih =>
    rw [List.foldl_cons]
    cases e with
    | timer =>
      have ht : (applyEvent s .timer).t = { s.t with irqPend := true } := by
        simp [applyEvent, TimeBase.timerDue, TimeBase.serve, h1]
      have := ih (applyEvent s .timer) (by rw [ht]; exact h1)
      rw [ht] at this
      simpa using this
    | hostSends b =>
      have := ih (applyEvent s (.hostSends b)) h1
      simpa [applyEvent] using this
    | transmitter r =>
      have := ih (applyEvent s (.transmitter r)) h1
      simpa [applyEvent] using this

end Sys2Proof.Laws
end

