-- ==== Sys2Proof/Laws/Queue.lean ====
section
/-! SUPPORT. The queue as a first-in first-out sequence of bytes (R84): what each primitive does to its
contents, and that each keeps the invariant. -/

namespace Sys2Proof.Laws

open Sys2Proof.Machine Sys2Proof.Safety

variable {cap : Nat} {q : Queue}

theorem contents_length (cap : Nat) (q : Queue) : (contents cap q).length = q.count := by
  simp [contents]

theorem contents_getElem? (cap : Nat) (q : Queue) (i : Nat) :
    (contents cap q)[i]? = if i < q.count then some (queuedByte cap q i) else none := by
  unfold contents
  by_cases h : i < q.count <;> simp [h]

/-- Two cells of the occupied span differ, and the next free cell is none of them. -/
theorem cell_inj {rd i j : Nat} (hi : i < cap) (hj : j < cap)
    (h : (rd + i) % cap = (rd + j) % cap) : i = j := by
  have h' : i ≡ j [MOD cap] := Nat.ModEq.add_left_cancel' rd h
  simpa [Nat.ModEq, Nat.mod_eq_of_lt hi, Nat.mod_eq_of_lt hj] using h'

@[simp] theorem contents_clear : contents cap q.clear = [] := by simp [contents, Queue.clear]

/-- QAPPEND puts the byte at the end. -/
theorem contents_append (h : QueueInv cap q) (hc : q.count < cap) (b : Byte) :
    contents cap (q.append cap b) = contents cap q ++ [b] := by
  obtain ⟨-, -, -, hw, -, -, -⟩ := h
  apply List.ext_getElem?
  intro i
  rw [contents_getElem?, List.getElem?_append, contents_length, contents_getElem?]
  have hcount : (q.append cap b).count = q.count + 1 := by simp [Queue.append, hc]
  have hbyte : ∀ j, queuedByte cap (q.append cap b) j =
      if (q.rd + j) % cap = q.wr then b else queuedByte cap q j := by
    intro j
    simp only [queuedByte, Queue.append, hc, if_true, Memory.read_write]
    split <;> rfl
  rw [hcount, hbyte]
  by_cases hi : i < q.count
  · have hne : (q.rd + i) % cap ≠ q.wr := by
      rw [hw]; intro he; exact absurd (cell_inj (by omega) hc he) (by omega)
    simp [hi, hne, Nat.lt_succ_of_lt hi]
  · by_cases he : i = q.count
    · subst he; simp [hw]
    · have h1 : ¬ i < q.count + 1 := by omega
      have h2 : i - q.count ≠ 0 := by omega
      simp [hi, h1, h2]

/-- QREMOVE takes the byte at the front. -/
theorem contents_advance (hc : 0 < q.count) :
    contents cap q = queuedByte cap q 0 :: contents cap (q.advance cap) := by
  have hcount : (q.advance cap).count = q.count - 1 := by simp [Queue.advance, hc]
  apply List.ext_getElem?
  intro i
  rw [contents_getElem?, List.getElem?_cons, contents_getElem?, hcount]
  by_cases hi : i = 0
  · subst hi; simp [hc]
  · have hb : queuedByte cap (q.advance cap) (i - 1) = queuedByte cap q i := by
      simp only [queuedByte, Queue.advance, hc, if_true]
      have e : ((q.rd + 1) % cap + (i - 1)) % cap = (q.rd + i) % cap := by
        rw [Nat.mod_add_mod]; congr 1; omega
      rw [e]
    rw [hb]
    have : (i - 1 < q.count - 1) = (i < q.count) := by simp; omega
    simp [hi, this]

/-- The byte QREMOVE returns is the first of the contents. -/
theorem front_eq (h : QueueInv cap q) (hc : 0 < q.count) :
    q.front = some (queuedByte cap q 0) := by
  obtain ⟨-, hr, -, -, -, -, hs⟩ := h
  have h0 := hs 0 hc
  rw [Nat.add_zero, Nat.mod_eq_of_lt hr] at h0
  obtain ⟨b, hb⟩ := Option.isSome_iff_exists.1 h0
  simp [Queue.front, hc, queuedByte, Nat.mod_eq_of_lt hr, hb]

/-! ## The invariant is kept -/

theorem clear_inv (hcap : 0 < cap) (h : QueueInv cap q) : QueueInv cap q.clear := by
  obtain ⟨-, -, -, -, h5, h6, -⟩ := h
  exact ⟨hcap, hcap, Nat.zero_le _, by simp [Queue.clear], h5, h6, fun i hi => absurd hi (by simp [Queue.clear])⟩

theorem append_inv (h : QueueInv cap q) (b : Byte) : QueueInv cap (q.append cap b) := by
  by_cases hc : q.count < cap
  · obtain ⟨h1, h2, h3, h4, h5, h6, h7⟩ := h
    have hq : q.append cap b =
        { q with count := q.count + 1, buf := Memory.write q.buf q.wr b, wr := (q.wr + 1) % cap } := by
      simp [Queue.append, hc]
    rw [hq]
    refine ⟨Nat.mod_lt _ (by omega), h2, hc, ?_, Memory.write_wf h5 _ _, ?_, ?_⟩
    · change (q.wr + 1) % cap = (q.rd + (q.count + 1)) % cap
      rw [h4, Nat.mod_add_mod, Nat.add_assoc]
    · intro c hm
      rcases Memory.mem_write hm with rfl | hm
      · exact h1
      · exact h6 c hm
    · intro i hi
      change (Memory.read (Memory.write q.buf q.wr b) ((q.rd + i) % cap)).isSome = true
      rw [Memory.read_write]
      split
      · rfl
      · rename_i hne
        have hi' : i < q.count + 1 := hi
        have : i ≠ q.count := by rintro rfl; exact hne h4.symm
        exact h7 i (by omega)
  · simpa [Queue.append, hc] using h

theorem advance_inv (h : QueueInv cap q) : QueueInv cap (q.advance cap) := by
  by_cases hc : 0 < q.count
  · obtain ⟨h1, h2, h3, h4, h5, h6, h7⟩ := h
    have hq : q.advance cap = { q with count := q.count - 1, rd := (q.rd + 1) % cap } := by
      simp [Queue.advance, hc]
    have e : ∀ i, ((q.rd + 1) % cap + i) % cap = (q.rd + (i + 1)) % cap := by
      intro i; rw [Nat.mod_add_mod]; congr 1; omega
    rw [hq]
    refine ⟨h1, Nat.mod_lt _ (by omega), by change q.count - 1 ≤ cap; omega, ?_, h5, h6, ?_⟩
    · change q.wr = ((q.rd + 1) % cap + (q.count - 1)) % cap
      rw [e, h4]; congr 2; omega
    · intro i hi
      have hi' : i < q.count - 1 := hi
      change (Memory.read q.buf (((q.rd + 1) % cap + i) % cap)).isSome = true
      rw [e]
      exact h7 (i + 1) (by omega)
  · simpa [Queue.advance, hc] using h

/-- Where the invariant holds and the queue is not empty QREMOVE hands out no free value. -/
theorem dropFront_of_inv {s : State} (h : QueueInv s.cfg.cap s.q) (hc : 0 < s.q.count) :
    s.dropFront = s.setQ (s.q.advance s.cfg.cap) := by
  simp [State.dropFront, front_eq h hc, State.setFree, State.setQ]

theorem frontByte_of_inv {s : State} (h : QueueInv s.cfg.cap s.q) (hc : 0 < s.q.count) :
    s.frontByte = queuedByte s.cfg.cap s.q 0 := by
  simp [State.frontByte, front_eq h hc]

/-- QREMOVE as a micro-step, where the invariant holds and the queue is not empty. -/
theorem qRemoveInto_of_inv (put : ConsumeRegs → ConsumeRegs) {s : State}
    (h : QueueInv s.cfg.cap s.q) (hc : 0 < s.q.count) :
    qRemoveInto put s = ((interleave s).setQ (s.q.advance s.cfg.cap)).setK (put s.k) ∧
      Passes 1 s (qRemoveInto put s) := by
  obtain ⟨h1, h2⟩ := qRemoveInto_spec put s
  refine ⟨?_, h2⟩
  rw [h1, dropFront_of_inv (by simpa using h) (by simpa using hc)]; simp

theorem advance_count (cap : Nat) (q : Queue) : (q.advance cap).count = q.count - 1 := by
  unfold Queue.advance; split <;> [rfl; omega]

/-- Three QREMOVEs. -/
theorem advance_three (h : 3 ≤ q.count) : ((q.advance cap).advance cap).advance cap =
    { q with count := q.count - 3, rd := (q.rd + 3) % cap } := by
  have h1 : 0 < q.count := by omega
  have h2 : 0 < q.count - 1 := by omega
  have h3 : 0 < q.count - 1 - 1 := by omega
  simp only [Queue.advance, h1, if_true, h2, h3]
  congr 1
  rw [Nat.mod_add_mod, Nat.add_assoc, Nat.mod_add_mod]

/-- The first of the contents is the byte QREMOVE returns; the rest is what it leaves. -/
theorem front_of_contents {s : State} (h : QueueInv s.cfg.cap s.q) {b : Byte} {bs : List Byte}
    (hc : contents s.cfg.cap s.q = b :: bs) :
    0 < s.q.count ∧ s.frontByte = b ∧ s.dropFront.free = s.free ∧
      QueueInv s.dropFront.cfg.cap s.dropFront.q ∧
      contents s.dropFront.cfg.cap s.dropFront.q = bs := by
  have h0 : 0 < s.q.count := by
    have := contents_length s.cfg.cap s.q
    rw [hc] at this; simp at this; omega
  have h1 := contents_advance (cap := s.cfg.cap) h0
  rw [hc] at h1
  simp only [List.cons.injEq] at h1
  refine ⟨h0, by rw [frontByte_of_inv h h0, h1.1], ?_⟩
  rw [dropFront_of_inv h h0]
  exact ⟨rfl, advance_inv h, h1.2.symm⟩

/-- A record that stands at the front of the contents is the record CONSUME reads. -/
theorem headRecord_of_contents {s : State} (h : QueueInv s.cfg.cap s.q) {r : Instr}
    {rest : List Byte} (hr : isQueueRecord r = true)
    (hc : contents s.cfg.cap s.q = encode true r ++ rest) : headRecord s = r := by
  unfold headRecord
  cases r with
  | dSleep d =>
    simp only [encode, bytesOfWord, List.cons_append, List.nil_append] at hc
    obtain ⟨_, a1, _, a2, a3⟩ := front_of_contents h hc
    obtain ⟨_, b1, _, b2, b3⟩ := front_of_contents a2 a3
    obtain ⟨_, c1, _⟩ := front_of_contents b2 b3
    rw [a1, b1, c1]; simp [decodeInner]
  | dWrite a v =>
    simp only [encode, List.cons_append, List.nil_append] at hc
    obtain ⟨_, a1, _, a2, a3⟩ := front_of_contents h hc
    obtain ⟨_, b1, _, b2, b3⟩ := front_of_contents a2 a3
    obtain ⟨_, c1, _⟩ := front_of_contents b2 b3
    rw [a1, b1, c1]; simp [decodeInner]
  | dClose =>
    simp only [encode, List.cons_append, List.nil_append] at hc
    obtain ⟨_, a1, _⟩ := front_of_contents h hc
    rw [a1]; simp [decodeInner]
  | _ => exact absurd hr Bool.false_ne_true

end Sys2Proof.Laws
end

