-- ==== Sys2Proof/Laws/Ingest.lean ====
section
/-! SUPPORT. The record loop of C.WRITE (R103, R104), round by round. -/

namespace Sys2Proof.Laws

open Sys2Proof.Machine Sys2Proof.Safety

/-- What the record loop leaves alone, beside `I.op` and `I.n`: everything but the queue, `RX`, the
Time Base and the environment. -/
def IngestFrame (s t : State) : Prop :=
  t.cfg = s.cfg ∧ t.dev = s.dev ∧ t.status = s.status ∧ t.k = s.k ∧ t.tx = s.tx ∧
    t.free = s.free ∧ t.i.cmd = s.i.cmd ∧ t.i.len = s.i.len

theorem IngestFrame.refl (s : State) : IngestFrame s s := ⟨rfl, rfl, rfl, rfl, rfl, rfl, rfl, rfl⟩

theorem IngestFrame.trans {s t u : State} (h1 : IngestFrame s t) (h2 : IngestFrame t u) :
    IngestFrame s u := by
  obtain ⟨a1, a2, a3, a4, a5, a6, a7, a8⟩ := h1
  obtain ⟨b1, b2, b3, b4, b5, b6, b7, b8⟩ := h2
  exact ⟨b1.trans a1, b2.trans a2, b3.trans a3, b4.trans a4, b5.trans a5, b6.trans a6,
    b7.trans a7, b8.trans a8⟩

/-- QAPPEND of several bytes. -/
def Queue.appendAll (cap : Nat) (bs : List Byte) (q : Queue) : Queue :=
  bs.foldl (fun q b => q.append cap b) q

theorem appendAll_append (cap : Nat) (as bs : List Byte) (q : Queue) :
    Queue.appendAll cap (as ++ bs) q = Queue.appendAll cap bs (Queue.appendAll cap as q) :=
  List.foldl_append

theorem appendAll_inv {cap : Nat} (bs : List Byte) {q : Queue} (h : QueueInv cap q) :
    QueueInv cap (Queue.appendAll cap bs q) := by
  induction bs generalizing q with
  | nil => exact h
  | cons b bs ih => exact ih (append_inv h b)

theorem append_count {cap : Nat} {q : Queue} (h : q.count < cap) (b : Byte) :
    (q.append cap b).count = q.count + 1 := by simp [Queue.append, h]

theorem append_rd {cap : Nat} (q : Queue) (b : Byte) : (q.append cap b).rd = q.rd := by
  unfold Queue.append; split <;> rfl

/-- Within the free capacity every byte is appended: the contents grow by exactly the bytes, and the
read index stays. -/
theorem appendAll_contents {cap : Nat} (bs : List Byte) {q : Queue} (h : QueueInv cap q)
    (hc : q.count + bs.length ≤ cap) :
    contents cap (Queue.appendAll cap bs q) = contents cap q ++ bs ∧
      (Queue.appendAll cap bs q).count = q.count + bs.length ∧
      (Queue.appendAll cap bs q).rd = q.rd := by
  induction bs generalizing q with
  | nil => simp [Queue.appendAll]
  | cons b bs ih =>
    have hlt : q.count < cap := by simp at hc; omega
    have hcount := append_count hlt b
    have := ih (append_inv h b) (by rw [hcount]; simp at hc; omega)
    change contents cap (Queue.appendAll cap bs (q.append cap b)) = _ ∧
      (Queue.appendAll cap bs (q.append cap b)).count = _ ∧
      (Queue.appendAll cap bs (q.append cap b)).rd = _
    rw [this.1, this.2.1, this.2.2, contents_append h hlt, hcount, append_rd]
    simp; omega

/-- `RxByte()` and QAPPEND of one byte that is there in time. -/
theorem qAppend_reads {b : Byte} {rest : List Byte} {s : State}
    (h : (interleave s).rx = b :: rest) (i : IngestRegs) :
    Reads 2 [b] s (qAppend b (((interleave s).setRx rest).setI i)) := by
  have hp := (qAppend_spec b (((interleave s).setRx rest).setI i)).2
  exact Reads.trans (m := 1) (n := 1) (as := [b]) (bs := []) (rxByte_reads h).2 hp.reads

/-- The operand bytes of a record, all of them there in time. -/
theorem appendOperands_all (bs : List Byte) {s : State} (h : ArrivesInTime 0 bs s) :
    ∃ t, appendOperands bs.length s = (t, true) ∧ Reads (2 * bs.length) bs s t ∧
      IngestFrame s t ∧ t.q = Queue.appendAll s.cfg.cap bs s.q ∧ t.i = s.i := by
  induction bs generalizing s with
  | nil => exact ⟨s, rfl, (Passes.refl s).reads, IngestFrame.refl s, rfl, rfl⟩
  | cons b bs ih =>
    obtain ⟨rest, hr⟩ := arrivesInTime_head h
    have h2 : Reads 2 [b] s (qAppend b ((interleave s).setRx rest)) :=
      qAppend_reads hr ((interleave s).setRx rest).i
    obtain ⟨u, k1, k2, k3, k4, k5⟩ :=
      ih (arrivesInTime_after (before := 0) (after := 0) (bs := [b]) h h2.1)
    have ha := (qAppend_spec b ((interleave s).setRx rest)).1
    refine ⟨u, ?_, ?_, IngestFrame.trans ?_ k3, ?_, ?_⟩
    · simp only [List.length_cons, appendOperands, (rxByte_reads hr).1, k1]
    · have := h2.trans k2
      rwa [show 2 + 2 * bs.length = 2 * (b :: bs).length by simp; omega] at this
    · rw [ha]; simp [IngestFrame]
    · rw [k4, ha]; simp [Queue.appendAll]
    · rw [k5, ha]; simp

/-- The operand bytes of a record, of which `k + 1` have not come. -/
theorem appendOperands_short (bs : List Byte) (k : Nat) {s : State} (h : RunsOutAfter 0 bs s) :
    ∃ t, appendOperands (bs.length + (k + 1)) s = (t.setPhase (.warg (k + 1)), false) ∧
      Reads (2 * bs.length + 1) bs s t ∧ t.rx = [] ∧ IngestFrame s t ∧
      t.q = Queue.appendAll s.cfg.cap bs s.q ∧ t.i = s.i := by
  induction bs generalizing s with
  | nil =>
    have hr : (interleave s).rx = [] := by rw [interleave_rx]; exact h.2
    exact ⟨interleave s, by simp [appendOperands, rxByte, hr], (interleave_passes s).reads, hr,
      by simp [IngestFrame], by simp [Queue.appendAll], by simp⟩
  | cons b bs ih =>
    obtain ⟨rest, hr⟩ := arrivesInTime_head h.1
    have h2 : Reads 2 [b] s (qAppend b ((interleave s).setRx rest)) :=
      qAppend_reads hr ((interleave s).setRx rest).i
    obtain ⟨u, k1, k2, k0, k3, k4, k5⟩ :=
      ih (runsOutAfter_after (before := 0) (after := 0) (bs := [b]) h h2.1)
    have ha := (qAppend_spec b ((interleave s).setRx rest)).1
    refine ⟨u, ?_, ?_, k0, IngestFrame.trans ?_ k3, ?_, ?_⟩
    · rw [List.length_cons, show bs.length + 1 + (k + 1) = bs.length + (k + 1) + 1 by omega,
        appendOperands, (rxByte_reads hr).1]
      exact k1
    · have := h2.trans k2
      rwa [show 2 + (2 * bs.length + 1) = 2 * (b :: bs).length + 1 by simp; omega] at this
    · rw [ha]; simp [IngestFrame]
    · rw [k4, ha]; simp [Queue.appendAll]
    · rw [k5, ha]; simp

/-- The bytes of a record. -/
theorem recLen_encode {r : Instr} (h : isQueueRecord r = true) :
    ∃ op args, encode true r = op :: args ∧ recLen op ≠ 0#2 ∧
      (recLen op).toNat = args.length + 1 := by
  cases r with
  | dSleep d => exact ⟨Config.opSleep, bytesOfWord d, rfl, by decide, rfl⟩
  | dWrite a v => exact ⟨Config.opWrite, [a, v], rfl, by decide, rfl⟩
  | dClose => exact ⟨Config.opClose, [], rfl, by decide, by decide⟩
  | _ => exact absurd h Bool.false_ne_true

/-- The start of a round of the record loop: the opcode that is there in time fits, and is appended. -/
theorem recordLoop_opcode {op : Byte} {rest : List Byte} {s : State}
    (hr : (interleave s).rx = op :: rest) (h0 : recLen op ≠ 0#2)
    (hfit : (recLen op).toNat ≤ s.i.rem.toNat) (fuel : Nat) :
    ∃ t, recordLoop (fuel + 1) s =
        (match appendOperands ((recLen op).toNat - 1) t with
          | (u, false) => u
          | (u, true) => recordLoop fuel u.recordDone) ∧
      Reads 2 [op] s t ∧ IngestFrame s t ∧ t.q = Queue.appendAll s.cfg.cap [op] s.q ∧
      t.i = { s.i with op := op, n := recLen op } := by
  have hw : ((recLen op).setWidth 8).toNat = (recLen op).toNat := by
    rw [BitVec.toNat_setWidth, Nat.mod_eq_of_lt]
    have := (recLen op).isLt; omega
  have hpos : (recLen op).toNat ≠ 0 := fun h => h0 (BitVec.eq_of_toNat_eq (by simpa using h))
  have hrem : s.i.rem ≠ 0#8 := by
    intro h; rw [h] at hfit; simp at hfit; omega
  have hok : ¬ (recLen op = 0#2 ∨ s.i.rem < (recLen op).setWidth 8) := by
    rw [not_or, BitVec.not_lt, BitVec.le_def, hw]; exact ⟨h0, hfit⟩
  have ha := (qAppend_spec op
    (((interleave s).setRx rest).setI { s.i with op := op, n := recLen op })).1
  refine ⟨_, ?_, qAppend_reads hr { s.i with op := op, n := recLen op }, ?_, ?_, ?_⟩
  · simp only [recordLoop, hrem, if_false, (rxByte_reads hr).1, State.setRx_i, interleave_i]
    exact if_neg hok
  · rw [ha]; simp [IngestFrame]
  · rw [ha]; simp [Queue.appendAll]
  · rw [ha]; simp

/-- One round of the record loop on a whole record that fits and arrives in time: its bytes are appended
and the loop goes on with the next. -/
theorem recordLoop_record {r : Instr} (hr : isQueueRecord r = true) {s : State}
    (h : ArrivesInTime 0 (encode true r) s) (hfit : (encode true r).length ≤ s.i.rem.toNat)
    (fuel : Nat) :
    ∃ t, recordLoop (fuel + 1) s = recordLoop fuel t ∧
      Reads (2 * (encode true r).length) (encode true r) s t ∧ IngestFrame s t ∧
      t.q = Queue.appendAll s.cfg.cap (encode true r) s.q ∧
      t.i.rem.toNat = s.i.rem.toNat - (encode true r).length ∧
      some t.i.op = (encode true r).head? ∧ t.i.n = recLen t.i.op := by
  obtain ⟨op, args, he, h0, hlen⟩ := recLen_encode hr
  rw [he] at h hfit ⊢
  obtain ⟨rest, hx⟩ := arrivesInTime_head h
  obtain ⟨v, a1, a2, a3, a4, a5⟩ := recordLoop_opcode hx h0 (by simp at hfit; omega) fuel
  obtain ⟨u, k1, k2, k3, k4, k5⟩ := appendOperands_all args
    (arrivesInTime_after (before := 0) (after := 0) (bs := [op]) h a2.1)
  refine ⟨u.recordDone, ?_, ?_, a3.trans k3, ?_, ?_, ?_, ?_⟩
  · rw [a1, show (recLen op).toNat - 1 = args.length by omega, k1]
  · have := a2.trans k2
    rw [show 2 + 2 * args.length = 2 * (op :: args).length by simp; omega] at this
    exact this
  · change u.q = _
    rw [k4, a4, a3.1, ← appendAll_append]; rfl
  · change (u.i.rem - u.i.n.setWidth 8).toNat = _
    have hw : ((recLen op).setWidth 8).toNat = (op :: args).length := by
      rw [BitVec.toNat_setWidth, hlen, Nat.mod_eq_of_lt, List.length_cons]
      have := (recLen op).isLt; omega
    rw [k5, a5, BitVec.toNat_sub_of_le, hw]
    rw [BitVec.le_def, hw]; exact hfit
  · change some u.i.op = _
    rw [k5, a5]; rfl
  · change u.i.n = recLen u.i.op
    rw [k5, a5]

/-- Several rounds. -/
theorem recordLoop_records (rs : List Instr) (hrs : ∀ r ∈ rs, isQueueRecord r = true) {s : State}
    (h : ArrivesInTime 0 (encodeRecords rs) s)
    (hfit : (encodeRecords rs).length ≤ s.i.rem.toNat) (fuel : Nat) :
    ∃ t, recordLoop (fuel + rs.length) s = recordLoop fuel t ∧
      Reads (2 * (encodeRecords rs).length) (encodeRecords rs) s t ∧ IngestFrame s t ∧
      t.q = Queue.appendAll s.cfg.cap (encodeRecords rs) s.q ∧
      t.i.rem.toNat = s.i.rem.toNat - (encodeRecords rs).length ∧ (rs = [] → t.i = s.i) ∧
      LastRecordIs rs s t := by
  induction rs generalizing s with
  | nil =>
    exact ⟨s, rfl, (Passes.refl s).reads, IngestFrame.refl s, rfl, by simp [encodeRecords],
      fun _ => rfl, fun _ => ⟨rfl, rfl⟩, by simp⟩
  | cons r rs ih =>
    have hcons : encodeRecords (r :: rs) = encode true r ++ encodeRecords rs := by
      simp [encodeRecords]
    rw [hcons] at h hfit ⊢
    rw [List.length_append] at hfit
    obtain ⟨t, h1, h2, h3, h4, h5, h6, h7⟩ := recordLoop_record (hrs r (by simp))
      (arrivesInTime_append h) (by omega) (fuel + rs.length)
    obtain ⟨u, k1, k2, k3, k4, k5, k6, k7⟩ := ih (fun r hr => hrs r (by simp [hr]))
      (arrivesInTime_after (before := 0) (after := 0) h (by simpa using h2.1)) (by omega)
    refine ⟨u, ?_, ?_, h3.trans k3, ?_, ?_, by simp, by simp, ?_⟩
    · rw [List.length_cons, ← Nat.add_assoc, h1, k1]
    · rw [List.length_append, Nat.mul_add]; exact h2.trans k2
    · rw [k4, h4, h3.1, appendAll_append]
    · rw [k5, h5, List.length_append]; omega
    · intro x hx
      cases rs with
      | nil =>
        simp only [List.getLast?_singleton, Option.some.injEq] at hx
        subst hx
        rw [k6 rfl]
        exact ⟨h6.symm, h7⟩
      | cons y ys => exact k7.2 x (by simpa using hx)

/-- Within the free capacity: the write index advances by the number of bytes, and no other cell
changes. -/
theorem appendAll_frame {cap : Nat} (bs : List Byte) {q : Queue} (hw : q.wr < cap)
    (hc : q.count + bs.length ≤ cap) :
    (Queue.appendAll cap bs q).wr = (q.wr + bs.length) % cap ∧
      ∀ a, (∀ j, j < bs.length → a ≠ (q.wr + j) % cap) →
        Memory.read (Queue.appendAll cap bs q).buf a = Memory.read q.buf a := by
  induction bs generalizing q with
  | nil => exact ⟨(Nat.mod_eq_of_lt hw).symm, fun _ _ => rfl⟩
  | cons b bs ih =>
    have hlt : q.count < cap := by simp at hc; omega
    have hq : q.append cap b = { q with
        count := q.count + 1, buf := Memory.write q.buf q.wr b, wr := (q.wr + 1) % cap } := by
      simp [Queue.append, hlt]
    have := ih (q := q.append cap b) (by rw [hq]; exact Nat.mod_lt _ (by omega))
      (by rw [hq]; simp at hc ⊢; omega)
    change (Queue.appendAll cap bs (q.append cap b)).wr = _ ∧
      ∀ a, _ → Memory.read (Queue.appendAll cap bs (q.append cap b)).buf a = _
    have hwr : (q.append cap b).wr = (q.wr + 1) % cap := by rw [hq]
    refine ⟨?_, fun a ha => ?_⟩
    · rw [this.1, hwr, Nat.mod_add_mod, List.length_cons]; congr 1; omega
    · rw [this.2 a, hq]
      · have h0 := ha 0 (by simp)
        rw [Nat.add_zero, Nat.mod_eq_of_lt hw] at h0
        exact Memory.read_write_other _ _ h0
      · intro j hj
        rw [hwr, Nat.mod_add_mod]
        have := ha (j + 1) (by simp; omega)
        rwa [show q.wr + 1 + j = q.wr + (j + 1) by omega]

/-- Every record has at least one byte. -/
theorem length_le_encodeRecords (rs : List Instr) (h : ∀ r ∈ rs, isQueueRecord r = true) :
    rs.length ≤ (encodeRecords rs).length := by
  induction rs with
  | nil => simp
  | cons r rs ih =>
    have := ih (fun x hx => h x (by simp [hx]))
    obtain ⟨op, args, he, _⟩ := recLen_encode (h r (by simp))
    simp [encodeRecords, he] at *; omega

/-- `RxByte()` with no byte there, and none coming in the next slot. -/
theorem rxByte_empty {s : State} (h1 : s.rx = []) (h2 : hostBytes (s.env.sched.take 1) = []) :
    rxByte s = (none, interleave s) := by
  have : (interleave s).rx = [] := by rw [interleave_rx, h1, h2]; rfl
  simp [rxByte, this]

/-- An opcode and as many bytes as its length asks for are a record. -/
theorem record_of_bytes {op : Byte} {args : List Byte} (h0 : recLen op ≠ 0#2)
    (h : args.length + 1 = (recLen op).toNat) :
    ∃ r, isQueueRecord r = true ∧ encode true r = op :: args := by
  unfold recLen at h h0
  split at h
  · rename_i e
    match args, h with
    | [lo, hi], _ => exact ⟨.dSleep (wordOfBytes lo hi), rfl, by simp [encode, bytesOfWord, e]⟩
  · split at h
    · rename_i e
      match args, h with
      | [a, v], _ => exact ⟨.dWrite a v, rfl, by simp [encode, e]⟩
    · split at h
      · rename_i e
        match args, h with
        | [], _ => exact ⟨.dClose, rfl, by simp [encode, e]⟩
      · simp_all

/-- The operand bytes of a record, however many of them have come: they are taken from `RX` and
appended; if some are missing the main context waits in `P_WARG` for those. -/
theorem appendOperands_cases (k : Nat) (s : State) :
    ∃ n bs u, Takes n bs s u ∧ (LineFree s → LineFree u) ∧
      (InterruptIdle s.t → InterruptIdle u.t) ∧ IngestFrame s u ∧
      u.q = Queue.appendAll s.cfg.cap bs s.q ∧ u.i = s.i ∧
      (bs.length = k ∧ appendOperands k s = (u, true) ∨
        ∃ m, bs.length + (m + 1) = k ∧ u.rx = [] ∧
          appendOperands k s = (u.setPhase (.warg (m + 1)), false)) := by
  induction k generalizing s with
  | zero =>
    have := Passes.refl s
    exact ⟨0, [], s, this.takes, id, id, IngestFrame.refl s, rfl, rfl, .inl ⟨rfl, rfl⟩⟩
  | succ k ih =>
    have hp := interleave_passes s
    rcases rxByte_cases s with ⟨h1, h2⟩ | ⟨b, rest, h1, h2⟩
    · exact ⟨1, [], interleave s, hp.takes, hp.2.2.1, hp.2.2.2, by simp [IngestFrame],
        by simp [Queue.appendAll], by simp, .inr ⟨k, by simp, h1, by simp [appendOperands, h2]⟩⟩
    · set t := (interleave s).setRx rest with ht
      obtain ⟨ha, hq⟩ := qAppend_spec b t
      obtain ⟨n, bs, u, e1, e2, e3, e4, e5, e6, e7⟩ := ih (qAppend b t)
      have hE : Takes 2 [b] s (qAppend b t) :=
        takes_trans (m := 1) (n := 1) (t := t) (rxByte_takes h1) hq.takes hp.2.2.2
      have hI : InterruptIdle s.t → InterruptIdle (qAppend b t).t :=
        fun h => hq.2.2.2 (hp.2.2.2 h)
      have hL : LineFree s → LineFree (qAppend b t) := fun h => hq.2.2.1 (hp.2.2.1 h)
      refine ⟨2 + n, b :: bs, u, takes_trans hE e1 hI, fun h => e2 (hL h), fun h => e3 (hI h),
        IngestFrame.trans (by rw [ha, ht]; simp [IngestFrame]) e4, ?_, ?_, ?_⟩
      · rw [e5, ha, ht]; simp [Queue.appendAll]
      · rw [e6, ha, ht]; simp
      · rcases e7 with ⟨g1, g2⟩ | ⟨m, g1, g2, g3⟩
        · exact .inl ⟨by simp [g1], by simp only [appendOperands, h2]; exact g2⟩
        · exact .inr ⟨m, by simp; omega, g2, by simp only [appendOperands, h2]; exact g3⟩

/-- Everything the record loop can do: it appends whole records, and then it sends `E.OK` because all
of the payload was read, or `E.INVALID` over a byte `bad` that it took and did not append, or it waits
at the start of a record, or inside one of which `op :: args` has been appended too. What it takes from
`RX` is what it appends, and `bad`. -/
theorem recordLoop_cases (fuel : Nat) (s : State) :
    ∃ n rs part bad u, (∀ r ∈ rs, isQueueRecord r = true) ∧
      Takes n (encodeRecords rs ++ part ++ bad) s u ∧
      (LineFree s → LineFree u) ∧ (InterruptIdle s.t → InterruptIdle u.t) ∧ IngestFrame s u ∧
      u.q = Queue.appendAll s.cfg.cap (encodeRecords rs ++ part) s.q ∧
      (encodeRecords rs).length ≤ s.i.rem.toNat ∧
      u.i.rem.toNat = s.i.rem.toNat - (encodeRecords rs).length ∧
      (part = [] ∧ bad = [] ∧ u.i.rem = 0#8 ∧ recordLoop fuel s = sendReply [Config.statusOk] u ∨
        part = [] ∧ bad = [u.i.op] ∧ recordLoop fuel s = sendReply [Config.statusInvalid] u ∨
        part = [] ∧ bad = [] ∧ recordLoop fuel s = u.setPhase .wop ∧
          (s.i.rem.toNat < fuel → u.rx = [] ∧ u.i.rem ≠ 0#8) ∨
        ∃ op args k, part = op :: args ∧ bad = [] ∧ recLen op ≠ 0#2 ∧
          args.length + 1 + (k + 1) = (recLen op).toNat ∧ u.i.n = recLen op ∧
          (recLen op).toNat ≤ u.i.rem.toNat ∧ u.rx = [] ∧
          recordLoop fuel s = u.setPhase (.warg (k + 1))) := by
  induction fuel generalizing s with
  | zero =>
    exact ⟨0, [], [], [], s, by simp, (Passes.refl s).takes, id, id, IngestFrame.refl s,
      by simp [encodeRecords, Queue.appendAll], by simp [encodeRecords], by simp [encodeRecords],
      .inr (.inr (.inl ⟨rfl, rfl, rfl, fun h => absurd h (Nat.not_lt_zero _)⟩))⟩
  | succ fuel ih =>
    by_cases hz : s.i.rem = 0#8
    · exact ⟨0, [], [], [], s, by simp, (Passes.refl s).takes, id, id, IngestFrame.refl s,
        by simp [encodeRecords, Queue.appendAll], by simp [encodeRecords], by simp [encodeRecords],
        .inl ⟨rfl, rfl, hz, by simp [recordLoop, hz]⟩⟩
    have hp := interleave_passes s
    rcases rxByte_cases s with ⟨h1, h2⟩ | ⟨op, rest, h1, h2⟩
    · exact ⟨1, [], [], [], interleave s, by simp, hp.takes, hp.2.2.1, hp.2.2.2, by simp [IngestFrame],
        by simp [encodeRecords, Queue.appendAll], by simp [encodeRecords], by simp [encodeRecords],
        .inr (.inr (.inl ⟨rfl, rfl, by simp [recordLoop, hz, h2], fun _ => ⟨h1, by simpa using hz⟩⟩))⟩
    set t1 := ((interleave s).setRx rest).setI { s.i with op := op, n := recLen op } with ht1
    have hI1 : t1.i.rem = s.i.rem := rfl
    by_cases hbad : recLen op = 0#2 ∨ s.i.rem < (recLen op).setWidth 8
    · exact ⟨1, [], [], [op], t1, by simp, rxByte_takes h1, hp.2.2.1, hp.2.2.2, by simp [IngestFrame, ht1],
        by simp [encodeRecords, Queue.appendAll, ht1], by simp [encodeRecords],
        by simp [encodeRecords, hI1],
        .inr (.inl ⟨rfl, rfl, by simp [recordLoop, hz, h2, hbad, raiseError, ht1]⟩)⟩
    have hw : ((recLen op).setWidth 8).toNat = (recLen op).toNat := by
      rw [BitVec.toNat_setWidth, Nat.mod_eq_of_lt]
      have := (recLen op).isLt; omega
    rw [not_or, BitVec.not_lt, BitVec.le_def, hw] at hbad
    obtain ⟨h0, hfit⟩ := hbad
    have hpos : (recLen op).toNat ≠ 0 := fun h => h0 (BitVec.eq_of_toNat_eq (by simpa using h))
    obtain ⟨t, a1, a2, a3, a4, a5⟩ := recordLoop_opcode h1 h0 hfit fuel
    obtain ⟨m, bs, v, e1, e2, e3, e4, e5, e6, e7⟩ :=
      appendOperands_cases ((recLen op).toNat - 1) t
    have hv : Reads (2 + m) (op :: bs) s v := a2.trans ⟨e1, e2, e3⟩
    have hF := a3.trans e4
    have hvi : v.i = { s.i with op := op, n := recLen op } := e6.trans a5
    have hvq : v.q = Queue.appendAll s.cfg.cap (op :: bs) s.q := by
      rw [e5, a4, a3.1, ← appendAll_append]; rfl
    rcases e7 with ⟨g1, g2⟩ | ⟨k, g1, g2, g3⟩
    · rw [g2] at a1
      have hrem : v.recordDone.i.rem.toNat = s.i.rem.toNat - (recLen op).toNat := by
        change (v.i.rem - v.i.n.setWidth 8).toNat = _
        rw [hvi, BitVec.toNat_sub_of_le, hw]
        rw [BitVec.le_def, hw]; exact hfit
      obtain ⟨r, hr1, hr2⟩ := record_of_bytes (args := bs) h0 (by omega)
      obtain ⟨n, rs, part, bad, u, f1, f2, f3, f4, f5, f6, f7, f8, f9⟩ := ih v.recordDone
      have hu : Reads (2 + m + n) (op :: bs ++ (encodeRecords rs ++ part ++ bad)) s u :=
        hv.trans (t := v) ⟨f2, f3, f4⟩
      have hlen : (encode true r).length = (recLen op).toNat := by rw [hr2]; simp; omega
      have hcons : encodeRecords (r :: rs) = op :: bs ++ encodeRecords rs := by
        rw [← hr2]; simp [encodeRecords]
      have hclen : (encodeRecords (r :: rs)).length =
          (recLen op).toNat + (encodeRecords rs).length := by
        rw [hcons, List.length_append, ← hr2, hlen]
      refine ⟨2 + m + n, r :: rs, part, bad, u, ?_, ?_, hu.2.1, hu.2.2, hF.trans f5, ?_,
        by omega, by omega, ?_⟩
      · exact List.forall_mem_cons.2 ⟨hr1, f1⟩
      · rw [hcons, List.append_assoc, List.append_assoc, ← List.append_assoc (encodeRecords rs)]
        exact hu.1
      · rw [f6, hcons, List.append_assoc, appendAll_append _ (op :: bs), ← hvq]
        rw [show v.recordDone.cfg = s.cfg from hF.1]; rfl
      · rw [a1]
        rcases f9 with h | h | ⟨k1, k0, k2, k3⟩ | h
        · exact .inl h
        · exact .inr (.inl h)
        · exact .inr (.inr (.inl ⟨k1, k0, k2, fun hf => k3 (by omega)⟩))
        · exact .inr (.inr (.inr h))
    · rw [g3] at a1
      refine ⟨2 + m, [], op :: bs, [], v, by simp, by simpa [encodeRecords] using hv.1, hv.2.1,
        hv.2.2, hF, by simpa [encodeRecords] using hvq, by simp [encodeRecords],
        by simp [hvi, encodeRecords], ?_⟩
      exact .inr (.inr (.inr ⟨op, bs, k, rfl, rfl, h0, by omega, by rw [hvi],
        by rw [hvi]; exact hfit, g2, a1⟩))

end Sys2Proof.Laws
end

