-- ==== Sys2Proof/Laws/PerInstr.lean ====
section
/-! SUPPORT. One family of statements made instruction by instruction. -/

namespace Sys2Proof.Laws.EncodedLength

/-- The length in bytes the table gives the row, without the payload of a C.WRITE (R71). -/
def rowLength : Instr → Nat
  | .cReset _ => 2
  | .cWrite _ => 2
  | .cQuery _ => 2
  | .cOther _ _ => 2
  | .dSleep _ => 3
  | .dWrite _ _ => 3
  | .dClose => 1
  | .dOther _ => 1
  | .eOk => 1
  | .eOkQ _ _ => 5
  | .eInvalid => 1
  | .eOverflow => 1

/-- The encoding has the row's length. -/
def Statement (i : Instr) : Prop := (encode true i).length = rowLength i

theorem cReset (len : Byte) : Statement (.cReset len) := rfl
theorem cWrite (len : Byte) : Statement (.cWrite len) := rfl
theorem cQuery (len : Byte) : Statement (.cQuery len) := rfl
theorem cOther (code len : Byte) : Statement (.cOther code len) := rfl
theorem dSleep (duration : Word) : Statement (.dSleep duration) := rfl
theorem dWrite (register value : Byte) : Statement (.dWrite register value) := rfl
theorem dClose : Statement .dClose := rfl
theorem dOther (d : Byte) : Statement (.dOther d) := rfl
theorem eOk : Statement .eOk := rfl
theorem eOkQ (capacity occupancy : Word) : Statement (.eOkQ capacity occupancy) := rfl
theorem eInvalid : Statement .eInvalid := rfl
theorem eOverflow : Statement .eOverflow := rfl

end Sys2Proof.Laws.EncodedLength
end

