-- ==== Sys2Proof/Laws/Time.lean ====
section
/-! SUPPORT. TICKs in a row (R90, R93), and what SETCD leaves in every schedule (R91, R170). -/

namespace Sys2Proof.Laws

open Sys2Proof.Machine Sys2Proof.Safety

theorem onTick_cd (t : TimeBase) : t.onTick.cd.toNat = t.cd.toNat - 1 := by
  unfold TimeBase.onTick
  by_cases h : t.cd = 0#16
  · simp [h]
  · have : t.cd.toNat ≠ 0 := fun h0 => h (BitVec.eq_of_toNat_eq (by simpa using h0))
    simp only [h, if_false]
    bv_omega

/-- `n` TICKs lower the countdown by `n` and stop at 0. -/
theorem iterate_onTick_cd (n : Nat) (t : TimeBase) :
    (TimeBase.onTick^[n] t).cd.toNat = t.cd.toNat - n := by
  induction n generalizing t with
  | zero => rfl
  | succ n ih => rw [Function.iterate_succ_apply, ih, onTick_cd]; omega

/-- `n` TICKs advance the tick counter by `n`, modulo 65536. -/
theorem iterate_onTick_tick (n : Nat) (t : TimeBase) :
    (TimeBase.onTick^[n] t).tick = t.tick + BitVec.ofNat 16 n := by
  induction n generalizing t with
  | zero => simp
  | succ n ih =>
    rw [Function.iterate_succ_apply, ih, onTick_tick, BitVec.add_assoc, ← BitVec.ofNat_add,
      Nat.add_comm]

/-- What SETCD leaves of the Time Base `t`, with `due` saying whether a period ended while it held the
interrupt off: the store, and then at most that one TICK. -/
def stored (n : Word) (due : Bool) (t : TimeBase) : TimeBase :=
  if due then ({ t with cd := n } : TimeBase).onTick else { t with cd := n }

/-- SETCD (R91, R170): the first slot before it is ordinary time; a period that ends in the second is
served right after the store. -/
theorem setCountdown_spec (n : Word) {s : State} (h : InterruptIdle s.t) :
    (setCountdown n s).t = stored n (((s.env.sched.drop 1).headD []).contains .timer)
        (TimeBase.onTick^[timerCount (s.env.sched.take 1)] s.t) ∧
      (setCountdown n s).env.sched = s.env.sched.drop 2 ∧
      (setCountdown n s).rx = s.rx ++ hostBytes (s.env.sched.take 2) ∧
      (LineFree s → LineFree (setCountdown n s)) ∧ InterruptIdle (setCountdown n s).t ∧
      (setCountdown n s).cfg = s.cfg ∧ (setCountdown n s).q = s.q ∧
      (setCountdown n s).dev = s.dev ∧ (setCountdown n s).status = s.status ∧
      (setCountdown n s).i = s.i ∧ (setCountdown n s).k = s.k ∧
      (setCountdown n s).phase = s.phase ∧ (setCountdown n s).tx = s.tx ∧
      (setCountdown n s).free = s.free := by
  set s1 := micro (fun s => s.setT s.t.holdOff) s with hs1
  have e : setCountdown n s = (interleave s1).setT ((interleave s1).t.storeAndRelease n) := rfl
  have hidle := interleave_idle h
  have ht1 : s1.t = (interleave s).t.holdOff := rfl
  have hsch : s1.env.sched = s.env.sched.drop 1 := interleave_sched s
  have hrx : s1.rx = s.rx ++ hostBytes (s.env.sched.take 1) := interleave_rx s
  have hheld : (interleave s1).t.tick = s1.t.tick ∧ (interleave s1).t.irqPend =
      ((s.env.sched.drop 1).headD []).contains .timer := by
    unfold interleave
    rw [hsch]
    cases hd : s.env.sched.drop 1 with
    | nil => exact ⟨rfl, by rw [ht1]; simpa [TimeBase.holdOff] using hidle.2⟩
    | cons es rest =>
      have := heldOff_time es (s1.setEnv { s1.env with sched := rest })
        (by simp [ht1, TimeBase.holdOff])
      refine ⟨this.1, ?_⟩
      rw [this.2.2]
      simp only [State.setEnv_t, ht1, TimeBase.holdOff, hidle.2, Bool.false_or, List.headD_cons]
  have htime : (setCountdown n s).t =
      stored n (((s.env.sched.drop 1).headD []).contains .timer) (interleave s).t := by
    rw [e, State.setT_t, ← hheld.2]
    have h1 := hheld.1
    rw [ht1] at h1
    obtain ⟨hi1, hi2⟩ := hidle
    cases hp : (interleave s1).t.irqPend <;>
      simp_all [TimeBase.storeAndRelease, TimeBase.serve, stored, TimeBase.onTick,
        TimeBase.holdOff]
  refine ⟨by rw [htime, interleave_time s h], ?_, ?_, ?_, ?_, ?_⟩
  · rw [e]; simp only [State.setT_env, interleave_sched, hsch, List.drop_drop]
  · rw [e]
    simp only [State.setT_rx, interleave_rx, hrx, hsch, List.append_assoc]
    rw [← hostBytes_append, ← take_add_drop]
  · intro hl
    have : LineFree s1 := interleave_lineFree hl
    exact interleave_lineFree this
  · rw [htime]
    unfold stored
    split <;> exact hidle
  · rw [e]; simp [hs1, micro]

/-- Where at most one period ends in a slot, `stored` counts the periods of the second slot. -/
theorem stored_eq (n : Word) (t : TimeBase) {s : State} (h : OnePeriodAtATime s) (k : Nat) :
    stored n (((s.env.sched.drop k).headD []).contains .timer) t =
      TimeBase.onTick^[timerCount ((s.env.sched.drop k).take 1)] { t with cd := n } := by
  cases hd : s.env.sched.drop k with
  | nil => rfl
  | cons es rest =>
    have hm := h es (List.mem_of_mem_drop (by rw [hd]; simp))
    simp only [List.take_succ_cons, List.take_zero, timerCount, List.flatten_cons, List.flatten_nil,
      List.append_nil, List.headD_cons]
    cases hc : es.contains EnvEvent.timer with
    | true =>
      have : 0 < es.countP (· == .timer) :=
        List.countP_pos_iff.2 ⟨.timer, by simpa using hc, by simp⟩
      rw [show es.countP (· == .timer) = 1 by omega]; rfl
    | false =>
      have : es.countP (· == .timer) = 0 := by
        rw [List.countP_eq_zero]
        intro x hx hxe
        rw [beq_iff_eq] at hxe; subst hxe
        simp_all
      rw [this]; rfl

/-! ## A strictly periodic timer (R93) -/

/-- More than `k` periods have ended once the first of them and `k` others have. -/
theorem lt_periodsBy {time : Config.Timing} {first : Nat} (hT : 0 < time.tTick) (k x : Nat) :
    k < periodsBy time first x ↔ first + k * time.tTick ≤ x := by
  unfold periodsBy
  split
  · omega
  · rw [Nat.lt_succ_iff, Nat.le_div_iff_mul_le hT]; omega

/-- `k` periods more end in `k · T_TICK` more. -/
theorem periodsBy_add {time : Config.Timing} {first : Nat} (hT : 0 < time.tTick) {x : Nat}
    (h : first ≤ x) (k : Nat) :
    periodsBy time first (x + k * time.tTick) = periodsBy time first x + k := by
  unfold periodsBy
  rw [if_neg (by omega), if_neg (by omega),
    show x + k * time.tTick - first = x - first + k * time.tTick by omega,
    Nat.add_mul_div_right _ _ hT]
  omega

end Sys2Proof.Laws
end

