-- ==== Sys2Proof/Laws/Step.lean ====
section
/-! SUPPORT. What a step can do, said once: every rule about all steps follows from `step_cases` and the
lemmas on what each operation leaves alone. -/

namespace Sys2Proof.Laws

open Sys2Proof.Machine Sys2Proof.Safety

/-- Reading a header leaves alone everything but `RX`, `I`, the phase, the Time Base and the
environment. -/
def FetchFrame (s t : State) : Prop :=
  t.cfg = s.cfg ∧ t.q = s.q ∧ t.dev = s.dev ∧ t.status = s.status ∧ t.k = s.k ∧ t.tx = s.tx ∧
    t.free = s.free

theorem FetchFrame.refl (s : State) : FetchFrame s s := ⟨rfl, rfl, rfl, rfl, rfl, rfl, rfl⟩

theorem FetchFrame.trans {s t u : State} (h1 : FetchFrame s t) (h2 : FetchFrame t u) :
    FetchFrame s u := by
  obtain ⟨a1, a2, a3, a4, a5, a6, a7⟩ := h1
  obtain ⟨b1, b2, b3, b4, b5, b6, b7⟩ := h2
  exact ⟨b1.trans a1, b2.trans a2, b3.trans a3, b4.trans a4, b5.trans a5, b6.trans a6, b7.trans a7⟩

theorem interleave_fetchFrame (s : State) : FetchFrame s (interleave s) := by simp [FetchFrame]

/-- The Time Base saw TICKs and nothing else. -/
def OnlyTicks (s t : State) : Prop :=
  ∃ n, Elapsed n s t ∧ (InterruptIdle s.t → InterruptIdle t.t)

theorem Passes.onlyTicks {n : Nat} {s t : State} (h : Passes n s t) : OnlyTicks s t :=
  ⟨n, h.1, h.2.2.2⟩

theorem OnlyTicks.refl (s : State) : OnlyTicks s s := (Passes.refl s).onlyTicks

theorem OnlyTicks.trans {s t u : State} (h1 : OnlyTicks s t) (h2 : OnlyTicks t u) :
    OnlyTicks s u := by
  obtain ⟨n, a, b⟩ := h1
  obtain ⟨m, c, d⟩ := h2
  exact ⟨n + m, elapsed_trans a c b, fun h => d (b h)⟩

theorem interleave_onlyTicks (s : State) : OnlyTicks s (interleave s) :=
  (interleave_passes s).onlyTicks

/-- A step of Command Ingestion has taken the header's bytes, or as many as there were, from `RX`. -/
def HeaderTaken (s t : State) : Prop :=
  ∃ n header, Takes n header s t ∧ header <+: headerBytes s t ∧
    (InterruptIdle s.t → InterruptIdle t.t) ∧ (LineFree s → LineFree t)

theorem HeaderTaken.onlyTicks {s t : State} (h : HeaderTaken s t) : OnlyTicks s t := by
  obtain ⟨n, header, h1, -, h3, -⟩ := h
  exact ⟨n, h1.1, h3⟩

/-- Time that passes takes no byte. -/
theorem Passes.headerTaken {n : Nat} {s t : State} (h : Passes n s t) : HeaderTaken s t :=
  ⟨n, [], h.takes, List.nil_prefix, h.2.2.2, h.2.2.1⟩

theorem HeaderTaken.interleave {s u : State} (h : HeaderTaken s u) :
    HeaderTaken s (interleave u) := by
  obtain ⟨n, header, h1, h2, h3, h4⟩ := h
  refine ⟨n + 1, header ++ [], takes_trans h1 (interleave_passes u).takes h3, ?_,
    fun hi => interleave_idle (h3 hi), fun hl => interleave_lineFree (h4 hl)⟩
  simpa [headerBytes] using h2

/-! ## What each operation leaves alone -/

theorem qClear_frame (s : State) : (qClear s).q = s.q.clear ∧ (qClear s).cfg = s.cfg ∧
    (qClear s).dev = s.dev ∧ (qClear s).tx = s.tx ∧ (qClear s).k = s.k ∧ (qClear s).free = s.free ∧
    (qClear s).status = s.status ∧ OnlyTicks s (qClear s) := by
  obtain ⟨a, b⟩ := qClear_spec s
  refine ⟨?_, ?_, ?_, ?_, ?_, ?_, ?_, b.onlyTicks⟩ <;> rw [a] <;> simp

theorem qRemoveInto_frame (put : ConsumeRegs → ConsumeRegs) (s : State) :
    (qRemoveInto put s).q = s.q.advance s.cfg.cap ∧ (qRemoveInto put s).cfg = s.cfg ∧
      (qRemoveInto put s).dev = s.dev ∧ (qRemoveInto put s).tx = s.tx ∧
      (qRemoveInto put s).status = s.status ∧ OnlyTicks s (qRemoveInto put s) := by
  obtain ⟨a, b⟩ := qRemoveInto_spec put s
  refine ⟨?_, ?_, ?_, ?_, ?_, b.onlyTicks⟩ <;> rw [a] <;> simp [State.dropFront]

theorem removeOperands_frame (d b0 b1 : Byte) (s : State) :
    (removeOperands b0 b1 (removeDiscriminator d s)).q =
        ((s.q.advance s.cfg.cap).advance s.cfg.cap).advance s.cfg.cap ∧
      (removeOperands b0 b1 (removeDiscriminator d s)).cfg = s.cfg ∧
      (removeOperands b0 b1 (removeDiscriminator d s)).dev = s.dev ∧
      (removeOperands b0 b1 (removeDiscriminator d s)).tx = s.tx ∧
      (removeOperands b0 b1 (removeDiscriminator d s)).status = s.status ∧
      OnlyTicks s (removeOperands b0 b1 (removeDiscriminator d s)) := by
  unfold removeOperands removeDiscriminator
  refine ⟨by simp [qRemoveInto_frame], by simp [qRemoveInto_frame], by simp [qRemoveInto_frame],
    by simp [qRemoveInto_frame], by simp [qRemoveInto_frame], ?_⟩
  exact ((qRemoveInto_frame _ s).2.2.2.2.2.trans (qRemoveInto_frame _ _).2.2.2.2.2).trans
    (qRemoveInto_frame _ _).2.2.2.2.2

theorem setCountdown_frame (n : Word) (s : State) : (setCountdown n s).q = s.q ∧
    (setCountdown n s).cfg = s.cfg ∧ (setCountdown n s).dev = s.dev ∧
    (setCountdown n s).tx = s.tx ∧ (setCountdown n s).free = s.free ∧
    (setCountdown n s).status = s.status := by
  simp [setCountdown, micro]

theorem chipReset_frame (s : State) : (chipReset s).cfg = s.cfg ∧ (chipReset s).q = s.q ∧
    (chipReset s).k = s.k ∧ (chipReset s).tx = s.tx ∧ (chipReset s).free = s.free ∧
    (chipReset s).status = s.status ∧ OnlyTicks s (chipReset s) := by
  obtain ⟨⟨a1, a2, a3, a4, a5, a6, a7, a8⟩, b, c⟩ := chipReset_spec s
  exact ⟨a1, a2, a5, a7, a8, a3, b.onlyTicks⟩

theorem devWrite_frame (a v : Byte) (s : State) : (devWrite a v s).cfg = s.cfg ∧
    (devWrite a v s).q = s.q ∧ (devWrite a v s).k = s.k ∧ (devWrite a v s).tx = s.tx ∧
    (devWrite a v s).free = s.free ∧ (devWrite a v s).status = s.status ∧
    OnlyTicks s (devWrite a v s) := by
  obtain ⟨⟨a1, a2, a3, a4, a5, a6, a7, a8⟩, b, c⟩ := devWrite_spec a v s
  exact ⟨a1, a2, a5, a7, a8, a3, b.onlyTicks⟩

theorem statusUpdate_frame (s : State) : (statusUpdate s).cfg = s.cfg ∧ (statusUpdate s).q = s.q ∧
    (statusUpdate s).dev = s.dev ∧ (statusUpdate s).k = s.k ∧ (statusUpdate s).tx = s.tx ∧
    (statusUpdate s).free = s.free ∧ OnlyTicks s (statusUpdate s) := by
  obtain ⟨a, b⟩ := statusUpdate_spec s
  refine ⟨?_, ?_, ?_, ?_, ?_, ?_, b.onlyTicks⟩ <;> rw [a] <;> simp

theorem sendReply_frame (bs : List Byte) (s : State) : (sendReply bs s).cfg = s.cfg ∧
    (sendReply bs s).q = s.q ∧ (sendReply bs s).dev = s.dev ∧
    (sendReply bs s).status = s.status ∧ (sendReply bs s).k = s.k ∧
    (sendReply bs s).free = s.free ∧ s.tx <+: (sendReply bs s).tx ∧
    OnlyTicks s (sendReply bs s) ∧
    ((sendReply bs s).phase = .consume ∨ ∃ p, (sendReply bs s).phase = .reply p) := by
  obtain ⟨sent, pending, n, h1, h2, h3, h4, h5, g1, g2, g3, g4, g5, g6, g7⟩ := sendReply_spec bs s
  exact ⟨g1, g2, g3, g4, g6, g7, by rw [h3]; exact List.prefix_append _ _, h2.onlyTicks,
    by rw [h4]; by_cases h : pending = [] <;> simp [h]⟩

/-! ## What a step can do -/

/-- The four ways a record can run. -/
inductive RecordCase (s t : State) : Prop
  | sleep (d : Word) (e : t = (setCountdown d (removeOperands (lowByte d) (highByte d)
      (removeDiscriminator Config.opSleep s))).setPhase .status)
  | write (a v : Byte) (e : t = (devWrite a v (removeOperands a v
      (removeDiscriminator Config.opWrite s))).setPhase .status)
  | close (e : t =
      (chipReset (qClear (removeDiscriminator Config.opClose s))).setPhase .status)
  | other (d : Byte) (e : t = (removeDiscriminator d s).setPhase .status)

theorem exec_decodeInner_cases {d b0 b1 : Byte} {s t : State}
    (he : exec (decodeInner d b0 b1) s = .next t) : RecordCase s t := by
  unfold decodeInner at he
  split at he
  · cases he; exact .sleep _ rfl
  · split at he
    · cases he; exact .write _ _ rfl
    · split at he
      · cases he; exact .close rfl
      · cases he; exact .other _ rfl

/-- A step in `P_REPLY` sends the pending bytes, whether or not they are a whole reply. -/
theorem resumeReply_eq (pending : List Byte) (s : State) :
    resumeReply pending s = .next (sendReply pending s) := by
  unfold resumeReply
  split
  · rename_i i hd
    unfold decodeReply at hd
    split at hd
    · simp only [decodeStatus] at hd
      split at hd
      · rename_i h; simp [Except.toOption] at hd; subst hd h; rfl
      · split at hd
        · rename_i h; simp [Except.toOption] at hd; subst hd h; rfl
        · split at hd
          · rename_i h; simp [Except.toOption] at hd; subst hd h; rfl
          · simp [Except.toOption] at hd
    · simp only [decodeQueryReply] at hd
      split at hd
      · rename_i h
        simp [Except.toOption] at hd
        subst hd h
        simp only [exec, execEOkQ, bytesOfWord, lowByte_wordOfBytes, highByte_wordOfBytes]
        rfl
      · simp [Except.toOption] at hd
    · simp at hd
  · rfl

/-- The ways a step can go, by what the main context was doing. -/
inductive StepCase (s t : State) : Prop
  | boot (h : s.phase = .boot) (e : t = boot s)
  | idle (h : s.phase = .poll ∨ s.phase = .cmd ∨ s.phase = .len) (f : FetchFrame s t)
      (ht : HeaderTaken s t) (h2 : t.phase = .consume ∨ t.phase = .cmd ∨ t.phase = .len)
  | reset (u : State) (h : s.phase = .cmd ∨ s.phase = .len) (f : FetchFrame s u)
      (ht : HeaderTaken s u) (hc : u.i.cmd = Config.codeReset)
      (e : t = sendReply [Config.statusOk] (chipReset (qClear u)))
  | plain (u : State) (bs : List Byte)
      (h : s.phase = .cmd ∨ s.phase = .len ∨ ∃ p, s.phase = .reply p) (f : FetchFrame s u)
      (ht : HeaderTaken s u) (e : t = sendReply bs u)
  | write (u : State) (fuel : Nat) (h : s.phase = .cmd ∨ s.phase = .len) (f : FetchFrame s u)
      (ht : HeaderTaken s u)
      (room : u.q.count ≤ u.cfg.cap → u.q.count + u.i.rem.toNat ≤ u.cfg.cap)
      (e : t = recordLoop fuel u)
  | wop (h : s.phase = .wop) (e : t = runRecords s)
  | warg (k : Nat) (h : s.phase = .warg k) (e : t = resumeOperands k s)
  | held (h : s.phase = .consume) (f : FetchFrame s t) (el : OnlyTicks s t)
      (e : t.phase = .status)
  | record (h : s.phase = .consume) (hc : 0 < s.q.count)
      (hg : (interleave (interleave s)).t.gateOpen = true)
      (e : exec (headRecord (interleave (interleave s))) (interleave (interleave s)) = .next t)
  | status (h : s.phase = .status) (e : t = updateStatus s)

theorem exec_decodeOuter_cases {c l : Byte} {s u t : State}
    (h : s.phase = .cmd ∨ s.phase = .len) (f : FetchFrame s u) (ht : HeaderTaken s u)
    (hc : u.i.cmd = c) (he : exec (decodeOuter c l) u = .next t) : StepCase s t := by
  have h' : s.phase = .cmd ∨ s.phase = .len ∨ ∃ p, s.phase = .reply p := h.imp_right .inl
  unfold decodeOuter at he
  split at he
  · rename_i h0
    cases he; exact .reset u h f ht (hc.trans h0) rfl
  · split at he
    · simp only [exec, execCWrite] at he
      have f2 := f.trans (interleave_fetchFrame u)
      split at he
      · cases he; exact .plain _ _ h' f2 ht.interleave rfl
      · rename_i hw
        cases he
        refine .write ((interleave u).setI { (interleave u).i with rem := l }) (l.toNat + 1) h f2
          ht.interleave ?_ rfl
        simp [Queue.freeCapacity] at hw ⊢; omega
    · split at he
      · cases he; exact .plain u _ h' f ht rfl
      · cases he; exact .plain u _ h' f ht rfl

/-- The rest of a header, of which a step at `P_CMD` has taken the code and a step at `P_LEN`
nothing. -/
theorem fetchLen_cases {n : Nat} {taken : List Byte} {s u t : State}
    (h : s.phase = .cmd ∧ taken = [u.i.cmd] ∨ s.phase = .len ∧ taken = [])
    (f : FetchFrame s u) (ht : Takes n taken s u) (hi : InterruptIdle s.t → InterruptIdle u.t)
    (hl : LineFree s → LineFree u) (he : fetchLen u = .next t) : StepCase s t := by
  unfold fetchLen at he
  have h' : s.phase = .cmd ∨ s.phase = .len := h.imp And.left And.left
  have f2 := f.trans (interleave_fetchFrame u)
  rcases rxByte_cases u with ⟨h1, h2⟩ | ⟨b, rest, h1, h2⟩
  · rw [h2] at he; cases he
    refine .idle (.inr h') f2 ?_ (.inr (.inr rfl))
    refine HeaderTaken.interleave (s := s) ⟨n, taken, ht, ?_, hi, hl⟩
    rcases h with ⟨hp, rfl⟩ | ⟨hp, rfl⟩ <;> simp [headerBytes, hp]
  · rw [h2] at he
    refine exec_decodeOuter_cases (c := u.i.cmd)
      (u := ((interleave u).setRx rest).setI { (interleave u).i with len := b }) h' f2
      ⟨n + 1, taken ++ [b], takes_trans ht (rxByte_takes h1) hi, ?_, fun h0 => interleave_idle (hi h0),
        fun h0 => interleave_lineFree (hl h0)⟩
      (by simp) (by simpa using he)
    rcases h with ⟨hp, rfl⟩ | ⟨hp, rfl⟩ <;> simp [headerBytes, hp]

/-- Every step is one of these. -/
theorem step_cases {s t : State} (he : step s = .next t) : StepCase s t := by
  unfold step at he
  have f := interleave_fetchFrame s
  have el := interleave_onlyTicks s
  have ht : HeaderTaken s (interleave s) := (interleave_passes s).headerTaken
  split at he
  · cases he; exact .boot ‹_› rfl
  · rename_i hp; cases he
    refine .idle (.inl hp) f ht ?_
    simp only [pollRx, micro, State.setPhase_phase]; split <;> simp
  · rename_i hp
    unfold fetchHeader at he
    rcases rxByte_cases s with ⟨h1, h2⟩ | ⟨b, rest, h1, h2⟩
    · rw [h2] at he; cases he; exact .idle (.inr (.inl hp)) f ht (.inr (.inl rfl))
    · rw [h2] at he
      dsimp only at he
      split at he
      · exact fetchLen_cases
          (u := ((interleave s).setRx rest).setI { (interleave s).i with cmd := b })
          (.inl ⟨hp, rfl⟩) f
          (rxByte_takes h1) interleave_idle interleave_lineFree he
      · exact exec_decodeOuter_cases
          (u := ((interleave s).setRx rest).setI { (interleave s).i with cmd := b }) (.inl hp) f
          ⟨1, [b], rxByte_takes h1, by simp [headerBytes, hp], interleave_idle,
            interleave_lineFree⟩ rfl he
  · rename_i hp
    exact fetchLen_cases (.inr ⟨hp, rfl⟩) (FetchFrame.refl s) (Passes.refl s).takes id id he
  · cases he; exact .wop ‹_› rfl
  · cases he; exact .warg _ ‹_› rfl
  · rename_i p hp
    rw [resumeReply_eq] at he; cases he
    exact .plain s p (.inr (.inr ⟨p, hp⟩)) (FetchFrame.refl s) (Passes.refl s).headerTaken rfl
  · rename_i hp
    unfold consume at he
    dsimp only at he
    split at he
    · cases he; exact .held hp f el rfl
    · rename_i hne
      split at he
      · rename_i hg
        refine .record hp ?_ hg he
        simp [Queue.isEmpty] at hne; omega
      · cases he
        exact .held hp (f.trans (interleave_fetchFrame _)) (el.trans (interleave_onlyTicks _)) rfl
  · cases he; exact .status ‹_› rfl

/-! ## The record loop, seen from outside -/

/-- It appends some bytes, at most as many as remain, sends at most a reply, and leaves the rest
alone. -/
theorem recordLoop_frame (fuel : Nat) (s : State) : ∃ bs,
    (recordLoop fuel s).q = Queue.appendAll s.cfg.cap bs s.q ∧ bs.length ≤ s.i.rem.toNat ∧
      s.tx <+: (recordLoop fuel s).tx ∧ (recordLoop fuel s).cfg = s.cfg ∧
      (recordLoop fuel s).dev = s.dev ∧ (recordLoop fuel s).status = s.status ∧
      (recordLoop fuel s).k = s.k ∧ (recordLoop fuel s).free = s.free ∧
      OnlyTicks s (recordLoop fuel s) := by
  obtain ⟨n, rs, part, bad, u, f1, f2, f3, f4, f5, f6, f7, f8, f9⟩ := recordLoop_cases fuel s
  obtain ⟨a1, a2, a3, a4, a5, a6, a7, a8⟩ := f5
  have elu : OnlyTicks s u := ⟨n, f2.1, f4⟩
  refine ⟨encodeRecords rs ++ part, ?_⟩
  rcases f9 with ⟨hp, _, _, h⟩ | ⟨hp, _, h⟩ | ⟨hp, _, h, _⟩ |
    ⟨op, args, k, hp, _, h0, hk, hn, hle, _, h⟩
  all_goals rw [h]; subst hp
  · obtain ⟨g1, g2, g3, g4, g5, g6, g7, g8, _⟩ := sendReply_frame [Config.statusOk] u
    exact ⟨g2.trans f6, by simpa using f7, by rwa [a5] at g7, g1.trans a1, g3.trans a2,
      g4.trans a3, g5.trans a4, g6.trans a6, elu.trans g8⟩
  · obtain ⟨g1, g2, g3, g4, g5, g6, g7, g8, _⟩ := sendReply_frame [Config.statusInvalid] u
    exact ⟨g2.trans f6, by simpa using f7, by rwa [a5] at g7, g1.trans a1, g3.trans a2,
      g4.trans a3, g5.trans a4, g6.trans a6, elu.trans g8⟩
  · exact ⟨f6, by simpa using f7, by simp [a5], a1, a2, a3, a4, a6, elu⟩
  · exact ⟨f6, by simp; omega, by simp [a5], a1, a2, a3, a4, a6, elu⟩

/-- The same for a step in `P_WARG`. -/
theorem resumeOperands_frame (k : Nat) (s : State) : ∃ bs,
    (resumeOperands k s).q = Queue.appendAll s.cfg.cap bs s.q ∧
      (k < s.i.n.toNat → s.i.n.toNat ≤ s.i.rem.toNat →
        bs.length ≤ k + (s.i.rem.toNat - s.i.n.toNat)) ∧
      s.tx <+: (resumeOperands k s).tx ∧ (resumeOperands k s).cfg = s.cfg ∧
      (resumeOperands k s).dev = s.dev ∧ (resumeOperands k s).status = s.status ∧
      (resumeOperands k s).k = s.k ∧ (resumeOperands k s).free = s.free ∧
      OnlyTicks s (resumeOperands k s) := by
  obtain ⟨n, bs, u, e1, e2, e3, e4, e5, e6, e7⟩ := appendOperands_cases k s
  obtain ⟨a1, a2, a3, a4, a5, a6, a7, a8⟩ := e4
  have elu : OnlyTicks s u := ⟨n, e1.1, e3⟩
  rcases e7 with ⟨g1, g2⟩ | ⟨m, g1, g2, g3⟩
  · simp only [resumeOperands, g2]
    obtain ⟨cs, k1, k2, k3, k4, k5, k6, k7, k8, k9⟩ :=
      recordLoop_frame (u.recordDone.i.rem.toNat + 1) u.recordDone
    refine ⟨bs ++ cs, ?_, ?_, by rw [← a5]; exact k3, k4.trans a1, k5.trans a2, k6.trans a3,
      k7.trans a4, k8.trans a6, elu.trans k9⟩
    · rw [appendAll_append, ← e5, ← a1]; exact k1
    · intro hk hn
      have hw : (s.i.n.setWidth 8).toNat = s.i.n.toNat := by
        rw [BitVec.toNat_setWidth, Nat.mod_eq_of_lt]; have := s.i.n.isLt; omega
      have : u.recordDone.i.rem.toNat = s.i.rem.toNat - s.i.n.toNat := by
        change (u.i.rem - u.i.n.setWidth 8).toNat = _
        rw [e6, BitVec.toNat_sub_of_le, hw]; rw [BitVec.le_def, hw]; exact hn
      simp; omega
  · simp only [resumeOperands, g3]
    exact ⟨bs, e5, by omega, by simp [a5], a1, a2, a3, a4, a6, elu⟩

/-- A reply sent from `u`, seen from a state `s` before it that had sent as much. -/
theorem sendReply_outcome (bs : List Byte) {s u : State} (htx : u.tx = s.tx)
    (hl : LineFree s → LineFree u) : ReplyOutcome bs s (sendReply bs u) ∧
      (sendReply bs u).i = u.i ∧ ∃ n, Takes n [] u (sendReply bs u) := by
  obtain ⟨sent, pending, n, h1, h2, h3, h4, h5, -, -, -, -, h6, -⟩ := sendReply_spec bs u
  exact ⟨⟨sent, pending, h1, by rw [h3, htx], h4, fun h => h5 (hl h)⟩, h6, n, h2.takes⟩

/-- What the record loop takes from `RX`, where there is room for what remains: the bytes that it
appends, and then at most the one it answers with `E.INVALID`. -/
theorem recordLoop_takes (fuel : Nat) {s : State} (hq : QueueInv s.cfg.cap s.q)
    (hroom : s.q.count + s.i.rem.toNat ≤ s.cfg.cap) :
    ∃ n kept bad, Takes n (kept ++ bad) s (recordLoop fuel s) ∧
      contents s.cfg.cap (recordLoop fuel s).q = contents s.cfg.cap s.q ++ kept ∧
      (recordLoop fuel s).i.cmd = s.i.cmd ∧ (recordLoop fuel s).i.len = s.i.len ∧
      (bad = [] ∨
        bad = [(recordLoop fuel s).i.op] ∧ ReplyOutcome [0xE1#8] s (recordLoop fuel s)) := by
  obtain ⟨n, rs, part, bad, u, f1, f2, f3, f4, f5, f6, f7, f8, f9⟩ := recordLoop_cases fuel s
  obtain ⟨a1, a2, a3, a4, a5, a6, a7, a8⟩ := f5
  have hkept : (encodeRecords rs ++ part).length ≤ s.i.rem.toNat := by
    rcases f9 with ⟨rfl, _⟩ | ⟨rfl, _⟩ | ⟨rfl, _⟩ | ⟨op, args, k, rfl, _, h0, hk, _, hn, _⟩
    all_goals simp; omega
  have hcont : contents s.cfg.cap u.q =
      contents s.cfg.cap s.q ++ (encodeRecords rs ++ part) := by
    rw [f6]; exact (appendAll_contents _ hq (by omega)).1
  have reply : ∀ c, recordLoop fuel s = sendReply [c] u →
      ∃ m, Takes m (encodeRecords rs ++ part ++ bad) s (recordLoop fuel s) ∧
        contents s.cfg.cap (recordLoop fuel s).q =
          contents s.cfg.cap s.q ++ (encodeRecords rs ++ part) ∧
        (recordLoop fuel s).i = u.i ∧ ReplyOutcome [c] s (recordLoop fuel s) := by
    intro c h
    obtain ⟨g1, g2, m, g3⟩ := sendReply_outcome [c] a5 f3
    rw [h, (sendReply_frame [c] u).2.1]
    exact ⟨n + m, by simpa using takes_trans f2 g3 f4, hcont, g2, g1⟩
  rcases f9 with ⟨hp, hb, _, h⟩ | ⟨hp, hb, h⟩ | ⟨hp, hb, h, _⟩ |
    ⟨op, args, k, hp, hb, h0, hk, hn, hle, _, h⟩
  · obtain ⟨m, k1, k2, k3, k4⟩ := reply _ h
    exact ⟨m, _, bad, k1, k2, by rw [k3, a7], by rw [k3, a8], .inl hb⟩
  · obtain ⟨m, k1, k2, k3, k4⟩ := reply _ h
    exact ⟨m, _, bad, k1, k2, by rw [k3, a7], by rw [k3, a8], .inr ⟨by rw [k3, hb], k4⟩⟩
  · rw [h]; exact ⟨n, _, bad, f2, hcont, a7, a8, .inl hb⟩
  · rw [h]; exact ⟨n, _, bad, f2, hcont, a7, a8, .inl hb⟩

/-- The same for a step in `P_WARG`. -/
theorem resumeOperands_takes (k : Nat) {s : State} (hq : QueueInv s.cfg.cap s.q)
    (hk : s.i.n.toNat ≤ s.i.rem.toNat)
    (hroom : s.q.count + k + (s.i.rem.toNat - s.i.n.toNat) ≤ s.cfg.cap) :
    ∃ n kept bad, Takes n (kept ++ bad) s (resumeOperands k s) ∧
      contents s.cfg.cap (resumeOperands k s).q = contents s.cfg.cap s.q ++ kept ∧
      (bad = [] ∨
        bad = [(resumeOperands k s).i.op] ∧ ReplyOutcome [0xE1#8] s (resumeOperands k s)) := by
  obtain ⟨n, bs, u, e1, e2, e3, e4, e5, e6, e7⟩ := appendOperands_cases k s
  obtain ⟨a1, a2, a3, a4, a5, a6, a7, a8⟩ := e4
  have hb : bs.length ≤ k := by rcases e7 with ⟨h, _⟩ | ⟨m, h, _⟩ <;> omega
  obtain ⟨c1, c2, c3⟩ := appendAll_contents bs hq (by omega)
  rw [← e5] at c1 c2
  rcases e7 with ⟨g1, g2⟩ | ⟨m, g1, g2, g3⟩
  · simp only [resumeOperands, g2]
    have hw : (s.i.n.setWidth 8).toNat = s.i.n.toNat := by
      rw [BitVec.toNat_setWidth, Nat.mod_eq_of_lt]; have := s.i.n.isLt; omega
    have hrem : u.recordDone.i.rem.toNat = s.i.rem.toNat - s.i.n.toNat := by
      change (u.i.rem - u.i.n.setWidth 8).toNat = _
      rw [e6, BitVec.toNat_sub_of_le, hw]; rw [BitVec.le_def, hw]; exact hk
    have hcfg : u.recordDone.cfg = s.cfg := a1
    obtain ⟨m, kept, bad, k1, k2, k3, k4, k5⟩ :=
      recordLoop_takes (u.recordDone.i.rem.toNat + 1) (s := u.recordDone)
      (by rw [hcfg]; change QueueInv _ u.q; rw [e5]; exact appendAll_inv _ hq)
      (by rw [hcfg, hrem]; change u.q.count + _ ≤ _; omega)
    refine ⟨n + m, bs ++ kept, bad, ?_, ?_, k5.imp_right fun h => ⟨h.1, ?_⟩⟩
    · rw [List.append_assoc]
      exact takes_trans (t := u.recordDone) e1 k1 e3
    · rw [hcfg] at k2
      rw [← List.append_assoc, ← c1]; exact k2
    · obtain ⟨sent, pending, r1, r2, r3, r4⟩ := h.2
      exact ⟨sent, pending, r1, by rw [← a5]; exact r2, r3, fun hl => r4 (e2 hl)⟩
  · simp only [resumeOperands, g3]
    exact ⟨n, bs, [], by rw [List.append_nil]; exact e1, c1, .inl rfl⟩

/-! ## Time over a step -/

/-- Every step but the one that runs a record leaves the Time Base to the TICKs. -/
theorem step_onlyTicks {s t : State} (he : step s = .next t)
    (hg : s.phase = .consume → 0 < s.q.count →
      (interleave (interleave s)).t.gateOpen = false) : OnlyTicks s t := by
  cases step_cases he with
  | boot h e =>
    subst e
    exact ((qClear_frame s).2.2.2.2.2.2.2.trans (chipReset_frame _).2.2.2.2.2.2).trans
      (statusUpdate_frame _).2.2.2.2.2.2
  | idle h f ht h2 => exact ht.onlyTicks
  | reset u h f ht hc e =>
    subst e
    exact ((ht.onlyTicks.trans (qClear_frame u).2.2.2.2.2.2.2).trans
      (chipReset_frame _).2.2.2.2.2.2).trans (sendReply_frame _ _).2.2.2.2.2.2.2.1
  | plain u bs h f ht e =>
    subst e; exact ht.onlyTicks.trans (sendReply_frame _ _).2.2.2.2.2.2.2.1
  | write u fuel h f ht room e =>
    subst e
    obtain ⟨bs, -, -, -, -, -, -, -, -, el⟩ := recordLoop_frame fuel u
    exact ht.onlyTicks.trans el
  | wop h e =>
    subst e
    obtain ⟨bs, -, -, -, -, -, -, -, -, el⟩ := recordLoop_frame (s.i.rem.toNat + 1) s
    exact el
  | warg k h e =>
    subst e
    obtain ⟨bs, -, -, -, -, -, -, -, -, el⟩ := resumeOperands_frame k s
    exact el
  | held h f el e => exact el
  | record h hc ho e => rw [hg h hc] at ho; cases ho
  | status h e => subst e; exact (statusUpdate_frame s).2.2.2.2.2.2

/-- A step uses some slots of the schedule, and leaves the interrupt enabled and idle. -/
theorem step_sched {s t : State} (hi : InterruptIdle s.t) (he : step s = .next t) :
    (∃ n, t.env.sched = s.env.sched.drop n) ∧ InterruptIdle t.t := by
  have fin : OnlyTicks s t → (∃ n, t.env.sched = s.env.sched.drop n) ∧ InterruptIdle t.t :=
    fun ⟨n, a, b⟩ => ⟨⟨n, a.1⟩, b hi⟩
  cases step_cases he with
  | record h hc hg e =>
    have el : OnlyTicks s (interleave (interleave s)) :=
      (interleave_onlyTicks s).trans (interleave_onlyTicks _)
    cases exec_decodeInner_cases e with
    | sleep d e =>
      obtain ⟨n, a, b⟩ := el.trans (removeOperands_frame Config.opSleep (lowByte d) (highByte d)
        (interleave (interleave s))).2.2.2.2.2
      obtain ⟨-, g2, -, -, g5, -⟩ := setCountdown_spec d (b hi)
      subst e
      exact ⟨⟨n + 2, by rw [State.setPhase_env, g2, a.1, List.drop_drop]⟩, g5⟩
    | write a v e =>
      subst e
      exact fin ((el.trans (removeOperands_frame _ _ _ _).2.2.2.2.2).trans
        (devWrite_frame _ _ _).2.2.2.2.2.2)
    | close e =>
      subst e
      exact fin (((el.trans
        (qRemoveInto_frame (fun k => { k with d := Config.opClose }) _).2.2.2.2.2).trans
        (qClear_frame _).2.2.2.2.2.2.2).trans (chipReset_frame _).2.2.2.2.2.2)
    | other d e =>
      subst e
      exact fin (el.trans (qRemoveInto_frame (fun k => { k with d := d }) _).2.2.2.2.2)
  | held h f el e => exact fin el
  | _ => exact fin (step_onlyTicks he (fun h => by simp_all))

/-! ## Several steps -/

/-- A run of several steps is a step and a run. -/
theorem run_succ {n : Nat} {s t : State} (h : Host.Core.run core (n + 1) s = .next t) :
    ∃ u, step s = .next u ∧ Host.Core.run core n u = .next t := by
  simp only [Host.Core.run] at h
  cases hs : core.step s with
  | next u => rw [hs] at h; exact ⟨u, hs, h⟩
  | fault f => rw [hs] at h; cases h
  | refused r => rw [hs] at h; cases h

end Sys2Proof.Laws
end

