-- ==== Sys2Proof/Tests/Slice0.lean ====
section
/-! SUPPORT. Small tests on fixed values, their expected results from 95_test_vectors.md (the vector's
name is given) or worked out by hand from the encoding tables; then, for each statement that has
hypotheses, a state that meets all of them together. -/

namespace Sys2Proof.Tests

open Sys2Proof.Machine Sys2Proof.Safety

/-! ## Well-formedness: each check refuses an ill-formed term -/

theorem test_wf_refuses_assigned_outer_code_as_other :
    (Instr.cOther 0xC1#8 0x00#8).wellFormed true = false := by decide
theorem test_wf_refuses_assigned_opcode_as_other :
    (Instr.dOther 0xD2#8).wellFormed true = false := by decide
theorem test_wf_refuses_reset_length_without_length_byte :
    (Instr.cReset 0x01#8).wellFormed false = false := by decide
theorem test_wf_refuses_query_length_without_length_byte :
    (Instr.cQuery 0x01#8).wellFormed false = false := by decide
theorem test_wf_refuses_other_length_without_length_byte :
    (Instr.cOther 0xC3#8 0x01#8).wellFormed false = false := by decide
theorem test_wf_accepts_any_length_with_length_byte :
    (Instr.cReset 0xFF#8).wellFormed true = true := by decide

/-! ## Decoding: words written out bit by bit from the encoding of the table's rows -/

theorem test_decode_cReset :
    decode true .packet [0b11000000#8, 0b11111111#8] = .ok (.cReset 0xFF#8, []) := by decide
theorem test_decode_cWrite : decode true .packet
    [0b11000001#8, 0b00000011#8, 0b11010001#8] = .ok (.cWrite 3#8, [0xD1#8]) := by decide
theorem test_decode_cQuery :
    decode true .packet [0b11000010#8, 0b00000000#8] = .ok (.cQuery 0#8, []) := by decide
theorem test_decode_cOther :
    decode true .packet [0b11000011#8, 0b00000000#8] = .ok (.cOther 0xC3#8 0#8, []) := by decide
theorem test_decode_dSleep : decode true .record
    [0b11010000#8, 0b00110100#8, 0b00010010#8] = .ok (.dSleep 0x1234#16, []) := by decide
theorem test_decode_dWrite : decode true .record
    [0b11010001#8, 0b10110000#8, 0b00110001#8] = .ok (.dWrite 0xB0#8 0x31#8, []) := by decide
theorem test_decode_dClose :
    decode true .record [0b11010010#8, 0xAA#8] = .ok (.dClose, [0xAA#8]) := by decide
theorem test_decode_dOther :
    decode true .record [0b11010011#8, 0xAA#8] = .ok (.dOther 0xD3#8, [0xAA#8]) := by decide
theorem test_decode_eOk : decode true .reply [0b11100000#8] = .ok (.eOk, []) := by decide
theorem test_decode_eOkQ : decode true .queryReply
    [0b11100000#8, 0b00000000#8, 0b00000100#8, 0b00101100#8, 0b00000001#8] =
      .ok (.eOkQ 1024#16 300#16, []) := by decide
theorem test_decode_eInvalid :
    decode true .reply [0b11100001#8] = .ok (.eInvalid, []) := by decide
theorem test_decode_eOverflow :
    decode true .reply [0b11100010#8] = .ok (.eOverflow, []) := by decide

/-- Bytes that end too soon, and a reply with no status code, are rejected by name. -/
theorem test_decode_rejects :
    decode true .packet [0xC0#8] = .error .truncated ∧
      decode true .record [0xD0#8, 0x01#8] = .error .truncated ∧
      decode true .reply [0xE3#8] = .error .notAStatusCode ∧
      decode true .record [] = .error .empty := by decide

/-- V-E7: the payload `D0 0A 00 D1 B0 31 D2`. -/
theorem test_encode_payload :
    encodeWritePacket [.dSleep 10#16, .dWrite 0xB0#8 0x31#8, .dClose] =
      [0xC1#8, 0x07#8, 0xD0#8, 0x0A#8, 0x00#8, 0xD1#8, 0xB0#8, 0x31#8, 0xD2#8] := by decide

/-- A row of the table for each level: the first byte in bits 7..0. -/
theorem test_decodeTableWord :
    decodeTableWord 16 0x05C1 = some (.cWrite 5#8) ∧
      decodeTableWord 16 0x7FC3 = some (.cOther 0xC3#8 0x7F#8) ∧
      decodeTableWord 24 0x1234D0 = some (.dSleep 0x1234#16) ∧
      decodeTableWord 8 0x07 = some (.dOther 0x07#8) ∧ decodeTableWord 8 0xE0 = some .eOk ∧
      decodeTableWord 40 0x012C0400E0 = some (.eOkQ 0x0400#16 0x012C#16) := by decide

/-! ## States for the tests -/

/-- The state of a `next` outcome. -/
def nextOf : Host.Outcome State Fault Refusal → Option State
  | .next s => some s
  | .fault _ => none
  | .refused _ => none

/-- A small machine; its RESET_WRITE_SEQ is that of V-W4. -/
def smallCfg : Config.Params :=
  { cap := 8, hdrLenAlways := true, resetWriteSeq := [(0x01#8, 0x00#8), (0xB0#8, 0x00#8)] }

/-- Its state with a schedule, `RX` and a phase. -/
def small (sched : List (List EnvEvent)) (rx : List Byte) (phase : Phase) : State :=
  ((State.ofReset smallCfg sched).setRx rx).setPhase phase

/-- The same with bytes queued from the read index `rd` on. -/
def holding (rd : Nat) (bs : List Byte) (s : State) : State :=
  s.setQ (Queue.holding 8 bs { buf := [], wr := rd, rd := rd, count := 0 })

/-! ## One step of each instruction -/

/-- V-I1, V-W4: the queue cleared, the pulse and two writes driven, then the reply. -/
theorem test_cReset :
    (nextOf (exec (.cReset 0xFF#8) (holding 3 [0xD2#8] (small [] [0x12#8] .cmd)))).map
        (fun s => ([s.q.wr, s.q.rd, s.q.count], s.tx, s.rx, s.dev.sh)) =
      some ([0, 0, 0], [0xE0#8], [0x12#8], [(0x01, 0x00#8), (0xB0, 0x00#8)]) := by decide

theorem test_cReset_chip_sees :
    (nextOf (exec (.cReset 0#8) (small [] [] .cmd))).map
        (fun s => chipEvents .addr 0#8 .released s.dev.bus) =
      some [.resetPulse, .latch .addr 0x01#8, .latch .data 0x00#8, .latch .addr 0xB0#8,
        .latch .data 0x00#8] := by decide

/-- V-I9, on 8 bytes: `len = FREE` fills the queue, across the end of the buffer. -/
theorem test_cWrite_fills :
    (nextOf (exec (.cWrite 3#8)
        (holding 2 [0xD2#8, 0xD2#8, 0xD2#8, 0xD2#8, 0xD2#8]
          (small [] [0xD1#8, 0x20#8, 0x00#8] .cmd)))).map
        (fun s => ([s.q.wr, s.q.rd, s.q.count], contents 8 s.q, s.tx)) =
      some ([2, 2, 8], [0xD2#8, 0xD2#8, 0xD2#8, 0xD2#8, 0xD2#8, 0xD1#8, 0x20#8, 0x00#8],
        [0xE0#8]) := by decide

/-- V-I7: the first record stays queued although the reply is `E1`. -/
theorem test_cWrite_partial :
    (nextOf (exec (.cWrite 4#8) (small [] [0xD1#8, 0x20#8, 0x00#8, 0xD0#8] .cmd))).map
        (fun s => (s.q.count, s.tx, s.rx, s.i.rem)) =
      some (3, [0xE1#8], [], 1#8) := by decide

/-- V-I12 on 8 bytes: capacity 8, occupancy 2. -/
theorem test_cQuery :
    (nextOf (exec (.cQuery 0#8) (holding 0 [0xD2#8, 0xD2#8] (small [] [] .cmd)))).map
        (fun s => (s.tx, s.q.count)) =
      some ([0xE0#8, 0x08#8, 0x00#8, 0x02#8, 0x00#8], 2) := by decide

/-- V-I13: `FF C0` draws `E1`; the `C0` was its length byte. -/
theorem test_cOther :
    (nextOf (step (small [] [0xFF#8, 0xC0#8] .cmd))).map
        (fun s => (s.tx, s.rx, s.dev.bus, s.i.cmd, s.i.len)) =
      some ([0xE1#8], [], [], 0xFF#8, 0xC0#8) := by decide

/-- V-K5: `D0 34 12` loads 4660. -/
theorem test_dSleep :
    (nextOf (step (holding 0 [0xD0#8, 0x34#8, 0x12#8] (small [] [] .consume)))).map
        (fun s => (s.t.cd, s.q.rd, s.q.count, s.phase)) =
      some (4660#16, 3, 0, .status) := by decide

/-- V-T7: a period that ends during the store is served right after it. -/
theorem test_dSleep_tick :
    (nextOf (exec (.dSleep 5#16)
        (holding 0 [0xD0#8, 5#8, 0#8] (small [[], [], [], [], [.timer]] [] .consume)))).map
        (fun s => (s.t.cd, s.t.tick)) =
      some (4#16, 1#16) := by decide

/-- V-K10, on 8 bytes: the record straddles the end of the buffer. -/
theorem test_dWrite :
    (nextOf (step (holding 7 [0xD1#8, 0x40#8, 0x3F#8] (small [] [] .consume)))).map
        (fun s => (s.q.rd, s.q.count, chipEvents .addr 0#8 .released s.dev.bus,
          Memory.read s.dev.sh 0x40)) =
      some (2, 0, [.latch .addr 0x40#8, .latch .data 0x3F#8], some 0x3F#8) := by decide

/-- V-W1: the pin trace of DEVWRITE(20, 00). -/
theorem test_dWrite_pins :
    (nextOf (exec (.dWrite 0x20#8 0x00#8)
        (holding 0 [0xD1#8, 0x20#8, 0x00#8] (small [] [] .consume)))).map (fun s => s.dev.bus) =
      some [.sel .addr, .data 0x20#8, .wr .low, .delay .strobe, .wr .high, .delay .strobe,
        .sel .data, .data 0x00#8, .wr .low, .delay .strobe, .wr .high, .delay .strobe] := by decide

/-- V-K8: what stands behind the Close is discarded, and nothing is sent. -/
theorem test_dClose :
    (nextOf (step (holding 4 [0xD2#8, 0xD1#8, 0xA0#8, 0x55#8] (small [] [] .consume)))).map
        (fun s => ([s.q.wr, s.q.rd, s.q.count], s.tx, s.dev.sh)) =
      some ([0, 0, 0], [], [(0x01, 0x00#8), (0xB0, 0x00#8)]) := by decide

/-- V-K9: one byte leaves and nothing else happens. -/
theorem test_dOther :
    (nextOf (step (holding 0 [0x00#8, 0xD1#8] (small [] [] .consume)))).map
        (fun s => (s.q.rd, s.q.count, s.dev.bus, s.tx, s.k.d)) =
      some (1, 1, [], [], 0x00#8) := by decide

theorem test_eOk : (nextOf (exec .eOk (small [] [] (.reply [0xE0#8])))).map
    (fun s => (s.tx, s.phase)) = some ([0xE0#8], .consume) := by decide

/-- A transmitter that becomes busy after the second byte: three bytes wait (R151). -/
theorem test_eOkQ_waits :
    (nextOf (exec (.eOkQ 1024#16 6#16)
        (small [[], [], [.transmitter false]] [] (.reply [])))).map
        (fun s => (s.tx, s.phase)) =
      some ([0xE0#8, 0x00#8], .reply [0x04#8, 0x06#8, 0x00#8]) := by decide

theorem test_eInvalid : (nextOf (exec .eInvalid (small [] [] (.reply [0xE1#8])))).map
    (fun s => (s.tx, s.phase)) = some ([0xE1#8], .consume) := by decide
theorem test_eOverflow : (nextOf (exec .eOverflow (small [] [] (.reply [0xE2#8])))).map
    (fun s => (s.tx, s.phase)) = some ([0xE2#8], .consume) := by decide

/-- V-T2: the tick counter wraps, the countdown stays 0. -/
theorem test_tick : ({ tick := 0xFFFF#16, cd := 0#16, irqEn := true, irqPend := false } :
    TimeBase).timerDue = { tick := 0#16, cd := 0#16, irqEn := true, irqPend := false } := by decide

/-! ## The host's table word is what the next step runs -/

theorem test_withFetchWord_packet :
    (nextOf (step ((small [] [] .boot).withFetchWord 16 0x00C2))).map (fun s => s.tx) =
      some [0xE0#8, 0x08#8, 0x00#8, 0x00#8, 0x00#8] := by decide
theorem test_withFetchWord_record :
    (nextOf (step ((small [] [] .boot).withFetchWord 24 0x1234D0))).map (fun s => s.t.cd) =
      some 0x1234#16 := by decide
theorem test_withFetchWord_reply :
    (nextOf (step ((small [] [] .boot).withFetchWord 8 0xE2))).map (fun s => s.tx) =
      some [0xE2#8] := by decide
/-- At reset itself, with the parameters the spec takes. -/
theorem test_withFetchWord_reset :
    (nextOf (step (State.reset.withFetchWord 24 0x0040D1))).map (fun s => s.dev.sh) =
      some [(0x40, 0x00#8)] := by decide

/-! ## States that meet the hypotheses of the statements -/

/-- The invariant of the queue, as a check that runs. -/
theorem queueInv_holding :
    QueueInv 8 (holding 6 [0xD1#8, 0x40#8, 0x3F#8] (small [] [] .consume)).q := by
  unfold QueueInv; decide

theorem queueInv_empty : QueueInv 8 (small [] [] .cmd).q := by unfold QueueInv; decide

theorem witness_DecodeOfEncodeIsIdentity :
    (Instr.cOther 0xC3#8 0x00#8).wellFormed false = true ∧
      (Instr.dOther 0xD3#8).wellFormed true = true := by decide

theorem witness_EncodeOfDecodeIsIdentity :
    decode false .packet [0xC0#8, 0xC1#8] = .ok (.cReset 0#8, [0xC1#8]) := by decide

theorem witness_RecordLengthLookup :
    (0xD3#8 : Byte) ≠ 0xD0#8 ∧ (0xD3#8 : Byte) ≠ 0xD1#8 ∧ (0xD3#8 : Byte) ≠ 0xD2#8 := by decide

theorem witness_ConditionsAreComputed :
    ({ smallCfg with cap := 1 } : Config.Params).wf ∧ (small [] [] .cmd).q.count ≤ 1 := by decide

/-- A queue of 8 bytes with 7, its last place free. -/
def oneFree : State := holding 0 (List.replicate 7 0xD2#8) (small [] [] .cmd)

/-- The same with 8: full. -/
def full : State := holding 5 (List.replicate 8 0xD2#8) (small [] [] .cmd)

theorem witness_QAppendStoresAtTheWriteIndex : oneFree.q.count < oneFree.cfg.cap := by decide

/-- A last byte, at the end of the buffer. -/
theorem witness_QRemoveTakesAtTheReadIndex :
    0 < (holding 7 [0xD2#8] (small [] [] .cmd)).q.count ∧
      Memory.read (holding 7 [0xD2#8] (small [] [] .cmd)).q.buf 7 = some 0xD2#8 := by decide

theorem witness_QueueRefusesOutsideItsPreconditions :
    ¬ full.q.count < full.cfg.cap ∧ (small [] [] .cmd).q.count = 0 := by decide

theorem witness_QueueIsFirstInFirstOut :
    QueueInv 8 (holding 6 [0xD1#8, 0x40#8, 0x3F#8] (small [] [] .consume)).q ∧ 0 < 8 ∧
      (holding 6 [0xD1#8, 0x40#8, 0x3F#8] (small [] [] .consume)).q.count < 8 ∧
      0 < (holding 6 [0xD1#8, 0x40#8, 0x3F#8] (small [] [] .consume)).q.count :=
  ⟨queueInv_holding, by decide, by decide, by decide⟩

theorem idle_small (sched : List (List EnvEvent)) (rx : List Byte) (p : Phase) :
    InterruptIdle (small sched rx p).t := ⟨rfl, rfl⟩

theorem witness_TickIncrementsAndDecrements : InterruptIdle (small [] [] .poll).t :=
  idle_small [] [] .poll

theorem witness_HeldOffTickStaysPending :
    ((small [] [] .poll).setT (small [] [] .poll).t.holdOff).t.irqEn = false := by decide

theorem onePeriod_of {s : State}
    (h : s.env.sched.all (fun es => es.countP (· == .timer) ≤ 1) = true) : OnePeriodAtATime s :=
  fun es hes => by simpa using List.all_eq_true.1 h es hes

/-- With a period that ends during the store, and without. -/
theorem witness_SetCountdownIsOneAtomicStore :
    (InterruptIdle (small [[], [.timer]] [] .consume).t ∧
      OnePeriodAtATime (small [[], [.timer]] [] .consume) ∧
      timerCount (((small [[], [.timer]] [] .consume).env.sched.drop 1).take 1) = 1) ∧
    InterruptIdle (small [[.timer], []] [] .consume).t ∧
      OnePeriodAtATime (small [[.timer], []] [] .consume) ∧
      timerCount (((small [[.timer], []] [] .consume).env.sched.drop 1).take 1) = 0 :=
  ⟨⟨idle_small _ _ _, onePeriod_of (by decide), by decide⟩, idle_small _ _ _,
    onePeriod_of (by decide), by decide⟩

/-- A countdown, closed and open; a time before the first period ends, and one after. -/
theorem witness_SleepLastsItsTime :
    0 < 1 ∧ 1 ≤ Config.Timing.reference.tTick ∧
      ({ tick := 0#16, cd := 5#16, irqEn := true, irqPend := false } : TimeBase).gateOpen = false ∧
      ({ tick := 0#16, cd := 0#16, irqEn := true, irqPend := false } : TimeBase).gateOpen = true ∧
      1 ≤ 4001 := by decide

/-- R194, in microseconds: a DEVWRITE takes about 40; R93: a sleep of 5 opens the gate in (4000, 5000]
and the fifth period ends then. -/
theorem test_timing :
    minDuration .reference (devWriteTrace 0x20#8 0x00#8) = 40 ∧
      ({ tick := 0#16, cd := 5#16, irqEn := true, irqPend := false } : TimeBase).gateOpensAt
        .reference 1000 = 5000 ∧
      periodsBy .reference 1 4000 = 4 ∧ periodsBy .reference 1 4001 = 5 := by decide

/-- A reset pulse as long as a period. -/
theorem witness_BusSequencesTakeTheirMinimumTime :
    0 < 1000 ∧ 1000 ≤ Config.Timing.reference.tTick ∧
      Config.Timing.reference.tTick ≤ Config.Timing.reference.tRst := by decide

theorem witness_TickCommutesWithInstructions :
    (∀ d, Instr.dWrite 0x20#8 0x00#8 ≠ .dSleep d) ∧
      ∃ t, exec (.dWrite 0x20#8 0x00#8)
        (holding 0 [0xD1#8, 0x20#8, 0x00#8] (small [[.timer]] [] .consume)) = .next t :=
  ⟨(fun _ h => nomatch h), _, rfl⟩

/-- V-I10 and V-I11: `len = FREE + 1`; `len = FREE`, and `len = 0` on a full queue. -/
theorem witness_CWriteChecksTheDeclaredLength :
    oneFree.q.count ≤ oneFree.cfg.cap ∧ full.q.count ≤ full.cfg.cap ∧
      oneFree.cfg.cap - oneFree.q.count < (2#8 : Byte).toNat ∧
      (1#8 : Byte).toNat ≤ oneFree.cfg.cap - oneFree.q.count ∧
      (0#8 : Byte).toNat ≤ full.cfg.cap - full.q.count := by decide

/-- `len = FREE`, across the end of the buffer; no records on a full queue (V-I11); and a byte that
comes in the last slot in which it can. -/
theorem witness_CWriteAppendsWholeRecords :
    (let s := holding 6 [0xD1#8, 0x40#8, 0x3F#8]
        (small [] [0xD0#8, 0x0A#8, 0x00#8, 0xD2#8, 0xD2#8, 0xC0#8] .cmd);
      (∀ r ∈ [Instr.dSleep 10#16, .dClose, .dClose], isQueueRecord r = true) ∧
        (5#8 : Byte).toNat = (encodeRecords [.dSleep 10#16, .dClose, .dClose]).length ∧
        QueueInv 8 s.q ∧ s.q.count + (5#8 : Byte).toNat ≤ 8 ∧
        ArrivesInTime 1 (encodeRecords [.dSleep 10#16, .dClose, .dClose]) s) ∧
    ((0#8 : Byte).toNat = (encodeRecords []).length ∧ QueueInv 8 full.q ∧
      full.q.count + (0#8 : Byte).toNat ≤ 8 ∧ ArrivesInTime 1 (encodeRecords []) full) ∧
    let s := small [[], [.hostSends 0xD2#8]] [] .cmd;
    (1#8 : Byte).toNat = (encodeRecords [.dClose]).length ∧ QueueInv 8 s.q ∧
      s.q.count + (1#8 : Byte).toNat ≤ 8 ∧ ArrivesInTime 1 (encodeRecords [.dClose]) s ∧
      ∃ t, exec (.cWrite 1#8) s = .next t ∧ t.tx = [0xE0#8] := by
  unfold QueueInv ArrivesInTime
  exact ⟨by decide, by decide, by decide, by decide, by decide, by decide, _, rfl, rfl⟩

/-- A start that is no opcode, and a record longer than what is left (V-I7); with that start in `RX`,
and with one that comes in the last slot in which it can. -/
theorem witness_CWriteRejectsABadRecord :
    let rs := [Instr.dWrite 0x20#8 0x00#8]
    let s := small [] [0xD1#8, 0x20#8, 0x00#8, 0xD0#8] .cmd
    let s' := small [[], [], [], [], [], [], [], [.hostSends 0xFF#8]] [0xD1#8, 0x20#8, 0x00#8] .cmd;
    (∀ r ∈ rs, isQueueRecord r = true) ∧ (encodeRecords rs).length < (4#8 : Byte).toNat ∧
      recLen 0xFF#8 = 0#2 ∧
      (4#8 : Byte).toNat - (encodeRecords rs).length < (recLen 0xD0#8).toNat ∧
      QueueInv 8 s.q ∧ s.q.count + (4#8 : Byte).toNat ≤ 8 ∧
      ArrivesInTime 1 (encodeRecords rs ++ [0xD0#8]) s ∧
      QueueInv 8 s'.q ∧ s'.q.count + (4#8 : Byte).toNat ≤ 8 ∧
      ArrivesInTime 1 (encodeRecords rs ++ [0xFF#8]) s' := by
  unfold QueueInv ArrivesInTime; decide

/-- V-I18, before the pause: `00` comes in the slot after the last that the C.WRITE uses. -/
def pausing : State :=
  small [[], [], [], [], [], [], [.hostSends 0x00#8]] [0xD0#8, 0x64#8] .cmd

/-- V-I18: `E0` after the last byte, `D0 64 00` queued. -/
theorem test_cWrite_pause :
    ((nextOf (exec (.cWrite 3#8) pausing)).bind fun s => nextOf (step s)).map
        (fun s => (contents 8 s.q, s.tx, s.phase)) =
      some ([0xD0#8, 0x64#8, 0x00#8], [0xE0#8], .consume) := by decide

/-- V-I18 and V-I16, inside a record; and at the start of one: of the first, whose byte comes a slot too
late, and of one behind another. -/
theorem witness_CWriteWaitsForTheHost :
    (encode true (.dSleep 100#16) = [0xD0#8, 0x64#8] ++ [0x00#8] ∧
      (encodeRecords []).length + (encode true (.dSleep 100#16)).length ≤ (3#8 : Byte).toNat ∧
      QueueInv 8 pausing.q ∧ pausing.q.count + (3#8 : Byte).toNat ≤ 8 ∧
      RunsOutAfter 1 (encodeRecords [] ++ [0xD0#8, 0x64#8]) pausing) ∧
    (let s := small [[.timer]] [0xD1#8, 0x20#8] .cmd;
      encode true (.dWrite 0x20#8 0x00#8) = [0xD1#8, 0x20#8] ++ [0x00#8] ∧
        (encodeRecords []).length + (encode true (.dWrite 0x20#8 0x00#8)).length ≤
          (3#8 : Byte).toNat ∧
        QueueInv 8 s.q ∧ s.q.count + (3#8 : Byte).toNat ≤ 8 ∧
        RunsOutAfter 1 (encodeRecords [] ++ [0xD1#8, 0x20#8]) s) ∧
    (let s := small [[], [], [.hostSends 0xD2#8]] [] .cmd;
      encode true .dClose = [] ++ [0xD2#8] ∧
        (encodeRecords []).length + (encode true .dClose).length ≤ (1#8 : Byte).toNat ∧
        QueueInv 8 s.q ∧ s.q.count + (1#8 : Byte).toNat ≤ 8 ∧
        RunsOutAfter 1 (encodeRecords [] ++ []) s) ∧
    let s := small [] [0xD2#8] .cmd;
    (∀ x ∈ [Instr.dClose], isQueueRecord x = true) ∧ isQueueRecord (.dWrite 0x20#8 0x00#8) = true ∧
      encode true (.dWrite 0x20#8 0x00#8) = [] ++ [0xD1#8, 0x20#8, 0x00#8] ∧
      (encodeRecords [.dClose]).length + (encode true (.dWrite 0x20#8 0x00#8)).length ≤
        (4#8 : Byte).toNat ∧
      QueueInv 8 s.q ∧ s.q.count + (4#8 : Byte).toNat ≤ 8 ∧
      RunsOutAfter 1 (encodeRecords [.dClose] ++ []) s := by
  unfold RunsOutAfter ArrivesInTime QueueInv
  exact ⟨by decide, by decide, by decide, by decide⟩

/-- V-I18, in the pause: `C1 03 D0 64` has come, and `00` comes in the next slot. -/
def stalled : State :=
  (holding 0 [0xD0#8, 0x64#8] (small [[.hostSends 0x00#8]] [] (.warg 1))).setI
    { cmd := 0xC1#8, len := 3#8, rem := 3#8, op := 0xD0#8, n := 3#2 }

/-- A wait at the start of a record of a C.WRITE with `rem` bytes to come. -/
def stalledAtStart (rem : Byte) (sched : List (List EnvEvent)) : State :=
  (small sched [] .wop).setI { cmd := 0xC1#8, len := rem, rem := rem, op := 0#8, n := 0#2 }

/-- A wait for `k` operand bytes of a Sleep that has one byte of payload behind it. -/
def stalledInside (k : Nat) (sched : List (List EnvEvent)) : State :=
  (holding 0 ([0xD0#8, 0x64#8].take (3 - k)) (small sched [] (.warg k))).setI
    { cmd := 0xC1#8, len := 4#8, rem := 4#8, op := 0xD0#8, n := 3#2 }

theorem queueInv_stalled : QueueInv 8 stalled.q := by unfold QueueInv; decide

/-- The state in the pause is the one that the C.WRITE before it ends in. -/
theorem witness_WaitingCWriteGoesOn_reached :
    (nextOf (exec (.cWrite 3#8) pausing)).map
        (fun s => (s.phase, s.rx, s.q, { s.i with cmd := 0xC1#8, len := 3#8 }, s.env)) =
      some (stalled.phase, stalled.rx, stalled.q, stalled.i, stalled.env) := by decide

/-- The premises of WaitingCWriteGoesOn on the state. -/
def CanGoOn (k rem : Nat) (s : State) : Prop :=
  PayloadLeft k rem s ∧ QueueInv s.cfg.cap s.q ∧ s.q.count + k + rem ≤ s.cfg.cap

/-- They hold in `P_WARG` and in `P_WOP`, whatever the host sends next. -/
theorem witness_WaitingCWriteGoesOn :
    CanGoOn 1 0 stalled ∧ (∀ sched, CanGoOn 1 1 (stalledInside 1 sched)) ∧
      (∀ sched, CanGoOn 2 1 (stalledInside 2 sched)) ∧
      (∀ sched, CanGoOn 0 1 (stalledAtStart 1#8 sched)) ∧
      ∀ sched, CanGoOn 0 3 (stalledAtStart 3#8 sched) := by
  have h : CanGoOn 1 0 stalled ∧ CanGoOn 1 1 (stalledInside 1 []) ∧
      CanGoOn 2 1 (stalledInside 2 []) ∧ CanGoOn 0 1 (stalledAtStart 1#8 []) ∧
      CanGoOn 0 3 (stalledAtStart 3#8 []) := by
    unfold CanGoOn PayloadLeft QueueInv
    exact ⟨by decide, by decide, by decide, by decide, by decide⟩
  exact ⟨h.1, fun _ => h.2.1, fun _ => h.2.2.1, fun _ => h.2.2.2.1, fun _ => h.2.2.2.2⟩

/-- Its first clause: V-I18; `P_WARG` with another record to come; and `P_WOP`. -/
theorem witness_WaitingCWriteGoesOn_completes :
    (encodeRecords []).length = 0 ∧ ArrivesInTime 0 ([0x00#8] ++ encodeRecords []) stalled ∧
      (encodeRecords [.dClose]).length = 1 ∧
      ArrivesInTime 0 ([0x00#8] ++ encodeRecords [.dClose])
        (stalledInside 1 [[.hostSends 0x00#8], [], [.hostSends 0xD2#8]]) ∧
      ArrivesInTime 0 ([] ++ encodeRecords [.dClose])
        (stalledAtStart 1#8 [[.hostSends 0xD2#8]]) := by
  unfold ArrivesInTime; decide

/-- Its second: a start that is no opcode, in `P_WOP`; a record that is too long, behind `P_WARG`. -/
theorem witness_WaitingCWriteGoesOn_rejects :
    (encodeRecords []).length < 1 ∧ recLen 0xFF#8 = 0#2 ∧
      ArrivesInTime 0 ([] ++ encodeRecords [] ++ [0xFF#8])
        (stalledAtStart 1#8 [[.hostSends 0xFF#8]]) ∧
      1 - (encodeRecords []).length < (recLen 0xD0#8).toNat ∧
      ArrivesInTime 0 ([0x00#8] ++ encodeRecords [] ++ [0xD0#8])
        (stalledInside 1 [[.hostSends 0x00#8], [], [.hostSends 0xD0#8]]) := by
  unfold ArrivesInTime; decide

/-- Its third: at the start of a record, whose byte comes a slot too late, behind `P_WARG`; inside one,
in `P_WOP`. -/
theorem witness_WaitingCWriteGoesOn_waits :
    (encode true .dClose = [] ++ [0xD2#8] ∧
      (encodeRecords []).length + (encode true .dClose).length ≤ 1 ∧
      RunsOutAfter 0 ([0x00#8] ++ encodeRecords [] ++ [])
        (stalledInside 1 [[.hostSends 0x00#8], [], [], [.hostSends 0xD2#8]])) ∧
    encode true (.dWrite 0x20#8 0x00#8) = [0xD1#8] ++ [0x20#8, 0x00#8] ∧
      (encodeRecords []).length + (encode true (.dWrite 0x20#8 0x00#8)).length ≤ 3 ∧
      RunsOutAfter 0 ([] ++ encodeRecords [] ++ [0xD1#8])
        (stalledAtStart 3#8 [[.hostSends 0xD1#8]]) := by
  unfold RunsOutAfter ArrivesInTime; decide

/-- Its last: one of the two missing operand bytes comes; none comes. -/
theorem witness_WaitingCWriteGoesOn_waitsInside :
    RunsOutAfter 0 [0x64#8] (stalledInside 2 [[.timer, .hostSends 0x64#8]]) ∧
      RunsOutAfter 0 [] (stalledInside 1 [[.timer]]) := by
  unfold RunsOutAfter ArrivesInTime; decide

theorem lineFree_small (rx : List Byte) (p : Phase) : LineFree (small [] rx p) :=
  ⟨rfl, fun _ h => nomatch h⟩

theorem witness_CWriteRepliesAtMostOnce :
    LineFree (small [] [0xD2#8] .cmd) ∧
      (∃ t, exec (.cWrite 1#8) (small [] [0xD2#8] .cmd) = .next t ∧ t.phase = .consume) ∧
      ∃ t, exec (.cWrite 2#8) (small [] [0xD2#8] .cmd) = .next t ∧ t.phase = .wop :=
  ⟨lineFree_small _ _, ⟨_, rfl, rfl⟩, _, rfl, rfl⟩

/-- With a period that ends during the store. -/
theorem witness_DSleepLoadsTheCountdown :
    let s := holding 6 [0xD0#8, 0x0A#8, 0x00#8] (small [[], [], [], [], [.timer]] [] .consume)
    InterruptIdle s.t ∧ OnePeriodAtATime s ∧ QueueInv 8 s.q ∧ 3 ≤ s.q.count ∧
      timerCount ((s.env.sched.drop 4).take 1) = 1 :=
  ⟨⟨rfl, rfl⟩, onePeriod_of (by decide), by unfold QueueInv; decide, by decide, by decide⟩

theorem witness_DWriteDrivesTheChip :
    QueueInv 8 (holding 6 [0xD1#8, 0x40#8, 0x3F#8] (small [] [] .consume)).q ∧
      3 ≤ (holding 6 [0xD1#8, 0x40#8, 0x3F#8] (small [] [] .consume)).q.count :=
  ⟨queueInv_holding, by decide⟩

theorem witness_DCloseClearsAndResets :
    QueueInv 8 (holding 7 [0xD2#8] (small [] [] .consume)).q ∧
      1 ≤ (holding 7 [0xD2#8] (small [] [] .consume)).q.count :=
  ⟨by unfold QueueInv; decide, by decide⟩

theorem witness_UnassignedDiscriminatorIsDropped :
    QueueInv 8 (holding 0 [0x00#8] (small [] [] .consume)).q ∧
      1 ≤ (holding 0 [0x00#8] (small [] [] .consume)).q.count :=
  ⟨by unfold QueueInv; decide, by decide⟩

/-- The small machine without length bytes in its packets. -/
def shortHeader : State :=
  { small [] [0xC0#8, 0xC1#8] .cmd with cfg := { smallCfg with hdrLenAlways := false } }

/-- A header of two bytes, and one of one byte; and one whose bytes both come while the step runs. -/
theorem witness_StepRunsThePacketOnRx :
    ((small [] [0xC0#8, 0xFF#8, 0x12#8] .cmd).phase = .cmd ∧
      decode true .packet ((small [] [0xC0#8, 0xFF#8, 0x12#8] .cmd).rx ++ hostBytes []) =
        .ok (.cReset 0xFF#8, [0x12#8])) ∧
    (shortHeader.phase = .cmd ∧
      decode shortHeader.cfg.hdrLenAlways .packet
          (shortHeader.rx ++ hostBytes (shortHeader.env.sched.take 1)) =
        .ok (.cReset 0#8, [0xC1#8])) ∧
    let s := small [[.hostSends 0xC2#8], [.hostSends 0x00#8]] [] .cmd
    s.phase = .cmd ∧ s.rx ++ hostBytes (s.env.sched.take 1) ≠ [] ∧
      decode true .packet (s.rx ++ hostBytes (s.env.sched.take 2)) = .ok (.cQuery 0#8, []) ∧
      (s.rx ++ hostBytes (s.env.sched.take 2)).length = 2 + 0 := by decide

/-- The code in `RX`, and a code that comes just in time. -/
theorem witness_HeaderWaitsForItsLength :
    let s := small [[.timer]] [0x21#8] .cmd
    let s' := small [[.hostSends 0xC1#8], [.timer]] [] .cmd
    (s.phase = .cmd ∧ s.rx ++ hostBytes (s.env.sched.take 1) = [0x21#8] ∧
      s.rx ++ hostBytes (s.env.sched.take 2) = [0x21#8] ∧ hasLenByte s.cfg.hdrLenAlways 0x21#8) ∧
    s'.phase = .cmd ∧ s'.rx ++ hostBytes (s'.env.sched.take 1) = [0xC1#8] ∧
      s'.rx ++ hostBytes (s'.env.sched.take 2) = [0xC1#8] ∧
      hasLenByte s'.cfg.hdrLenAlways 0xC1#8 := by decide

/-- The length byte in `RX`, and one that comes just in time. -/
theorem witness_StepRunsThePacketOnceItsLengthComes :
    let s := small [] [0x00#8, 0xC0#8] .len
    let s' := small [[.hostSends 0x03#8]] [] .len
    (s.phase = .len ∧ s.rx ++ hostBytes (s.env.sched.take 1) = 0x00#8 :: [0xC0#8]) ∧
      s'.phase = .len ∧ s'.rx ++ hostBytes (s'.env.sched.take 1) = 0x03#8 :: [] := by decide

/-- A countdown of 1 that ends in time for the GATE read. -/
def lastTick : State :=
  (holding 6 [0xD1#8, 0x40#8, 0x3F#8] (small [[], [.timer]] [] .consume)).setT
    { tick := 0#16, cd := 1#16, irqEn := true, irqPend := false }

theorem witness_StepRunsTheRecordAtTheHead :
    lastTick.phase = .consume ∧ QueueInv 8 lastTick.q ∧ InterruptIdle lastTick.t ∧
      lastTick.t.cd.toNat ≤ timerCount (lastTick.env.sched.take 2) ∧
      decode lastTick.cfg.hdrLenAlways .record (contents 8 lastTick.q) =
        .ok (.dWrite 0x40#8 0x3F#8, []) :=
  ⟨rfl, queueInv_holding, ⟨rfl, rfl⟩, by decide, by decide⟩

/-- An empty queue; and a countdown that the coming TICK does not end. -/
theorem witness_ConsumeDoesNothingWhenHeldBack :
    ((small [] [] .consume).phase = .consume ∧ InterruptIdle (small [] [] .consume).t ∧
      (small [] [] .consume).q.count = 0) ∧
    InterruptIdle (lastTick.setT { lastTick.t with cd := 2#16 }).t ∧
      timerCount ((lastTick.setT { lastTick.t with cd := 2#16 }).env.sched.take 2) <
        (lastTick.setT { lastTick.t with cd := 2#16 }).t.cd.toNat :=
  ⟨⟨rfl, ⟨rfl, rfl⟩, rfl⟩, ⟨rfl, rfl⟩, by decide⟩

/-- A status reply, a QUERY reply, and the rest of one. -/
theorem witness_StepRunsThePendingReply :
    ((small [] [] (.reply [0xE1#8])).phase = .reply [0xE1#8] ∧
      decode true .reply [0xE1#8] = .ok (.eInvalid, [])) ∧
    ((small [] [] (.reply [0xE0#8, 8#8, 0#8, 2#8, 0#8])).phase =
        .reply [0xE0#8, 8#8, 0#8, 2#8, 0#8] ∧
      decode true .queryReply [0xE0#8, 8#8, 0#8, 2#8, 0#8] = .ok (.eOkQ 8#16 2#16, [])) ∧
    (small [] [] (.reply [0#8, 2#8, 0#8])).phase = .reply [0#8, 2#8, 0#8] := by decide

theorem witness_PollChoosesIngestOrConsume : (small [] [] .poll).phase = .poll := by decide
/-- A step at `P_STATUS`; and a step at `P_BOOT` and one elsewhere. -/
theorem witness_StatusFollowsTheOccupancy :
    (small [] [] .status).phase = .status ∧
      (∃ t, step (small [] [] .boot) = .next t ∧ t.status = .empty) ∧
      ∃ t, step ((small [] [] .poll).setStatus .nonempty) = .next t ∧ t.status = .nonempty :=
  ⟨rfl, ⟨_, rfl, rfl⟩, _, rfl, rfl⟩

/-- Each phase in which the main context can wait; and a step that ends in one. -/
theorem witness_WaitingMainContextOnlyLetsTimePass :
    ((small [[.timer]] [] .len).rx = [] ∧
      hostBytes ((small [[.timer]] [] .len).env.sched.take 1) = [] ∧
      (small [[.timer]] [] .len).phase = .len ∧ (small [[.timer]] [] .cmd).phase = .cmd ∧
      (small [[.timer]] [] (.warg 1)).phase = .warg (0 + 1) ∧
      (stalledAtStart 1#8 [[.timer]]).rx = [] ∧
      hostBytes ((stalledAtStart 1#8 [[.timer]]).env.sched.take 1) = [] ∧
      (stalledAtStart 1#8 [[.timer]]).phase = .wop ∧
      (stalledAtStart 1#8 [[.timer]]).i.rem ≠ 0#8) ∧
    (((small [] [] (.reply [0xE0#8])).setEnv ⟨false, []⟩).env.txReady = false ∧
      (∀ es ∈ ((small [] [] (.reply [0xE0#8])).setEnv ⟨false, []⟩).env.sched.take 1,
        EnvEvent.transmitter true ∉ es) ∧
      ((small [] [] (.reply [0xE0#8])).setEnv ⟨false, []⟩).phase = .reply (0xE0#8 :: [])) ∧
    (nextOf (step (small [] [0xC1#8, 0x03#8, 0xD0#8, 0x64#8] .cmd))).map (fun t => t.phase) =
      some (.warg 1) := by
  decide

theorem witness_InvariantsHoldAtReset :
    smallCfg.wf ∧ ({ smallCfg with cap := 65535 } : Config.Params).wf ∧
      Config.Params.reference.wf := by decide

/-! A machine in the middle of a C.WRITE that waits for one operand byte meets every invariant. -/

theorem machineInv_stalled : MachineInv stalled :=
  ⟨by decide, queueInv_stalled,
    show 1 < stalled.i.n.toNat ∧ stalled.i.n.toNat ≤ stalled.i.rem.toNat ∧
      stalled.q.count + 1 + (stalled.i.rem.toNat - stalled.i.n.toNat) ≤ stalled.cfg.cap by decide,
    ⟨by decide, fun _ h => nomatch h⟩, rfl, rfl⟩

theorem contents_stalled : contents stalled.cfg.cap stalled.q = [0xD0#8, 0x64#8] := by decide

theorem recordsInv_stalled : RecordsInv stalled := by
  intro bs hbs
  rw [contents_stalled]
  match bs, hbs with
  | [b], _ => exact ⟨[.dSleep (wordOfBytes 0x64#8 b)], by simp [isQueueRecord],
      by simp [encodeRecords, encode, bytesOfWord]⟩

theorem step_stalled : ∃ t, step stalled = .next t ∧ t.phase = .consume := ⟨_, rfl, rfl⟩

theorem witness_StepKeepsTheMachineInvariant :
    MachineInv stalled ∧ ∃ t, step stalled = .next t :=
  ⟨machineInv_stalled, _, rfl⟩

theorem witness_StepKeepsWholeRecords :
    MachineInv stalled ∧ RecordsInv stalled ∧ ∃ t, step stalled = .next t :=
  ⟨machineInv_stalled, recordsInv_stalled, _, rfl⟩

/-- A queue with one record, about to be consumed. -/
def ready : State := holding 6 [0xD1#8, 0x40#8, 0x3F#8] (small [] [] .consume)

theorem machineInv_ready : MachineInv ready :=
  ⟨by decide, queueInv_holding, trivial, ⟨by decide, fun _ h => nomatch h⟩, rfl, rfl⟩

theorem recordsInv_ready : RecordsInv ready := ⟨[.dWrite 0x40#8 0x3F#8], by decide, by decide⟩

theorem witness_StepKeepsTheBusDiscipline :
    BusAtRest ready.dev ∧ ∃ t, step ready = .next t ∧ t.dev.bus.length = 12 :=
  ⟨⟨rfl, rfl, rfl⟩, _, rfl, rfl⟩

/-- CONSUME with a record at the head, and a step of Command Ingestion that appends. -/
theorem witness_QueuePreconditionsAlwaysHold :
    (MachineInv ready ∧ RecordsInv ready ∧ (∃ t, step ready = .next t) ∧
      ready.phase = .consume ∧ 0 < ready.q.count) ∧
    MachineInv stalled ∧ RecordsInv stalled ∧ stalled.phase ≠ .boot ∧ stalled.phase ≠ .consume ∧
      ∃ t, step stalled = .next t ∧ t.q.count = 3 ∧ t.rx = [] :=
  ⟨⟨machineInv_ready, recordsInv_ready, ⟨_, rfl⟩, rfl, by decide⟩, machineInv_stalled,
    recordsInv_stalled, by decide, by decide, _, rfl, rfl, rfl⟩

theorem witness_ConsumeRemovesAtMostOneRecord :
    ready.phase = .consume ∧ ∃ t, step ready = .next t ∧ t.q.count = 0 := ⟨rfl, _, rfl, rfl⟩

/-- A step that appends, and a C.RESET. -/
theorem witness_IngestionOnlyAppends :
    (MachineInv stalled ∧ stalled.phase ≠ .boot ∧ stalled.phase ≠ .consume ∧
      ∃ t, step stalled = .next t ∧ t.q.count = 3) ∧
    let s := (stalled.setRx [0xC0#8, 0x00#8]).setPhase .cmd
    MachineInv s ∧ s.phase ≠ .boot ∧ s.phase ≠ .consume ∧
      ∃ t, step s = .next t ∧ ClearedByReset s t :=
  ⟨⟨machineInv_stalled, by decide, by decide, _, rfl, rfl⟩,
    ⟨machineInv_stalled.1, queueInv_stalled, trivial, machineInv_stalled.2.2.2⟩, by decide,
    by decide, _, rfl, .inl rfl, rfl, rfl⟩

theorem witness_OnlyRepliesReachTheHost :
    ∃ t, step ready = .next t ∧ ready.phase = .consume := ⟨_, rfl, rfl⟩

/-- A D.SLEEP whose store a period falls into, and a step of Command Ingestion. -/
theorem witness_CountersMoveByTickAndSleepOnly :
    let s := holding 0 [0xD0#8, 5#8, 0#8] (small [[], [], [], [], [], [], [.timer]] [] .consume)
    InterruptIdle s.t ∧ OnePeriodAtATime s ∧
      (∃ t, step s = .next t ∧ t.t.tick = 1#16 ∧ t.t.cd = 4#16) ∧
      OnePeriodAtATime stalled ∧ stalled.phase ≠ .consume ∧ ∃ t, step stalled = .next t :=
  ⟨⟨rfl, rfl⟩, by unfold OnePeriodAtATime; decide, ⟨_, rfl, by decide, by decide⟩,
    by unfold OnePeriodAtATime; decide, by decide, _, rfl⟩

theorem witness_ParametersNeverChange : ∃ t, step ready = .next t := ⟨_, rfl⟩

/-- A sleep of 3, two TICKs, and nothing consumed in three steps. -/
theorem witness_NoRecordRunsDuringASleep :
    let s := (holding 6 [0xD1#8, 0x40#8, 0x3F#8] (small [[.timer], [.timer]] [] .consume)).setT
      { tick := 0#16, cd := 3#16, irqEn := true, irqPend := false }
    InterruptIdle s.t ∧ ∃ t, Host.Core.run core 3 s = .next t ∧
      timerCount s.env.sched < timerCount t.env.sched + s.t.cd.toNat ∧ t.t.cd = 1#16 :=
  ⟨⟨rfl, rfl⟩, _, rfl, by decide, by decide⟩

/-- A closed gate: a period of 2, the next to end at the end of the second slot, each slot one unit
long, and a countdown of 3. -/
theorem witness_SleepIsBoundedInTime_closed :
    let time : Config.Timing := { tTick := 2, tStrobe := 1, tRst := 1 }
    let s := (holding 6 [0xD1#8, 0x40#8, 0x3F#8]
        (small [[], [.timer], [], [.timer], []] [] .consume)).setT
      { tick := 0#16, cd := 3#16, irqEn := true, irqPend := false }
    InterruptIdle s.t ∧ Periodic time 2 id s ∧ s.t.gateOpen = false ∧
      ∃ t, Host.Core.run core 2 s = .next t ∧
        id (slotsUsed s t) ≤ (s.t.cd.toNat - 1) * time.tTick :=
  ⟨⟨rfl, rfl⟩, by unfold Periodic; decide, by decide, _, rfl, by decide⟩

/-- A period of 6, a countdown of 1, and a record: the TICK falls in the sixth slot. -/
def sleeping : State :=
  (holding 6 [0xD1#8, 0x40#8, 0x3F#8]
      (small [[], [], [], [], [], [.timer], []] [] .consume)).setT
    { tick := 0#16, cd := 1#16, irqEn := true, irqPend := false }

/-- A gate that opens: held back at first, the main context comes to `P_CONSUME` again after three
steps, and its GATE read there comes at `N · T_TICK`. Both ways to say that it is the first. -/
theorem witness_SleepIsBoundedInTime_open :
    let time : Config.Timing := { tTick := 6, tStrobe := 1, tRst := 1 }
    let s := sleeping
    0 < 6 ∧ 6 ≤ time.tTick ∧ InterruptIdle s.t ∧ Periodic time 6 id s ∧ s.t.gateOpen = false ∧
      ∃ t, Host.Core.run core 3 s = .next t ∧ t.phase = .consume ∧ QueueInv 8 t.q ∧
        slotsUsed s t + 2 ≤ s.env.sched.length ∧
        timerCount s.env.sched < timerCount t.env.sched + s.t.cd.toNat ∧
        s.t.cd.toNat * time.tTick ≤ id (slotsUsed s t + 2) ∧
        s.t.gateOpensAt time 6 ≤ id (slotsUsed s t + 2) ∧
        (∀ m u, m < 3 → Host.Core.run core m s = .next u → u.phase = .consume →
          0 < u.q.count → id (slotsUsed s u + 2) < s.t.gateOpensAt time 6) ∧
        decode true .record (contents 8 t.q) = .ok (.dWrite 0x40#8 0x3F#8, []) := by
  refine ⟨by decide, by decide, ⟨rfl, rfl⟩, by unfold Periodic; decide, by decide, _, rfl, rfl,
    queueInv_holding, by decide, by decide, by decide, by decide, ?_, by decide⟩
  intro m u hm hr hp _
  match m, hm with
  | 0, _ => cases hr; decide
  | 1, _ => cases hr; cases hp
  | 2, _ => cases hr; cases hp

end Sys2Proof.Tests
end

/-! PROOFS. The statements of 10_state.md: the conditions, block reset, the parameters, and the
machine's invariant. What a step does to the parameters, the queue and the device side is said once, in
`step_effect`; the invariant's parts follow from it, each from one lemma for each operation. -/

namespace Sys2Proof.Proofs

open Sys2Proof.Machine Sys2Proof.Safety Sys2Proof.Laws

/-! ## The conditions (R24) -/

theorem isEmpty_iff (q : Queue) : q.isEmpty = true ↔ q.count = 0 := by simp [Queue.isEmpty]

theorem isFull_iff (cap : Nat) (q : Queue) : q.isFull cap = true ↔ q.count = cap := by
  simp [Queue.isFull]

theorem gateOpen_iff (t : TimeBase) : t.gateOpen = true ↔ t.cd = 0#16 := by
  simp [TimeBase.gateOpen]

theorem freeCapacity_add_count {cap : Nat} {q : Queue} (h : q.count ≤ cap) :
    q.freeCapacity cap + q.count = cap := Nat.sub_add_cancel h

/-- Settles O5: with `CAP` at least 1 a queue that is empty after reset is not full. -/
theorem conditionsAreComputed : Obligations.ConditionsAreComputed := by
  refine ⟨fun cap q => ⟨isEmpty_iff q, freeCapacity_add_count, isFull_iff cap q⟩, gateOpen_iff,
    fun cfg sched hcfg => ⟨rfl, rfl, rfl, ?_⟩⟩
  have hpos : (State.ofReset cfg sched).q.count ≠ cfg.cap := (Nat.ne_of_gt hcfg.1).symm
  rwa [← Bool.not_eq_true, isFull_iff]

/-! ## Block reset (R28, R180) -/

/-- Settles O6, entry by entry of the table. -/
theorem resetLeavesTheTable : Obligations.ResetLeavesTheTable :=
  ⟨rfl, fun _ _ => ⟨rfl, rfl, rfl, rfl, rfl, fun _ => rfl, rfl, rfl, rfl, rfl, rfl, rfl, rfl, rfl⟩⟩

/-- A queue that has never been written, with both indices at 0. -/
theorem queueInv_ofReset {cfg : Config.Params} (hcap : 0 < cfg.cap)
    (sched : List (List EnvEvent)) : QueueInv cfg.cap (State.ofReset cfg sched).q :=
  ⟨hcap, hcap, Nat.zero_le _, (Nat.zero_mod _).symm, .nil, fun _ hc => absurd hc List.not_mem_nil,
    fun _ hi => absurd hi (Nat.not_lt_zero _)⟩

theorem shadowInv_ofReset (cfg : Config.Params) (sched : List (List EnvEvent)) :
    ShadowInv (State.ofReset cfg sched).dev :=
  ⟨.nil, fun _ hc => absurd hc List.not_mem_nil⟩

theorem machineInv_ofReset {cfg : Config.Params} (hcfg : cfg.wf)
    (sched : List (List EnvEvent)) : MachineInv (State.ofReset cfg sched) :=
  ⟨hcfg, queueInv_ofReset hcfg.1 sched, trivial, shadowInv_ofReset cfg sched, rfl, rfl⟩

/-- The empty queue holds no record, and so only whole ones. -/
theorem recordsInv_ofReset (cfg : Config.Params) (sched : List (List EnvEvent)) :
    RecordsInv (State.ofReset cfg sched) :=
  ⟨[], fun _ hr => absurd hr List.not_mem_nil, rfl⟩

/-- Settles O48, invariant by invariant. -/
theorem invariantsHoldAtReset : Obligations.InvariantsHoldAtReset := fun cfg sched hcfg =>
  ⟨machineInv_ofReset hcfg sched, recordsInv_ofReset cfg sched, rfl, rfl, rfl⟩

/-! ## What a step does to the parameters, the queue and the device side -/

/-- What a step can do to the queue: QAPPENDs (none of them where it is left alone), QREMOVEs, or a
QCLEAR. -/
inductive QueueEffect (cap : Nat) (q q' : Queue) : Prop
  | appended (bs : List Byte) (e : q' = Queue.appendAll cap bs q)
  | removed (n : Nat) (e : q' = (Queue.advance cap)^[n] q)
  | cleared (e : q' = q.clear)

/-- What a step can do to the device side: nothing, one DEVWRITE, or one CHIPRESET. -/
inductive DeviceEffect (seq : List (Byte × Byte)) (dev dev' : Device) : Prop
  | kept (e : dev' = dev)
  | written (a v : Byte) (e : dev' = Device.written a v dev)
  | reset (e : dev' = Device.resetDone seq dev)

/-- What a step can do to the parameters, the queue and the device side. -/
structure StepEffect (s t : State) : Prop where
  cfg : t.cfg = s.cfg
  queue : QueueEffect s.cfg.cap s.q t.q
  device : DeviceEffect s.cfg.resetWriteSeq s.dev t.dev

/-- A header has been read before it. -/
theorem StepEffect.of_fetch {s u t : State} (f : FetchFrame s u) (h : StepEffect u t) :
    StepEffect s t := by
  obtain ⟨fcfg, fq, fdev, -⟩ := f
  obtain ⟨hcfg, hq, hdev⟩ := h
  rw [fcfg, fq] at hq
  rw [fcfg, fdev] at hdev
  exact ⟨hcfg.trans fcfg, hq, hdev⟩

/-- Reading a header does nothing to the three. -/
theorem StepEffect.fetch {s t : State} (f : FetchFrame s t) : StepEffect s t :=
  .of_fetch f ⟨rfl, .appended [] rfl, .kept rfl⟩

/-- A reply is sent after it. -/
theorem StepEffect.reply (bs : List Byte) {s u : State} (h : StepEffect s u) :
    StepEffect s (sendReply bs u) := by
  obtain ⟨rcfg, rq, rdev, -⟩ := sendReply_frame bs u
  exact ⟨rcfg.trans h.cfg, rq ▸ h.queue, rdev ▸ h.device⟩

/-- QCLEAR sets the read index, so a QREMOVE before it makes no difference. -/
theorem advance_clear (cap : Nat) (q : Queue) : (q.advance cap).clear = q.clear := by
  unfold Queue.advance; split <;> rfl

/-- QCLEAR and CHIPRESET, as boot, C.RESET and D.CLOSE run them. -/
theorem clearAndReset_frame (s : State) :
    (chipReset (qClear s)).cfg = s.cfg ∧ (chipReset (qClear s)).q = s.q.clear ∧
      (chipReset (qClear s)).dev = Device.resetDone s.cfg.resetWriteSeq s.dev := by
  obtain ⟨cq, ccfg, cdev, -⟩ := qClear_frame s
  obtain ⟨⟨rcfg, rq, -⟩, -, rdev⟩ := chipReset_spec (qClear s)
  exact ⟨rcfg.trans ccfg, rq.trans cq, by rw [rdev, ccfg, cdev]⟩

theorem clearAndReset_effect (s : State) : StepEffect s (chipReset (qClear s)) :=
  have ⟨hcfg, hq, hdev⟩ := clearAndReset_frame s
  ⟨hcfg, .cleared hq, .reset hdev⟩

theorem boot_effect (s : State) : StepEffect s (boot s) := by
  obtain ⟨ucfg, uq, udev, -⟩ := statusUpdate_frame (chipReset (qClear s))
  obtain ⟨hcfg, hq, hdev⟩ := clearAndReset_frame s
  exact ⟨ucfg.trans hcfg, .cleared (uq.trans hq), .reset (udev.trans hdev)⟩

theorem updateStatus_effect (s : State) : StepEffect s (updateStatus s) :=
  have ⟨ucfg, uq, udev, _⟩ := statusUpdate_frame s
  ⟨ucfg, .appended [] uq, .kept udev⟩

theorem recordLoop_effect (fuel : Nat) (s : State) : StepEffect s (recordLoop fuel s) :=
  have ⟨bs, hq, _, _, hcfg, hdev, _⟩ := recordLoop_frame fuel s
  ⟨hcfg, .appended bs hq, .kept hdev⟩

theorem resumeOperands_effect (k : Nat) (s : State) : StepEffect s (resumeOperands k s) :=
  have ⟨bs, hq, _, _, hcfg, hdev, _⟩ := resumeOperands_frame k s
  ⟨hcfg, .appended bs hq, .kept hdev⟩

/-- A record takes its own bytes from the queue: three, or one. -/
theorem recordCase_effect {s t : State} (h : RecordCase s t) : StepEffect s t := by
  cases h with
  | sleep d e =>
    subst e
    obtain ⟨oq, ocfg, odev, -⟩ :=
      removeOperands_frame Config.opSleep (lowByte d) (highByte d) s
    obtain ⟨cq, ccfg, cdev, -⟩ := setCountdown_frame d
      (removeOperands (lowByte d) (highByte d) (removeDiscriminator Config.opSleep s))
    exact ⟨ccfg.trans ocfg, .removed 3 (cq.trans oq), .kept (cdev.trans odev)⟩
  | write a v e =>
    subst e
    obtain ⟨oq, ocfg, odev, -⟩ := removeOperands_frame Config.opWrite a v s
    obtain ⟨⟨wcfg, wq, -⟩, -, wdev⟩ :=
      devWrite_spec a v (removeOperands a v (removeDiscriminator Config.opWrite s))
    exact ⟨wcfg.trans ocfg, .removed 3 (wq.trans oq), .written a v (odev ▸ wdev)⟩
  | close e =>
    subst e
    obtain ⟨dq, dcfg, ddev, -⟩ := qRemoveInto_frame (fun k => { k with d := Config.opClose }) s
    obtain ⟨hcfg, hq, hdev⟩ := clearAndReset_frame (removeDiscriminator Config.opClose s)
    exact ⟨hcfg.trans dcfg, .cleared (hq.trans (dq ▸ advance_clear _ _)),
      .reset (by rw [State.setPhase_dev, hdev]; exact congrArg₂ _ (congrArg _ dcfg) ddev)⟩
  | other d e =>
    subst e
    obtain ⟨dq, dcfg, ddev, -⟩ := qRemoveInto_frame (fun k => { k with d := d }) s
    exact ⟨dcfg, .removed 1 dq, .kept ddev⟩

theorem step_effect {s t : State} (he : step s = .next t) : StepEffect s t := by
  cases step_cases he with
  | boot h e => exact e ▸ boot_effect s
  | idle h f ht h2 => exact .fetch f
  | reset u h f ht hc e => exact e ▸ .reply _ (.of_fetch f (clearAndReset_effect u))
  | plain u bs h f ht e => exact e ▸ .reply bs (.fetch f)
  | write u fuel h f ht room e => exact e ▸ .of_fetch f (recordLoop_effect fuel u)
  | wop h e => exact e ▸ recordLoop_effect _ s
  | warg k h e => exact e ▸ resumeOperands_effect k s
  | held h f el e => exact .fetch f
  | record h hc hg e =>
    exact .of_fetch ((interleave_fetchFrame s).trans (interleave_fetchFrame _))
      (recordCase_effect (exec_decodeInner_cases e))
  | status h e => exact e ▸ updateStatus_effect s

/-- Settles O57: no effect of a step is on the parameters. -/
theorem parametersNeverChange : Obligations.ParametersNeverChange := fun _ _ he =>
  (step_effect he).cfg

/-! ## The queue's invariant (R11 to R13, R84) -/

theorem queueInv_of_effect {cap : Nat} {q q' : Queue} (h : QueueInv cap q)
    (he : QueueEffect cap q q') : QueueInv cap q' := by
  cases he with
  | appended bs e => exact e ▸ appendAll_inv bs h
  | removed n e => exact e ▸ Function.Iterate.rec (QueueInv cap) h (fun _ => advance_inv) n
  | cleared e =>
    have hcap : 0 < cap := Nat.zero_lt_of_lt h.1
    exact e ▸ clear_inv hcap h

/-! ## The shadow state's invariant (R18) -/

/-- A pin change or delay leaves the shadow state alone. -/
@[simp] theorem drive_sh (dev : Device) (e : PinEvent) : (dev.drive e).sh = dev.sh := by
  cases e <;> rfl

@[simp] theorem foldl_drive_sh (es : List PinEvent) (dev : Device) :
    (es.foldl Device.drive dev).sh = dev.sh := by
  induction es generalizing dev with
  | nil => rfl
  | cons e es ih => rw [List.foldl_cons, ih, drive_sh]

/-- The address of a shadow entry is a byte. -/
theorem shadowInv_written {dev : Device} (h : ShadowInv dev) (a v : Byte) :
    ShadowInv (Device.written a v dev) := by
  obtain ⟨hwf, haddr⟩ := h
  have hsh : (Device.written a v dev).sh = Memory.write dev.sh a.toNat v := by
    simp [Device.written, Device.shadow]
  rw [ShadowInv, hsh]
  refine ⟨Memory.write_wf hwf _ _, fun c hc => ?_⟩
  rcases Memory.mem_write hc with rfl | hc
  · exact a.isLt
  · exact haddr c hc

theorem shadowInv_writtenAll (seq : List (Byte × Byte)) {dev : Device} (h : ShadowInv dev) :
    ShadowInv (Device.writtenAll seq dev) := by
  induction seq generalizing dev with
  | nil => exact h
  | cons av seq ih => exact ih (shadowInv_written h av.1 av.2)

theorem shadowInv_of_effect {seq : List (Byte × Byte)} {dev dev' : Device} (h : ShadowInv dev)
    (he : DeviceEffect seq dev dev') : ShadowInv dev' := by
  cases he with
  | kept e => exact e ▸ h
  | written a v e => exact e ▸ shadowInv_written h a v
  | reset e =>
    have hpulse : ShadowInv (resetPulseTrace.foldl Device.drive dev) := by
      rwa [ShadowInv, foldl_drive_sh]
    exact e ▸ shadowInv_writtenAll seq hpulse

/-! ## The room that C.WRITE has checked for (R85, R102, R103) -/

/-- The phases in which a C.WRITE waits for its payload. -/
def waitsForPayload : Phase → Bool
  | .wop => true
  | .warg _ => true
  | _ => false

/-- Where no C.WRITE waits there is no room to keep. -/
theorem ingestInv_of_not_waiting {s : State} (h : waitsForPayload s.phase = false) :
    IngestInv s := by
  unfold IngestInv
  split
  · rename_i hp; rw [hp] at h; cases h
  · rename_i k hp; rw [hp] at h; cases h
  · trivial

theorem ingestInv_wop_iff {s : State} (h : s.phase = .wop) :
    IngestInv s ↔ s.q.count + s.i.rem.toNat ≤ s.cfg.cap := by
  simp only [IngestInv, h]

theorem ingestInv_warg_iff {s : State} {k : Nat} (h : s.phase = .warg k) :
    IngestInv s ↔ k < s.i.n.toNat ∧ s.i.n.toNat ≤ s.i.rem.toNat ∧
      s.q.count + k + (s.i.rem.toNat - s.i.n.toNat) ≤ s.cfg.cap := by
  simp only [IngestInv, h]

/-- After a reply the main context goes on, or waits for the transmitter. -/
theorem ingestInv_sendReply (bs : List Byte) (s : State) : IngestInv (sendReply bs s) := by
  apply ingestInv_of_not_waiting
  obtain ⟨-, -, -, -, -, -, -, -, hp | ⟨p, hp⟩⟩ := sendReply_frame bs s <;> rw [hp] <;> rfl

/-- `I.rem` after a whole record that fits in it. -/
theorem recordDone_rem {s : State} (h : s.i.n.toNat ≤ s.i.rem.toNat) :
    s.recordDone.i.rem.toNat = s.i.rem.toNat - s.i.n.toNat := by
  have hw : (s.i.n.setWidth 8).toNat = s.i.n.toNat :=
    BitVec.toNat_setWidth_of_le (by decide)
  change (s.i.rem - s.i.n.setWidth 8).toNat = _
  rw [BitVec.toNat_sub_of_le (by rwa [BitVec.le_def, hw]), hw]

/-- The record loop uses up as much of the room as it takes from the remaining length. -/
theorem recordLoop_ingestInv (fuel : Nat) {s : State} (hq : QueueInv s.cfg.cap s.q)
    (room : s.q.count + s.i.rem.toNat ≤ s.cfg.cap) : IngestInv (recordLoop fuel s) := by
  obtain ⟨n, rs, part, bad, u, -, -, -, -, frame, hu, hle, hrem, hend⟩ := recordLoop_cases fuel s
  have hcfg : u.cfg = s.cfg := frame.1
  have hcount (h : (encodeRecords rs ++ part).length ≤ s.i.rem.toNat) :
      u.q.count = s.q.count + (encodeRecords rs ++ part).length := by
    rw [hu]; exact (appendAll_contents _ hq (by omega)).2.1
  rw [List.length_append] at hcount
  rcases hend with ⟨-, -, -, e⟩ | ⟨-, -, e⟩ | ⟨hp, -, e, -⟩ |
    ⟨op, args, k, hp, -, -, hlen, hn, hfit, -, e⟩
  · exact e ▸ ingestInv_sendReply _ u
  · exact e ▸ ingestInv_sendReply _ u
  · rw [e, ingestInv_wop_iff rfl]
    simp only [hp, List.length_nil] at hcount
    simp only [State.setPhase_q, State.setPhase_i, State.setPhase_cfg, hcfg]
    omega
  · rw [e, ingestInv_warg_iff rfl]
    simp only [hp, List.length_cons] at hcount
    simp only [State.setPhase_q, State.setPhase_i, State.setPhase_cfg, hcfg, hn]
    omega

theorem resumeOperands_ingestInv (k : Nat) {s : State} (hq : QueueInv s.cfg.cap s.q)
    (hk : k < s.i.n.toNat) (hn : s.i.n.toNat ≤ s.i.rem.toNat)
    (room : s.q.count + k + (s.i.rem.toNat - s.i.n.toNat) ≤ s.cfg.cap) :
    IngestInv (resumeOperands k s) := by
  obtain ⟨n, bs, u, -, -, -, frame, hu, hi, hend⟩ := appendOperands_cases k s
  have hcfg : u.cfg = s.cfg := frame.1
  have hcount (h : bs.length ≤ k) : u.q.count = s.q.count + bs.length := by
    rw [hu]; exact (appendAll_contents _ hq (by omega)).2.1
  rcases hend with ⟨hlen, e⟩ | ⟨m, hlen, -, e⟩
  · have hdone : u.recordDone.i.rem.toNat = s.i.rem.toNat - s.i.n.toNat := by
      rw [recordDone_rem (by rwa [hi]), hi]
    have hinv : QueueInv u.recordDone.cfg.cap u.recordDone.q := by
      change QueueInv u.cfg.cap u.q
      rw [hcfg, hu]; exact appendAll_inv bs hq
    have hroom : u.recordDone.q.count + u.recordDone.i.rem.toNat ≤ u.recordDone.cfg.cap := by
      change u.q.count + _ ≤ u.cfg.cap
      rw [hdone, hcfg]; omega
    simp only [resumeOperands, e]
    exact recordLoop_ingestInv _ hinv hroom
  · simp only [resumeOperands, e]
    rw [ingestInv_warg_iff rfl]
    simp only [State.setPhase_q, State.setPhase_i, State.setPhase_cfg, hcfg, hi]
    omega

/-- A step that runs a record ends in `P_STATUS`. -/
theorem recordCase_phase {s t : State} (h : RecordCase s t) : t.phase = .status := by
  cases h with
  | sleep d e => subst e; rfl
  | write a v e => subst e; rfl
  | close e => subst e; rfl
  | other d e => subst e; rfl

/-- Only a C.WRITE, at its start or where it goes on, ends a step in a phase that waits for payload. -/
theorem step_ingestInv {s t : State} (hq : QueueInv s.cfg.cap s.q) (hi : IngestInv s)
    (he : step s = .next t) : IngestInv t := by
  cases step_cases he with
  | boot h e => subst e; exact ingestInv_of_not_waiting rfl
  | idle h f ht hp =>
    apply ingestInv_of_not_waiting
    rcases hp with hp | hp | hp <;> rw [hp] <;> rfl
  | reset u h f ht hc e => exact e ▸ ingestInv_sendReply _ _
  | plain u bs h f ht e => exact e ▸ ingestInv_sendReply bs u
  | write u fuel h f ht room e =>
    obtain ⟨fcfg, fq, -⟩ := f
    rw [← fcfg, ← fq] at hq
    have ⟨_, _, hcount, _⟩ := hq
    exact e ▸ recordLoop_ingestInv fuel hq (room hcount)
  | wop h e => exact e ▸ recordLoop_ingestInv _ hq ((ingestInv_wop_iff h).1 hi)
  | warg k h e =>
    obtain ⟨hk, hn, room⟩ := (ingestInv_warg_iff h).1 hi
    exact e ▸ resumeOperands_ingestInv k hq hk hn room
  | held h f el e => exact ingestInv_of_not_waiting (by rw [e]; rfl)
  | record h hc hg e =>
    exact ingestInv_of_not_waiting (by rw [recordCase_phase (exec_decodeInner_cases e)]; rfl)
  | status h e => subst e; exact ingestInv_of_not_waiting rfl

/-! ## The machine's invariant -/

/-- Settles O49, part by part of the invariant. -/
theorem stepKeepsTheMachineInvariant : Obligations.StepKeepsTheMachineInvariant := by
  rintro s t ⟨hcfg, hq, hi, hsh, hidle⟩ he
  obtain ⟨ecfg, equeue, edev⟩ := step_effect he
  refine ⟨by rwa [ecfg], ?_, step_ingestInv hq hi he, shadowInv_of_effect hsh edev,
    (step_sched hidle he).2⟩
  rw [ecfg]
  exact queueInv_of_effect hq equeue

end Sys2Proof.Proofs

/-! PROOFS. The statements of 20_memory.md: TICK commutes with every instruction but D.SLEEP (R49),
and Command Ingestion only appends behind the queued bytes (R52). For the first, each operation that
stores no countdown is shown to commute with TICK; for the second, what a step outside boot and the
consumer does to the queue is read off `step_cases`. -/

namespace Sys2Proof.Proofs

open Sys2Proof.Machine Sys2Proof.Safety Sys2Proof.Laws

/-! ## TICK between two micro-steps (R49) -/

/-- The state after a TICK: only the Time Base has moved. -/
def ticked (s : State) : State := { s with t := s.t.onTick }

/-- Running TICK before `f` or after it gives the same state. -/
abbrev CommutesWithTick (f : State → State) : Prop := Function.Commute f ticked

/-- TICK writes the two counters and the interrupt its own two bits, so their order does not matter,
also where the interrupt is held off. -/
theorem timerDue_onTick (t : TimeBase) : t.onTick.timerDue = t.timerDue.onTick := by
  by_cases he : t.irqEn = true <;> simp [TimeBase.timerDue, TimeBase.serve, TimeBase.onTick, he]

theorem applyEvent_ticked (s : State) (e : EnvEvent) :
    applyEvent (ticked s) e = ticked (applyEvent s e) := by
  cases e with
  | timer => exact congrArg s.setT (timerDue_onTick s.t)
  | hostSends b => rfl
  | transmitter ready => rfl

theorem interleave_cons {s : State} {events : List EnvEvent} {rest : List (List EnvEvent)}
    (h : s.env.sched = events :: rest) :
    interleave s = events.foldl applyEvent (s.setEnv { s.env with sched := rest }) := by
  simp only [interleave, h]

theorem interleave_ticked : CommutesWithTick interleave := by
  intro s
  cases h : s.env.sched with
  | nil => rw [interleave_quiet h, interleave_quiet (s := ticked s) h]
  | cons events rest =>
    rw [interleave_cons h, interleave_cons (s := ticked s) h]
    exact List.foldl_hom (init := s.setEnv { s.env with sched := rest }) ticked applyEvent_ticked

theorem micro_ticked {f : State → State} (hf : CommutesWithTick f) : CommutesWithTick (micro f) :=
  hf.comp_left interleave_ticked

/-! ## The operations that store no countdown -/

theorem qClear_ticked : CommutesWithTick qClear := micro_ticked fun _ => rfl

theorem qAppend_ticked (b : Byte) : CommutesWithTick (qAppend b) := micro_ticked fun _ => rfl

theorem qRemoveInto_ticked (put : ConsumeRegs → ConsumeRegs) :
    CommutesWithTick (qRemoveInto put) := micro_ticked fun _ => rfl

theorem removeDiscriminator_ticked (d : Byte) : CommutesWithTick (removeDiscriminator d) :=
  qRemoveInto_ticked _

theorem removeOperands_ticked (b0 b1 : Byte) : CommutesWithTick (removeOperands b0 b1) :=
  (qRemoveInto_ticked _).comp_left (qRemoveInto_ticked _)

theorem updateDev_ticked (f : Device → Device) :
    CommutesWithTick (micro fun s => s.setDev (f s.dev)) := micro_ticked fun _ => rfl

theorem driveAll_ticked (es : List PinEvent) : CommutesWithTick (driveAll es) := fun _ =>
  List.foldl_hom ticked fun s e => updateDev_ticked (·.drive e) s

theorem devWrite_ticked (a v : Byte) : CommutesWithTick (devWrite a v) :=
  (updateDev_ticked (·.shadow a v)).comp_left (driveAll_ticked (devWriteTrace a v))

theorem devWrites_ticked (seq : List (Byte × Byte)) : CommutesWithTick (devWrites seq) := fun _ =>
  List.foldl_hom ticked fun s av => devWrite_ticked av.1 av.2 s

/-- `RESET_WRITE_SEQ` is a parameter, which TICK does not touch. -/
theorem chipReset_ticked : CommutesWithTick chipReset := fun s =>
  (devWrites_ticked s.cfg.resetWriteSeq).comp_left (driveAll_ticked resetPulseTrace) s

theorem setPhase_ticked (p : Phase) : CommutesWithTick (·.setPhase p) := fun _ => rfl

/-- Whether the transmitter is ready is not TICK's doing, so the reply is cut at the same byte. -/
theorem sendReply_ticked (bs : List Byte) : CommutesWithTick (sendReply bs) := by
  induction bs with
  | nil => exact setPhase_ticked _
  | cons b bs ih =>
    intro s
    simp only [sendReply, interleave_ticked s]
    have hready : (ticked (interleave s)).env = (interleave s).env := rfl
    rw [hready]
    split
    · exact ih ((interleave s).setTx ((interleave s).tx ++ [b]))
    · rfl

/-! ## The record loop of C.WRITE -/

/-- `RxByte()` finds the same byte, or none. -/
theorem rxByte_ticked (s : State) : rxByte (ticked s) = ((rxByte s).1, ticked (rxByte s).2) := by
  simp only [rxByte, interleave_ticked s]
  have hrx : (ticked (interleave s)).rx = (interleave s).rx := rfl
  rw [hrx]
  split <;> rfl

theorem appendOperands_ticked (k : Nat) (s : State) :
    appendOperands k (ticked s) = (ticked (appendOperands k s).1, (appendOperands k s).2) := by
  induction k generalizing s with
  | zero => rfl
  | succ k ih =>
    simp only [appendOperands, rxByte_ticked s]
    obtain ⟨_ | b, u⟩ := rxByte s
    · rfl
    · exact (congrArg (appendOperands k) (qAppend_ticked b u)).trans (ih (qAppend b u))

/-- No test of a round reads the Time Base: they read `I.rem` and the byte from `RX`. -/
theorem recordLoop_ticked (fuel : Nat) : CommutesWithTick (recordLoop fuel) := by
  induction fuel with
  | zero => exact setPhase_ticked _
  | succ fuel ih =>
    intro s
    simp only [recordLoop, rxByte_ticked s]
    have hi : (ticked s).i = s.i := rfl
    rw [hi]
    split
    · exact sendReply_ticked _ s
    rcases rxByte s with ⟨_ | op, u⟩
    · rfl
    have hop : (ticked u).setI { (ticked u).i with op := op, n := recLen op } =
      ticked (u.setI { u.i with op := op, n := recLen op }) := rfl
    simp only [hop]
    generalize u.setI { u.i with op := op, n := recLen op } = v
    have hv : (ticked v).i = v.i := rfl
    rw [hv]
    split
    · exact sendReply_ticked _ v
    rw [qAppend_ticked op v, appendOperands_ticked]
    rcases appendOperands ((recLen op).toNat - 1) (qAppend op v) with ⟨w, _ | _⟩
    · rfl
    · exact ih w.recordDone

theorem runRecords_ticked : CommutesWithTick runRecords := fun s => recordLoop_ticked _ s

/-! ## The instructions -/

/-- The instruction is done with or without a TICK before it, and its results differ by a TICK. -/
def InstrCommutes (i : Instr) : Prop :=
  ∀ s, ∃ u, exec i s = .next u ∧ exec i (ticked s) = .next (ticked u)

/-- An instruction whose meaning is an operation that commutes with TICK. -/
theorem InstrCommutes.of_exec {i : Instr} {f : State → State} (hf : CommutesWithTick f)
    (he : ∀ s, exec i s = .next (f s)) : InstrCommutes i := fun s =>
  ⟨f s, he s, by rw [he, hf s]⟩

/-- The test on the declared length reads the queue and `CAP` only. -/
theorem cWrite_commutes (len : Byte) : InstrCommutes (.cWrite len) := by
  intro s
  simp only [exec, execCWrite, interleave_ticked s]
  generalize interleave s = u
  have hroom : (ticked u).q.freeCapacity (ticked u).cfg.cap = u.q.freeCapacity u.cfg.cap := rfl
  rw [hroom]
  split
  · exact ⟨_, rfl, congrArg _ (sendReply_ticked _ u)⟩
  · exact ⟨_, rfl, congrArg _ (runRecords_ticked (u.setI { u.i with rem := len }))⟩

theorem instr_commutes {i : Instr} (h : ∀ d, i ≠ .dSleep d) : InstrCommutes i := by
  cases i with
  | cReset len =>
    exact .of_exec ((sendReply_ticked _).comp_left (chipReset_ticked.comp_left qClear_ticked))
      fun _ => rfl
  | cWrite len => exact cWrite_commutes len
  | cQuery len =>
    exact .of_exec (fun s => sendReply_ticked (queryReply s.cfg.cap s.q.count) s) fun _ => rfl
  | cOther code len => exact .of_exec (sendReply_ticked _) fun _ => rfl
  | dSleep d => exact absurd rfl (h d)
  | dWrite a v =>
    exact .of_exec ((setPhase_ticked .status).comp_left ((devWrite_ticked a v).comp_left
      ((removeOperands_ticked a v).comp_left (removeDiscriminator_ticked _)))) fun _ => rfl
  | dClose =>
    exact .of_exec ((setPhase_ticked .status).comp_left (chipReset_ticked.comp_left
      (qClear_ticked.comp_left (removeDiscriminator_ticked _)))) fun _ => rfl
  | dOther d =>
    exact .of_exec ((setPhase_ticked .status).comp_left (removeDiscriminator_ticked d)) fun _ => rfl
  | eOk => exact .of_exec (sendReply_ticked _) fun _ => rfl
  | eOkQ capacity occupancy => exact .of_exec (sendReply_ticked _) fun _ => rfl
  | eInvalid => exact .of_exec (sendReply_ticked _) fun _ => rfl
  | eOverflow => exact .of_exec (sendReply_ticked _) fun _ => rfl

/-- Settles O18: `t` is the one result that the instruction has in `s`. -/
theorem tickCommutesWithInstructions : Obligations.TickCommutesWithInstructions := by
  intro i s t hi he
  obtain ⟨u, hu, hticked⟩ := instr_commutes hi s
  rw [hu] at he
  cases he
  exact hticked

/-! ## Command Ingestion and the queued bytes (R52) -/

/-- Bytes may have come behind the queued ones; the read index and the queued ones are as they
were. -/
def OnlyAppends (cap : Nat) (q q' : Queue) : Prop :=
  q'.rd = q.rd ∧ contents cap q <+: contents cap q'

theorem OnlyAppends.refl (cap : Nat) (q : Queue) : OnlyAppends cap q q :=
  ⟨rfl, List.prefix_rfl⟩

theorem OnlyAppends.trans {cap : Nat} {q q' q'' : Queue} (h : OnlyAppends cap q q')
    (h' : OnlyAppends cap q' q'') : OnlyAppends cap q q'' :=
  ⟨h'.1.trans h.1, h.2.trans h'.2⟩

/-- QAPPEND puts its byte at the end, or is refused by a full queue. -/
theorem append_onlyAppends {cap : Nat} {q : Queue} (h : QueueInv cap q) (b : Byte) :
    OnlyAppends cap q (q.append cap b) := by
  by_cases hc : q.count < cap
  · exact ⟨append_rd q b, contents_append h hc b ▸ List.prefix_append _ _⟩
  · rw [Queue.append, if_neg hc]
    exact .refl cap q

theorem appendAll_onlyAppends {cap : Nat} (bs : List Byte) {q : Queue} (h : QueueInv cap q) :
    OnlyAppends cap q (Queue.appendAll cap bs q) := by
  induction bs generalizing q with
  | nil => exact .refl cap q
  | cons b bs ih => exact (append_onlyAppends h b).trans (ih (append_inv h b))

/-- What the record loop does to the queue, however far it comes. -/
theorem recordLoop_onlyAppends (fuel : Nat) {s : State} (h : QueueInv s.cfg.cap s.q) :
    OnlyAppends s.cfg.cap s.q (recordLoop fuel s).q := by
  obtain ⟨bs, hq, -⟩ := recordLoop_frame fuel s
  exact hq ▸ appendAll_onlyAppends bs h

theorem resumeOperands_onlyAppends (k : Nat) {s : State} (h : QueueInv s.cfg.cap s.q) :
    OnlyAppends s.cfg.cap s.q (resumeOperands k s).q := by
  obtain ⟨bs, hq, -⟩ := resumeOperands_frame k s
  exact hq ▸ appendAll_onlyAppends bs h

/-- A C.RESET, run where its header has been read, leaves `I.cmd` and an emptied queue. -/
theorem cReset_clears {s u : State} (hp : s.phase = .cmd ∨ s.phase = .len) (f : FetchFrame s u)
    (hc : u.i.cmd = Config.codeReset) :
    ClearedByReset s (sendReply [Config.statusOk] (chipReset (qClear u))) := by
  obtain ⟨-, fq, -⟩ := f
  obtain ⟨-, hq, -⟩ := clearAndReset_frame u
  obtain ⟨⟨-, -, -, ri, -⟩, -⟩ := chipReset_spec (qClear u)
  obtain ⟨-, -, -, -, -, -, -, -, -, sq, -, -, si, -⟩ :=
    sendReply_spec [Config.statusOk] (chipReset (qClear u))
  have qi : (qClear u).i = u.i := by rw [(qClear_spec u).1, State.setQ_i, interleave_i]
  refine ⟨hp, ?_, ?_⟩
  · rw [si, ri, qi]; exact hc
  · rw [sq, hq, fq]; rfl

/-- Settles O54. Only a C.RESET clears the queue; C.WRITE appends, at its start or where it goes on,
and every other step outside boot and the consumer leaves the queue as it was. -/
theorem ingestionOnlyAppends : Obligations.IngestionOnlyAppends := by
  rintro s t ⟨-, hinv, -⟩ hboot hconsume he
  have kept (hq : t.q = s.q) : OnlyAppends s.cfg.cap s.q t.q := hq ▸ .refl _ _
  cases step_cases he with
  | boot h e => exact absurd h hboot
  | idle h f ht hp =>
    obtain ⟨-, fq, -⟩ := f
    exact .inl (kept fq)
  | reset u h f ht hc e => exact .inr (e ▸ cReset_clears h f hc)
  | plain u bs h f ht e =>
    obtain ⟨-, fq, -⟩ := f
    obtain ⟨-, sq, -⟩ := sendReply_frame bs u
    exact .inl (kept (e ▸ sq.trans fq))
  | write u fuel h f ht room e =>
    obtain ⟨fcfg, fq, -⟩ := f
    rw [← fcfg, ← fq] at hinv ⊢
    exact .inl (e ▸ recordLoop_onlyAppends fuel hinv)
  | wop h e => exact .inl (e ▸ recordLoop_onlyAppends _ hinv)
  | warg k h e => exact .inl (e ▸ resumeOperands_onlyAppends k hinv)
  | held h f el e => exact absurd h hconsume
  | record h hc hg e => exact absurd h hconsume
  | status h e =>
    obtain ⟨-, uq, -⟩ := statusUpdate_frame s
    exact .inl (kept (e ▸ uq))

end Sys2Proof.Proofs

/-! PROOFS. The statements of 30_encoding.md: the decoder and the encoder are inverse to each other
(R61 to R73), the length of a record (R64), and the replies (R66, R67). Packets and records are
argued through what the dispatch on their first byte gives, so that an unassigned code is a case like
any other. -/

namespace Sys2Proof.Proofs

open Sys2Proof.Machine Sys2Proof.Safety Sys2Proof.Laws

/-! ## The length of a record (R64) -/

theorem recLen_of_unassigned {op : Byte} (hsleep : op ≠ Config.opSleep)
    (hwrite : op ≠ Config.opWrite) (hclose : op ≠ Config.opClose) : recLen op = 0#2 := by
  rw [recLen, if_neg hsleep, if_neg hwrite, if_neg hclose]

/-- Settles O4. -/
theorem recordLengthLookup : Obligations.RecordLengthLookup :=
  ⟨rfl, rfl, rfl, fun _ => recLen_of_unassigned⟩

/-! ## Packets: the header is a code and, where it is present, a length byte (R5, R61) -/

theorem isOuterCode_eq_false_iff {code : Byte} : isOuterCode code = false ↔
    (code ≠ Config.codeReset ∧ code ≠ Config.codeWrite) ∧ code ≠ Config.codeQuery := by
  simp only [isOuterCode, Bool.or_eq_false_iff, beq_eq_false_iff_ne]

/-- C.WRITE always has its length byte. -/
theorem hasLenByte_codeWrite (hdr : Bool) : hasLenByte hdr Config.codeWrite = true := by
  rw [hasLenByte, BEq.rfl, Bool.or_true]

/-- Every other code has one only where all packets do. -/
theorem hasLenByte_of_ne (hdr : Bool) {code : Byte} (h : code ≠ Config.codeWrite) :
    hasLenByte hdr code = hdr := by
  rw [hasLenByte, beq_false_of_ne h, Bool.or_false]

theorem decodeOuter_of_unassigned {code : Byte} (h : isOuterCode code = false) (len : Byte) :
    decodeOuter code len = .cOther code len := by
  obtain ⟨⟨hreset, hwrite⟩, hquery⟩ := isOuterCode_eq_false_iff.mp h
  rw [decodeOuter, if_neg hreset, if_neg hwrite, if_neg hquery]

theorem decodeOuter_level (code len : Byte) : (decodeOuter code len).level = .packet := by
  unfold decodeOuter
  split_ifs <;> rfl

/-- A code that is none of the three is unassigned, so only the length byte can be at fault. -/
theorem decodeOuter_wellFormed (hdr : Bool) (code len : Byte) :
    (decodeOuter code len).wellFormed hdr = (hasLenByte hdr code || len == 0#8) := by
  unfold decodeOuter
  split_ifs with hreset hwrite hquery
  · rw [hreset, hasLenByte_of_ne hdr (by decide)]; rfl
  · rw [hwrite, hasLenByte_codeWrite]; rfl
  · rw [hquery, hasLenByte_of_ne hdr (by decide)]; rfl
  · rw [Instr.wellFormed, isOuterCode_eq_false_iff.mpr ⟨⟨hreset, hwrite⟩, hquery⟩,
      hasLenByte_of_ne hdr hwrite]
    rfl

theorem encode_decodeOuter (hdr : Bool) (code len : Byte) :
    encode hdr (decodeOuter code len) = encodeHeader hdr code len := by
  unfold decodeOuter
  split_ifs with hreset hwrite hquery
  · rw [hreset, encode]
  · rw [hwrite, encode]
  · rw [hquery, encode]
  · rw [encode]

/-- A length that is not sent is read back as 0. -/
theorem decodePacket_encodeHeader {hdr : Bool} {code len : Byte}
    (hlen : (hasLenByte hdr code || len == 0#8) = true) (rest : List Byte) :
    decodePacket hdr (encodeHeader hdr code len ++ rest) = .ok (decodeOuter code len, rest) := by
  by_cases h : hasLenByte hdr code = true
  · simp [encodeHeader, decodePacket, h]
  · simp only [h, Bool.false_or, beq_iff_eq] at hlen
    simp [encodeHeader, decodePacket, h, hlen]

/-- Whatever packet the decoder reads is a header, with its length byte or with length 0. -/
theorem encodeHeader_of_decodePacket {hdr : Bool} {bs rest : List Byte} {i : Instr}
    (h : decodePacket hdr bs = .ok (i, rest)) :
    ∃ code len, (hasLenByte hdr code || len == 0#8) = true ∧ i = decodeOuter code len ∧
      encodeHeader hdr code len ++ rest = bs := by
  match bs with
  | [] => cases h
  | code :: tail =>
    dsimp only [decodePacket] at h
    split at h
    case isTrue hl =>
      match tail with
      | [] => cases h
      | len :: tail =>
        cases h
        exact ⟨code, len, by rw [hl, Bool.true_or], rfl, by rw [encodeHeader, if_pos hl]; rfl⟩
    case isFalse hl =>
      cases h
      exact ⟨code, 0#8, by simp, rfl, by rw [encodeHeader, if_neg hl]; rfl⟩

theorem decode_encode_decodeOuter {hdr : Bool} {code len : Byte}
    (hwf : (decodeOuter code len).wellFormed hdr = true) (rest : List Byte) :
    decode hdr .packet (encode hdr (decodeOuter code len) ++ rest) =
      .ok (decodeOuter code len, rest) := by
  rw [decodeOuter_wellFormed] at hwf
  rw [encode_decodeOuter, decode, decodePacket_encodeHeader hwf]

/-! ## Records: the length follows from the first byte (R64, R71) -/

theorem isInnerOpcode_eq_false_iff {d : Byte} : isInnerOpcode d = false ↔
    (d ≠ Config.opSleep ∧ d ≠ Config.opWrite) ∧ d ≠ Config.opClose := by
  simp only [isInnerOpcode, Bool.or_eq_false_iff, beq_eq_false_iff_ne]

theorem decodeInner_of_unassigned {d : Byte} (h : isInnerOpcode d = false) (b0 b1 : Byte) :
    decodeInner d b0 b1 = .dOther d := by
  obtain ⟨⟨hsleep, hwrite⟩, hclose⟩ := isInnerOpcode_eq_false_iff.mp h
  rw [decodeInner, if_neg hsleep, if_neg hwrite, if_neg hclose]

/-- A record of one byte does not depend on the bytes behind it. -/
theorem decodeInner_of_no_operands {d : Byte} (h : ¬(d = Config.opSleep ∨ d = Config.opWrite))
    (b0 b1 : Byte) : decodeInner d b0 b1 = decodeInner d 0#8 0#8 := by
  obtain ⟨hsleep, hwrite⟩ := not_or.mp h
  simp only [decodeInner, if_neg hsleep, if_neg hwrite]

theorem decodeInner_level (d b0 b1 : Byte) : (decodeInner d b0 b1).level = .record := by
  unfold decodeInner
  split_ifs <;> rfl

/-- An opcode that is none of the three is unassigned. -/
theorem decodeInner_wellFormed (hdr : Bool) (d b0 b1 : Byte) :
    (decodeInner d b0 b1).wellFormed hdr = true := by
  unfold decodeInner
  split_ifs with hsleep hwrite hclose
  · rfl
  · rfl
  · rfl
  · rw [Instr.wellFormed, isInnerOpcode_eq_false_iff.mpr ⟨⟨hsleep, hwrite⟩, hclose⟩]
    rfl

theorem encode_decodeInner (hdr : Bool) (d b0 b1 : Byte) :
    encode hdr (decodeInner d b0 b1) =
      if d = Config.opSleep ∨ d = Config.opWrite then [d, b0, b1] else [d] := by
  unfold decodeInner
  by_cases hsleep : d = Config.opSleep
  · simp [hsleep, encode, bytesOfWord]
  by_cases hwrite : d = Config.opWrite
  · simp [hwrite, encode]
  by_cases hclose : d = Config.opClose
  · simp [hclose, encode]
  · simp [hsleep, hwrite, hclose, encode]

theorem decode_encode_decodeInner (hdr : Bool) (d b0 b1 : Byte) (rest : List Byte) :
    decode hdr .record (encode hdr (decodeInner d b0 b1) ++ rest) =
      .ok (decodeInner d b0 b1, rest) := by
  rw [encode_decodeInner, decode]
  split
  case isTrue h => exact if_pos h
  case isFalse h =>
    rw [decodeInner_of_no_operands h b0 b1]
    exact if_neg h

/-- Whatever record the decoder reads is a first byte with its operands. -/
theorem encode_decodeInner_of_decodeRecord (hdr : Bool) {bs rest : List Byte} {i : Instr}
    (h : decodeRecord bs = .ok (i, rest)) :
    ∃ d b0 b1, i = decodeInner d b0 b1 ∧ encode hdr (decodeInner d b0 b1) ++ rest = bs := by
  match bs with
  | [] => cases h
  | d :: tail =>
    dsimp only [decodeRecord] at h
    split at h
    case isTrue ho =>
      match tail with
      | [] => cases h
      | [_] => cases h
      | b0 :: b1 :: tail =>
        cases h
        exact ⟨d, b0, b1, rfl, by rw [encode_decodeInner, if_pos ho]; rfl⟩
    case isFalse ho =>
      cases h
      exact ⟨d, 0#8, 0#8, rfl, by rw [encode_decodeInner, if_neg ho]; rfl⟩

/-! ## Decoding after encoding -/

/-- Settles O1. A packet is what the dispatch on its code gives, a record what the dispatch on its
discriminator gives; the codes of the replies differ (R73). -/
theorem decodeOfEncodeIsIdentity : Obligations.DecodeOfEncodeIsIdentity := by
  intro hdr i rest hwf
  cases i with
  | cReset len => exact decode_encode_decodeOuter (code := Config.codeReset) hwf rest
  | cWrite len => exact decode_encode_decodeOuter (code := Config.codeWrite) hwf rest
  | cQuery len => exact decode_encode_decodeOuter (code := Config.codeQuery) hwf rest
  | cOther code len =>
    have hcode : isOuterCode code = false := by
      simp only [Instr.wellFormed, Bool.and_eq_true, Bool.not_eq_true'] at hwf
      exact hwf.1
    rw [← decodeOuter_of_unassigned hcode len] at hwf ⊢
    rw [decodeOuter_level]
    exact decode_encode_decodeOuter hwf rest
  | dSleep duration =>
    rw [← wordOfBytes_bytes duration]
    exact decode_encode_decodeInner hdr Config.opSleep _ _ rest
  | dWrite register value =>
    exact decode_encode_decodeInner hdr Config.opWrite register value rest
  | dClose => exact decode_encode_decodeInner hdr Config.opClose 0#8 0#8 rest
  | dOther d =>
    have hd : isInnerOpcode d = false := by
      simpa only [Instr.wellFormed, Bool.not_eq_true'] using hwf
    rw [← decodeInner_of_unassigned hd 0#8 0#8, decodeInner_level]
    exact decode_encode_decodeInner hdr d 0#8 0#8 rest
  | eOk => rfl
  | eOkQ capacity occupancy =>
    simp [encode, decode, decodeQueryReply, bytesOfWord, Instr.level]
  | eInvalid => rfl
  | eOverflow => rfl

/-- Settles O3: each word is the encoding of its instruction. -/
theorem decodesTheTablesWords : Obligations.DecodesTheTablesWords :=
  have decodes := decodeOfEncodeIsIdentity true
  ⟨decodes (.cReset 0xFF#8) [] rfl, decodes (.cWrite 0x03#8) [0xD1#8] rfl,
    decodes (.cQuery 0x00#8) [] rfl, decodes (.cOther 0xD0#8 0x00#8) [] rfl,
    decodes (.dSleep 0x1234#16) [] rfl, decodes (.dWrite 0x20#8 0x00#8) [] rfl,
    decodes .dClose [0xD1#8] rfl, decodes (.eOkQ 0x0400#16 0x012C#16) [] rfl,
    decodes .eOverflow [] rfl⟩

/-! ## Encoding after decoding -/

/-- `bs` is a well-formed instruction of the level, in its encoding, and `rest`. -/
def StandsAtFront (hdr : Bool) (l : Level) (bs : List Byte) (i : Instr) (rest : List Byte) : Prop :=
  i.level = l ∧ i.wellFormed hdr = true ∧ encode hdr i ++ rest = bs

theorem standsAtFront_of_decodePacket {hdr : Bool} {bs rest : List Byte} {i : Instr}
    (h : decodePacket hdr bs = .ok (i, rest)) : StandsAtFront hdr .packet bs i rest := by
  obtain ⟨code, len, hlen, rfl, hbs⟩ := encodeHeader_of_decodePacket h
  exact ⟨decodeOuter_level code len, (decodeOuter_wellFormed hdr code len).trans hlen,
    by rwa [encode_decodeOuter]⟩

theorem standsAtFront_of_decodeRecord {hdr : Bool} {bs rest : List Byte} {i : Instr}
    (h : decodeRecord bs = .ok (i, rest)) : StandsAtFront hdr .record bs i rest := by
  obtain ⟨d, b0, b1, rfl, hbs⟩ := encode_decodeInner_of_decodeRecord hdr h
  exact ⟨decodeInner_level d b0 b1, decodeInner_wellFormed hdr d b0 b1, hbs⟩

theorem standsAtFront_of_decodeStatus {hdr : Bool} {bs rest : List Byte} {i : Instr}
    (h : decodeStatus bs = .ok (i, rest)) : StandsAtFront hdr .reply bs i rest := by
  match bs with
  | [] => cases h
  | c :: tail =>
    rw [decodeStatus] at h
    split_ifs at h with hok hinvalid hoverflow
    · cases h; exact ⟨rfl, rfl, hok ▸ rfl⟩
    · cases h; exact ⟨rfl, rfl, hinvalid ▸ rfl⟩
    · cases h; exact ⟨rfl, rfl, hoverflow ▸ rfl⟩

theorem standsAtFront_of_decodeQueryReply {hdr : Bool} {bs rest : List Byte} {i : Instr}
    (h : decodeQueryReply bs = .ok (i, rest)) : StandsAtFront hdr .queryReply bs i rest := by
  match bs with
  | [] => cases h
  | c :: tail =>
    dsimp only [decodeQueryReply] at h
    split at h
    case isTrue hc =>
      match tail with
      | [] | [_] | [_, _] | [_, _, _] => cases h
      | c0 :: c1 :: o0 :: o1 :: tail =>
        cases h
        exact ⟨rfl, rfl, by simp [encode, bytesOfWord, hc]⟩
    case isFalse => cases h

/-- Settles O2, level by level. -/
theorem encodeOfDecodeIsIdentity : Obligations.EncodeOfDecodeIsIdentity := by
  intro hdr l bs i rest h
  cases l with
  | packet => exact standsAtFront_of_decodePacket h
  | record => exact standsAtFront_of_decodeRecord h
  | reply => exact standsAtFront_of_decodeStatus h
  | queryReply => exact standsAtFront_of_decodeQueryReply h

/-! ## Replies (R66, R67) -/

/-- Sending a reply does nothing else: what `sendReply_spec` says it leaves alone is everything but
`TX` and the phase. -/
theorem sendReply_repliesOnly (bs : List Byte) (s : State) :
    RepliesOnly bs s (sendReply bs s) := by
  obtain ⟨sent, pending, n, hbs, ⟨helapsed, hrx, -⟩, htx, hphase, hfree, hcfg, hq, hdev, hstatus,
    hi, hk, hfreed⟩ := sendReply_spec bs s
  exact ⟨⟨sent, pending, hbs, htx, hphase, hfree⟩, n,
    { sendReply bs s with tx := s.tx, phase := s.phase },
    ⟨helapsed, hrx, hcfg, hq, hdev, hstatus, hi, hk, rfl, rfl, hfreed⟩, rfl⟩

/-- A reply sends its own encoding. -/
theorem exec_reply {i : Instr} (h : i.level = .reply ∨ i.level = .queryReply) (hdr : Bool)
    (s : State) : exec i s = .next (sendReply (encode hdr i) s) := by
  cases i with
  | eOk | eOkQ | eInvalid | eOverflow => rfl
  | _ => simp [Instr.level] at h

theorem bytesOfWord_eq (w : Word) :
    bytesOfWord w = [BitVec.ofNat 8 w.toNat, BitVec.ofNat 8 (w.toNat / 256)] := by
  rw [bytesOfWord, lowByte_eq, highByte_eq]

/-- Settles O36. -/
theorem repliesSendTheirBytes : Obligations.RepliesSendTheirBytes := by
  intro s
  have sends {i : Instr} (h : i.level = .reply ∨ i.level = .queryReply) :
      ∃ t, exec i s = .next t ∧ RepliesOnly (encode true i) s t :=
    ⟨_, exec_reply h true s, sendReply_repliesOnly _ s⟩
  refine ⟨sends (.inl rfl), sends (.inl rfl), sends (.inl rfl), fun capacity occupancy => ?_⟩
  have hsent := sends (i := .eOkQ capacity occupancy) (.inr rfl)
  rwa [encode, bytesOfWord_eq, bytesOfWord_eq] at hsent

end Sys2Proof.Proofs

/-! PROOFS. The statements of 40_ring_buffer_queue.md: what QCLEAR, QAPPEND and QREMOVE do inside and
outside their preconditions (R80 to R82, D20), first-in first-out (R84), and that no step calls one of
them outside its precondition (R85). For the last, a record that runs finds its bytes at the head of
the queue, and every step of Command Ingestion is a header and a payload, of which every byte is
accounted for. -/

namespace Sys2Proof.Proofs

open Sys2Proof.Machine Sys2Proof.Safety Sys2Proof.Laws

/-! ## The primitives, inside and outside their preconditions (R80 to R82, D20) -/

theorem append_of_lt {cap : Nat} {q : Queue} (h : q.count < cap) (b : Byte) :
    q.append cap b = { q with
      count := q.count + 1, buf := Memory.write q.buf q.wr b, wr := (q.wr + 1) % cap } := if_pos h

theorem append_of_not_lt {cap : Nat} {q : Queue} (h : ¬q.count < cap) (b : Byte) :
    q.append cap b = q := if_neg h

theorem advance_of_pos {q : Queue} (h : 0 < q.count) (cap : Nat) :
    q.advance cap = { q with count := q.count - 1, rd := (q.rd + 1) % cap } := if_pos h

theorem advance_of_empty {q : Queue} (h : q.count = 0) (cap : Nat) : q.advance cap = q :=
  if_neg (Nat.not_lt.mpr h.le)

theorem front_of_pos {q : Queue} (h : 0 < q.count) : q.front = Memory.read q.buf q.rd := if_pos h

theorem front_of_empty {q : Queue} (h : q.count = 0) : q.front = none :=
  if_neg (Nat.not_lt.mpr h.le)

@[simp] theorem dropFront_q (s : State) : s.dropFront.q = s.q.advance s.cfg.cap := rfl

/-- Where the spec fixes the byte at the front, QREMOVE returns it and hands out no free value. -/
theorem dropFront_of_front_some {s : State} {b : Byte} (h : s.q.front = some b) :
    s.frontByte = b ∧ s.dropFront = { s with q := s.dropFront.q } := by
  constructor
  · rw [State.frontByte, h, Option.getD_some]
  · rw [State.dropFront, h]; rfl

/-- Where it fixes none, QREMOVE returns a free value. -/
theorem dropFront_of_front_none {s : State} (h : s.q.front = none) :
    s.frontByte = Config.freeByte s.free ∧
      s.dropFront = { s with q := s.dropFront.q, free := s.free + 1 } := by
  constructor
  · rw [State.frontByte, h, Option.getD_none]
  · rw [State.dropFront, h]; rfl

/-- What happens before a micro-step is all that one slot of the schedule does. -/
theorem interleave_timePasses (s : State) : TimePasses 1 s (interleave s) :=
  ⟨interleave_elapsed s, interleave_rx s, by simp⟩

/-- Settles O7. -/
theorem qClearZeroesIndicesAndCount : Obligations.QClearZeroesIndicesAndCount := by
  intro s
  have hclear : qClear s = (interleave s).setQ s.q.clear := (qClear_spec s).1
  refine ⟨⟨interleave s, interleave_timePasses s, hclear⟩, ?_, ?_⟩
  · rw [hclear]; rfl
  · rw [hclear]; exact Nat.sub_zero _

/-- Settles O8: the fields of the appended queue, and the buffer read after the one write. -/
theorem qAppendStoresAtTheWriteIndex : Obligations.QAppendStoresAtTheWriteIndex := by
  intro b s hroom
  have happend : qAppend b s = (interleave s).setQ (s.q.append s.cfg.cap b) := (qAppend_spec b s).1
  rw [append_of_lt hroom] at happend
  refine ⟨interleave s, _, interleave_timePasses s, happend, rfl, rfl, rfl,
    Memory.read_write_same _ _ _, fun a ha => Memory.read_write_other _ b ha, rfl, ?_⟩
  simp only [Queue.freeCapacity]
  omega

/-- Settles O9. -/
theorem qRemoveTakesAtTheReadIndex : Obligations.QRemoveTakesAtTheReadIndex := by
  intro s hpos
  refine ⟨advance_of_pos hpos _, ?_, fun b hb => ?_⟩
  · rw [isEmpty_iff, dropFront_q, advance_count]
    omega
  · exact dropFront_of_front_some ((front_of_pos hpos).trans hb)

/-- Settles O10. -/
theorem queueRefusesOutsideItsPreconditions : Obligations.QueueRefusesOutsideItsPreconditions := by
  refine ⟨fun b s hfull => ?_, fun s hempty => ?_⟩
  · have hkept : qAppend b s = interleave s := by
      rw [(qAppend_spec b s).1, append_of_not_lt hfull, ← interleave_q s]; rfl
    rw [hkept]
    exact interleave_timePasses s
  · obtain ⟨hbyte, hdrop⟩ := dropFront_of_front_none (front_of_empty hempty)
    rw [dropFront_q, advance_of_empty hempty] at hdrop
    exact ⟨hdrop, hbyte⟩

/-! ## First-in first-out (R84) -/

/-- Settles O11, primitive by primitive. -/
theorem queueIsFirstInFirstOut : Obligations.QueueIsFirstInFirstOut := by
  intro s hinv hcap
  refine ⟨contents_clear, clear_inv hcap hinv,
    fun b hroom => ⟨contents_append hinv hroom b, append_inv hinv b⟩, fun hpos => ⟨?_, ?_⟩⟩
  · rw [frontByte_of_inv hinv hpos]
    exact contents_advance hpos
  · exact advance_inv hinv

/-! ## A record that runs finds its bytes (R82, R126) -/

/-- The first of several whole records. -/
theorem wholeRecords_head {bs : List Byte} (h : WholeRecords bs) (hne : bs ≠ []) :
    ∃ r rest, isQueueRecord r = true ∧ bs = encode true r ++ rest := by
  obtain ⟨rs, hrs, rfl⟩ := h
  cases rs with
  | nil => exact absurd rfl hne
  | cons r rs =>
    exact ⟨r, encodeRecords rs, hrs r List.mem_cons_self, List.flatMap_cons⟩

/-- Where records are whole and the queue is not empty, a whole record stands at its head. -/
theorem record_at_head {s : State} (h : WholeRecords (contents s.cfg.cap s.q))
    (hpos : 0 < s.q.count) :
    ∃ r rest, isQueueRecord r = true ∧ contents s.cfg.cap s.q = encode true r ++ rest :=
  wholeRecords_head h (List.ne_nil_of_length_pos (by rwa [contents_length]))

/-- A whole record at the head is an opcode and as many bytes as its length asks for. -/
theorem opcode_at_head {cap : Nat} {q : Queue} {r : Instr} {rest : List Byte}
    (hr : isQueueRecord r = true) (hc : contents cap q = encode true r ++ rest) :
    ∃ op args, contents cap q = op :: args ∧ (recLen op).toNat ≤ q.count ∧ recLen op ≠ 0#2 := by
  obtain ⟨op, args, he, hop, hlen⟩ := recLen_encode hr
  rw [he, List.cons_append] at hc
  refine ⟨op, args ++ rest, hc, ?_, hop⟩
  rw [← contents_length cap q, hc, List.length_cons, List.length_append]
  omega

/-- The queue holds at least `n` bytes, as the invariant has them. -/
def Holds (n : Nat) (s : State) : Prop := QueueInv s.cfg.cap s.q ∧ n ≤ s.q.count

/-- A QREMOVE where a byte is held hands out no free value, and leaves one byte less. -/
theorem qRemoveInto_of_holds (put : ConsumeRegs → ConsumeRegs) {n : Nat} {s : State}
    (h : Holds (n + 1) s) : (qRemoveInto put s).free = s.free ∧ Holds n (qRemoveInto put s) := by
  obtain ⟨hinv, hcount⟩ := h
  rw [(qRemoveInto_of_inv put hinv (Nat.zero_lt_of_lt hcount)).1]
  refine ⟨interleave_free s, ?_, ?_⟩
  · change QueueInv (interleave s).cfg.cap (s.q.advance s.cfg.cap)
    rw [interleave_cfg]
    exact advance_inv hinv
  · change n ≤ (s.q.advance s.cfg.cap).count
    rw [advance_count]
    omega

/-- The three QREMOVEs of a record with two operands. -/
theorem removeOperands_free (d b0 b1 : Byte) {s : State} (h : Holds 3 s) :
    (removeOperands b0 b1 (removeDiscriminator d s)).free = s.free := by
  obtain ⟨free1, h1⟩ := qRemoveInto_of_holds (fun k => { k with d := d }) h
  obtain ⟨free2, h2⟩ := qRemoveInto_of_holds (fun k => { k with b0 := b0 }) h1
  obtain ⟨free3, -⟩ := qRemoveInto_of_holds (fun k => { k with b1 := b1 }) h2
  exact free3.trans (free2.trans free1)

theorem clearAndReset_free (s : State) : (chipReset (qClear s)).free = s.free := by
  obtain ⟨-, -, -, -, -, cfree, -⟩ := qClear_frame s
  obtain ⟨-, -, -, -, rfree, -⟩ := chipReset_frame (qClear s)
  exact rfree.trans cfree

theorem sendReply_free (bs : List Byte) (s : State) : (sendReply bs s).free = s.free := by
  obtain ⟨-, -, -, -, -, hfree, -⟩ := sendReply_frame bs s
  exact hfree

/-- A record whose bytes the queue holds runs without a free value. -/
theorem exec_record_free {r : Instr} (hr : isQueueRecord r = true) {s t : State}
    (h : Holds (encode true r).length s) (he : exec r s = .next t) : t.free = s.free := by
  cases r with
  | dSleep d =>
    cases he
    obtain ⟨-, -, -, -, cfree, -⟩ := setCountdown_frame d
      (removeOperands (lowByte d) (highByte d) (removeDiscriminator Config.opSleep s))
    exact cfree.trans (removeOperands_free _ _ _ h)
  | dWrite a v =>
    cases he
    obtain ⟨-, -, -, -, wfree, -⟩ := devWrite_frame a v
      (removeOperands a v (removeDiscriminator Config.opWrite s))
    exact wfree.trans (removeOperands_free _ _ _ h)
  | dClose =>
    cases he
    exact (clearAndReset_free _).trans (qRemoveInto_of_holds (n := 0) _ h).1
  | _ => exact absurd hr Bool.false_ne_true

/-- CONSUME, with whole records in the queue: the record it runs is the one at the head. -/
theorem consume_record_free {s t : State} (hinv : QueueInv s.cfg.cap s.q)
    (hrec : WholeRecords (contents s.cfg.cap s.q)) (hpos : 0 < s.q.count)
    (he : exec (headRecord s) s = .next t) : t.free = s.free := by
  obtain ⟨r, rest, hr, hc⟩ := record_at_head hrec hpos
  rw [headRecord_of_contents hinv hr hc] at he
  refine exec_record_free hr ⟨hinv, ?_⟩ he
  rw [← contents_length s.cfg.cap s.q, hc, List.length_append]
  exact Nat.le_add_right _ _

theorem recordsInv_consume_iff {s : State} (h : s.phase = .consume) :
    RecordsInv s ↔ WholeRecords (contents s.cfg.cap s.q) := by
  simp only [RecordsInv, h]

theorem fetchFrame_free {s u : State} (f : FetchFrame s u) : u.free = s.free := by
  obtain ⟨-, -, -, -, -, -, hfree⟩ := f
  exact hfree

theorem statusUpdate_free (s : State) : (statusUpdate s).free = s.free := by
  obtain ⟨-, -, -, -, -, hfree, -⟩ := statusUpdate_frame s
  exact hfree

theorem recordLoop_free (fuel : Nat) (s : State) : (recordLoop fuel s).free = s.free := by
  obtain ⟨-, -, -, -, -, -, -, -, hfree, -⟩ := recordLoop_frame fuel s
  exact hfree

theorem resumeOperands_free (k : Nat) (s : State) : (resumeOperands k s).free = s.free := by
  obtain ⟨-, -, -, -, -, -, -, -, hfree, -⟩ := resumeOperands_frame k s
  exact hfree

/-- No step hands out a free value: only the consumer removes bytes, and it removes a record. -/
theorem step_free {s t : State} (hinv : QueueInv s.cfg.cap s.q) (hrec : RecordsInv s)
    (he : step s = .next t) : t.free = s.free := by
  cases step_cases he with
  | boot h e => exact e ▸ (statusUpdate_free _).trans (clearAndReset_free s)
  | idle h f ht hp => exact fetchFrame_free f
  | reset u h f ht hc e =>
    exact e ▸ (sendReply_free _ _).trans ((clearAndReset_free u).trans (fetchFrame_free f))
  | plain u bs h f ht e => exact e ▸ (sendReply_free bs u).trans (fetchFrame_free f)
  | write u fuel h f ht room e => exact e ▸ (recordLoop_free fuel u).trans (fetchFrame_free f)
  | wop h e => exact e ▸ recordLoop_free _ s
  | warg k h e => exact e ▸ resumeOperands_free k s
  | held h f el e => exact fetchFrame_free f
  | record h hc hg e =>
    have f := (interleave_fetchFrame s).trans (interleave_fetchFrame (interleave s))
    have ⟨fcfg, fq, _⟩ := f
    rw [recordsInv_consume_iff h] at hrec
    rw [← fcfg, ← fq] at hinv hrec
    rw [← fq] at hc
    exact (consume_record_free hinv hrec hc e).trans (fetchFrame_free f)
  | status h e => exact e ▸ statusUpdate_free s

/-! ## Command Ingestion appends what it takes (R81, R85) -/

/-- `AppendsWhatItTakes` behind the header: of the bytes taken from `RX` each is appended, but for at
most one more, the one answered with `0xE1`. -/
def PayloadTaken (u t : State) : Prop :=
  ∃ n kept bad, Takes n (kept ++ bad) u t ∧
    contents u.cfg.cap t.q = contents u.cfg.cap u.q ++ kept ∧
    (bad = [] ∨ bad = [t.i.op] ∧ ReplyOutcome [0xE1#8] u t)

/-- A step in which no byte is taken after the header. -/
theorem payloadTaken_of_takes_nil {n : Nat} {u t : State} (h : Takes n [] u t) (hq : t.q = u.q) :
    PayloadTaken u t :=
  ⟨n, [], [], h, by rw [hq, List.append_nil], .inl rfl⟩

/-- A reply is seen alike from before and after the header. -/
theorem replyOutcome_of_fetch {bs : List Byte} {s u t : State} (f : FetchFrame s u)
    (hl : LineFree s → LineFree u) (h : ReplyOutcome bs u t) : ReplyOutcome bs s t := by
  obtain ⟨-, -, -, -, -, ftx, -⟩ := f
  obtain ⟨sent, pending, hbs, htx, hp, hfree⟩ := h
  exact ⟨sent, pending, hbs, ftx ▸ htx, hp, fun h => hfree (hl h)⟩

/-- The header, then the payload. -/
theorem PayloadTaken.appendsWhatItTakes {s u t : State} (h : PayloadTaken u t)
    (f : FetchFrame s u) (ht : HeaderTaken s u) (hh : headerBytes s t = headerBytes s u) :
    AppendsWhatItTakes s t := by
  obtain ⟨m, header, hm, hsub, hidle, hline⟩ := ht
  obtain ⟨n, kept, bad, hn, hkept, hbad⟩ := h
  have ⟨fcfg, fq, _⟩ := f
  refine ⟨m + n, header, kept, bad, ?_, hh ▸ hsub, ?_, hbad.imp_right fun ⟨hop, hr⟩ =>
    ⟨hop, replyOutcome_of_fetch f hline hr⟩⟩
  · rw [List.append_assoc]
    exact takes_trans hm hn hidle
  · rwa [fcfg, fq] at hkept

/-- Where a step reads no header, all it takes is payload. -/
theorem PayloadTaken.appendsWhatItTakes_of_no_header {s t : State} (h : PayloadTaken s t)
    (hh : ∀ u, headerBytes s u = []) : AppendsWhatItTakes s t :=
  h.appendsWhatItTakes (.refl s) (Passes.refl s).headerTaken ((hh t).trans (hh s).symm)

theorem headerBytes_congr (s : State) {t u : State} (hcmd : t.i.cmd = u.i.cmd)
    (hlen : t.i.len = u.i.len) : headerBytes s t = headerBytes s u := by
  simp only [headerBytes, hcmd, hlen]

theorem headerBytes_eq_nil {s : State} (hcmd : s.phase ≠ .cmd) (hlen : s.phase ≠ .len)
    (t : State) : headerBytes s t = [] := by
  unfold headerBytes
  split
  · exact absurd ‹_› hcmd
  · exact absurd ‹_› hlen
  · rfl

theorem sendReply_payloadTaken (bs : List Byte) (u : State) : PayloadTaken u (sendReply bs u) := by
  obtain ⟨-, -, n, htakes⟩ := sendReply_outcome bs (u := u) rfl id
  obtain ⟨-, hq, -⟩ := sendReply_frame bs u
  exact payloadTaken_of_takes_nil htakes hq

/-- The record loop, given the room that C.WRITE checked for; and it keeps the header. -/
theorem recordLoop_payloadTaken (fuel : Nat) {u : State} (hinv : QueueInv u.cfg.cap u.q)
    (room : u.q.count + u.i.rem.toNat ≤ u.cfg.cap) :
    PayloadTaken u (recordLoop fuel u) ∧
      ∀ s, headerBytes s (recordLoop fuel u) = headerBytes s u := by
  obtain ⟨n, kept, bad, htakes, hkept, hcmd, hlen, hbad⟩ := recordLoop_takes fuel hinv room
  exact ⟨⟨n, kept, bad, htakes, hkept, hbad⟩, fun s => headerBytes_congr s hcmd hlen⟩

/-- Outside boot and the consumer, every byte a step takes is accounted for, or it was a C.RESET. -/
theorem step_appendsWhatItTakes {s t : State} (hinv : QueueInv s.cfg.cap s.q)
    (hingest : IngestInv s) (hboot : s.phase ≠ .boot) (hconsume : s.phase ≠ .consume)
    (he : step s = .next t) : AppendsWhatItTakes s t ∨ ClearedByReset s t := by
  cases step_cases he with
  | boot h e => exact absurd h hboot
  | idle h f ht hp =>
    exact .inl ((payloadTaken_of_takes_nil (Passes.refl t).takes rfl).appendsWhatItTakes f ht rfl)
  | reset u h f ht hc e => exact .inr (e ▸ cReset_clears h f hc)
  | plain u bs h f ht e =>
    obtain ⟨-, hi, -⟩ := sendReply_outcome bs (u := u) rfl id
    subst e
    exact .inl ((sendReply_payloadTaken bs u).appendsWhatItTakes f ht
      (headerBytes_congr s (congrArg _ hi) (congrArg _ hi)))
  | write u fuel h f ht room e =>
    have ⟨fcfg, fq, _⟩ := f
    rw [← fcfg, ← fq] at hinv
    have ⟨_, _, hcount, _⟩ := hinv
    obtain ⟨htaken, hheader⟩ := recordLoop_payloadTaken fuel hinv (room hcount)
    subst e
    exact .inl (htaken.appendsWhatItTakes f ht (hheader s))
  | wop h e =>
    obtain ⟨htaken, -⟩ := recordLoop_payloadTaken (s.i.rem.toNat + 1) hinv
      ((ingestInv_wop_iff h).1 hingest)
    subst e
    exact .inl (htaken.appendsWhatItTakes_of_no_header
      (headerBytes_eq_nil (by simp [h]) (by simp [h])))
  | warg k h e =>
    obtain ⟨-, hn, room⟩ := (ingestInv_warg_iff h).1 hingest
    have htaken : PayloadTaken s (resumeOperands k s) := resumeOperands_takes k hinv hn room
    subst e
    exact .inl (htaken.appendsWhatItTakes_of_no_header
      (headerBytes_eq_nil (by simp [h]) (by simp [h])))
  | held h f el e => exact absurd h hconsume
  | record h hc hg e => exact absurd h hconsume
  | status h e =>
    obtain ⟨-, hpasses⟩ := statusUpdate_spec s
    obtain ⟨-, hq, -⟩ := statusUpdate_frame s
    have htaken : PayloadTaken s (updateStatus s) := payloadTaken_of_takes_nil hpasses.takes hq
    subst e
    exact .inl (htaken.appendsWhatItTakes_of_no_header
      (headerBytes_eq_nil (by simp [h]) (by simp [h])))

/-- Settles O52: a QREMOVE on an empty queue would hand out a free value, a QAPPEND on a full one
would lose a byte taken from `RX`. -/
theorem queuePreconditionsAlwaysHold : Obligations.QueuePreconditionsAlwaysHold := by
  rintro s t ⟨-, hinv, hingest, -⟩ hrec he
  refine ⟨step_free hinv hrec he, fun hp hpos => ?_, fun hboot hconsume =>
    step_appendsWhatItTakes hinv hingest hboot hconsume he⟩
  obtain ⟨r, rest, hr, hc⟩ := record_at_head ((recordsInv_consume_iff hp).1 hrec) hpos
  exact opcode_at_head hr hc

end Sys2Proof.Proofs

/-! PROOFS. The statements of 41_time_base.md: TICK and the countdown (R90, R93), SETCD (R91, R170),
the gate under a strictly periodic timer (R93, R194), the counters over a step (R95, R96), and sleep
gating over a run (R94, R127). A run in which no record runs is one in which the Time Base sees
TICKs only (`RunsNoRecord`); whether the gate is open is then a matter of counting periods
(`gateOpen_iff_of_onlyTicks`), and a closed gate lets no record run. -/

namespace Sys2Proof.Proofs

open Sys2Proof.Machine Sys2Proof.Safety Sys2Proof.Laws

/-! ## TICK (R90) and the countdown (R93) -/

theorem gateOpen_iff_toNat (t : TimeBase) : t.gateOpen = true ↔ t.cd.toNat = 0 := by
  rw [gateOpen_iff, ← BitVec.toNat_inj, BitVec.toNat_ofNat, Nat.zero_mod]

theorem gateOpen_iterate_onTick_iff (k : Nat) (t : TimeBase) :
    (TimeBase.onTick^[k] t).gateOpen = true ↔ t.cd.toNat ≤ k := by
  rw [gateOpen_iff_toNat, iterate_onTick_cd, Nat.sub_eq_zero_iff_le]

theorem iterate_onTick_tick_toNat (k : Nat) (t : TimeBase) :
    (TimeBase.onTick^[k] t).tick.toNat = (t.tick.toNat + k) % 65536 := by
  rw [iterate_onTick_tick, BitVec.toNat_add, BitVec.toNat_ofNat, Nat.add_mod_mod]

/-- Settles O14, from what `k` TICKs do to each counter. -/
theorem countdownLastsExactlyNTicks : Obligations.CountdownLastsExactlyNTicks := fun t k =>
  ⟨iterate_onTick_cd k t, gateOpen_iterate_onTick_iff k t, iterate_onTick_tick_toNat k t⟩

/-- Settles O12: the case of one TICK, and a period that ends where the interrupt is idle. -/
theorem tickIncrementsAndDecrements : Obligations.TickIncrementsAndDecrements := by
  refine ⟨fun t => ⟨iterate_onTick_tick_toNat 1 t, onTick_cd t, gateOpen_iterate_onTick_iff 1 t,
    onTick_irqEn t, onTick_irqPend t⟩, fun s hidle => ?_⟩
  exact congrArg s.setT (timerDue_idle hidle)

/-! ## SETCD (R91, R170) -/

/-- Where at most one period ends in a slot, none is lost: those before the store tick the old
countdown, the one inside it the new. -/
theorem setCountdown_time (n : Word) {s : State} (hidle : InterruptIdle s.t)
    (hone : OnePeriodAtATime s) :
    (setCountdown n s).t = TimeBase.onTick^[timerCount ((s.env.sched.drop 1).take 1)]
      { TimeBase.onTick^[timerCount (s.env.sched.take 1)] s.t with cd := n } := by
  obtain ⟨htime, -⟩ := setCountdown_spec n hidle
  rw [htime, stored_eq n _ hone]

/-- Settles O15: the store by `setCountdown_time`, and the frame field by field. -/
theorem setCountdownIsOneAtomicStore : Obligations.SetCountdownIsOneAtomicStore := by
  intro n s hidle hone
  obtain ⟨-, hsched, hrx, -, -, hcfg, hq, hdev, hstatus, hi, hk, hphase, htx, hfree⟩ :=
    setCountdown_spec n hidle
  exact ⟨setCountdown_time n hidle hone, hsched, hrx,
    State.ext hcfg hq rfl hdev hstatus hi hk hphase rfl htx rfl hfree⟩

/-! ## A strictly periodic timer (R93, R194) -/

section Periodic

variable {time : Config.Timing} {first : Nat}

theorem gateOpensAt_of_closed {t : TimeBase} (h : t.gateOpen = false) :
    t.gateOpensAt time first = first + (t.cd.toNat - 1) * time.tTick :=
  if_neg (Bool.eq_false_iff.mp h)

/-- The time of opening is the time by which as many periods have ended as the countdown shows. -/
theorem gateOpensAt_le_iff (hpos : 0 < time.tTick) (t : TimeBase) (x : Nat) :
    t.gateOpensAt time first ≤ x ↔ t.cd.toNat ≤ periodsBy time first x := by
  cases h : t.gateOpen with
  | true =>
    have hcd : t.cd.toNat = 0 := (gateOpen_iff_toNat t).mp h
    have hnow : t.gateOpensAt time first = 0 := if_pos h
    simp only [hnow, hcd, Nat.zero_le]
  | false =>
    have hcd : t.cd.toNat ≠ 0 := mt (gateOpen_iff_toNat t).mpr (Bool.eq_false_iff.mp h)
    rw [gateOpensAt_of_closed h, ← lt_periodsBy hpos]
    omega

theorem gateOpen_after_iff (hpos : 0 < time.tTick) (t : TimeBase) (x : Nat) :
    (t.after time first x).gateOpen = true ↔ t.gateOpensAt time first ≤ x :=
  (gateOpen_iterate_onTick_iff _ t).trans (gateOpensAt_le_iff hpos t x).symm

/-- A closed gate stays closed longer than all periods but the last. -/
theorem lt_gateOpensAt_of_closed (hfirst : 0 < first) {t : TimeBase} (h : t.gateOpen = false) :
    (t.cd.toNat - 1) * time.tTick < t.gateOpensAt time first := by
  rw [gateOpensAt_of_closed h]
  omega

/-- The gate is open once as many whole periods have passed as the countdown shows. -/
theorem gateOpensAt_le (hfirst : first ≤ time.tTick) (t : TimeBase) :
    t.gateOpensAt time first ≤ t.cd.toNat * time.tTick := by
  cases h : t.gateOpen with
  | true => exact (if_pos h).trans_le (Nat.zero_le _)
  | false =>
    have hcd : t.cd.toNat ≠ 0 := mt (gateOpen_iff_toNat t).mpr (Bool.eq_false_iff.mp h)
    obtain ⟨k, hk⟩ := Nat.exists_eq_succ_of_ne_zero hcd
    rw [gateOpensAt_of_closed h, hk, Nat.succ_mul, Nat.succ_sub_one]
    omega

/-- The tick counter wraps after 65536 periods. -/
theorem tick_after_wrap (hpos : 0 < time.tTick) {x : Nat} (hx : first ≤ x) (t : TimeBase) :
    (t.after time first (x + 65536 * time.tTick)).tick = (t.after time first x).tick := by
  apply BitVec.eq_of_toNat_eq
  rw [TimeBase.after, TimeBase.after, periodsBy_add hpos hx, iterate_onTick_tick_toNat,
    iterate_onTick_tick_toNat, ← Nat.add_assoc, Nat.add_mod_right]

end Periodic

/-- Settles O16, bound by bound. -/
theorem sleepLastsItsTime : Obligations.SleepLastsItsTime := by
  intro time first x t hfirst hle
  have hpos : 0 < time.tTick := Nat.lt_of_lt_of_le hfirst hle
  have hcd : t.cd.toNat ≤ 65535 := Nat.le_of_lt_succ t.cd.isLt
  exact ⟨gateOpen_after_iff hpos t x, lt_gateOpensAt_of_closed hfirst, gateOpensAt_le hle t,
    (gateOpensAt_le hle t).trans (Nat.mul_le_mul_right _ hcd), fun hx => tick_after_wrap hpos hx t⟩

/-! ## The GATE read of CONSUME (R120) -/

/-- The state at the GATE read of CONSUME: one slot has passed before its test of the queue, and one
before the read. -/
def atGateRead (s : State) : State := interleave (interleave s)

theorem atGateRead_onlyTicks (s : State) : OnlyTicks s (atGateRead s) :=
  (interleave_onlyTicks s).trans (interleave_onlyTicks _)

theorem atGateRead_sched (s : State) : (atGateRead s).env.sched = s.env.sched.drop 2 := by
  rw [atGateRead, interleave_sched, interleave_sched, List.drop_drop]

/-- A step at `P_CONSUME` with a record, and the gate open at its GATE read, runs the record. -/
theorem step_of_gateOpen {s : State} (hp : s.phase = .consume) (hpos : 0 < s.q.count)
    (hopen : (atGateRead s).t.gateOpen = true) :
    step s = exec (headRecord (atGateRead s)) (atGateRead s) := by
  have hne : ¬ (interleave s).q.isEmpty = true := by
    rw [isEmpty_iff, interleave_q]
    exact Nat.ne_of_gt hpos
  simp only [step, hp, consume, if_neg hne]
  exact if_pos hopen

/-! ## The counters over a step (R95, R96) -/

theorem timerCount_take_add_drop (n : Nat) (sched : List (List EnvEvent)) :
    timerCount (sched.take n) + timerCount (sched.drop n) = timerCount sched := by
  rw [← timerCount_append, List.take_append_drop]

/-- What is left of a schedule has no more periods in it. -/
theorem timerCount_le_of_suffix {rest sched : List (List EnvEvent)} (h : rest <:+ sched) :
    timerCount rest ≤ timerCount sched := by
  obtain ⟨passed, rfl⟩ := h
  rw [timerCount_append]
  exact Nat.le_add_left _ _

/-- Where the Time Base sees TICKs only, it sees one for each period that ended. -/
theorem time_of_onlyTicks {s t : State} (h : OnlyTicks s t) (hidle : InterruptIdle s.t) :
    ∃ k, timerCount s.env.sched = k + timerCount t.env.sched ∧ t.t = TimeBase.onTick^[k] s.t := by
  obtain ⟨n, ⟨hsched, htime⟩, -⟩ := h
  exact ⟨_, by rw [hsched, timerCount_take_add_drop], htime hidle⟩

theorem suffix_of_onlyTicks {s t : State} (h : OnlyTicks s t) : t.env.sched <:+ s.env.sched := by
  obtain ⟨n, ⟨hsched, -⟩, -⟩ := h
  rw [hsched]
  exact List.drop_suffix n _

theorem idle_of_onlyTicks {s t : State} (h : OnlyTicks s t) (hidle : InterruptIdle s.t) :
    InterruptIdle t.t := by
  obtain ⟨n, -, hkeep⟩ := h
  exact hkeep hidle

/-- Every period that ended from `s` to `t` advanced the tick counter by one. -/
def PeriodsCounted (s t : State) : Prop :=
  ∃ k, timerCount s.env.sched = k + timerCount t.env.sched ∧
    t.t.tick = s.t.tick + BitVec.ofNat 16 k

theorem PeriodsCounted.trans {s t u : State} (h : PeriodsCounted s t) (h' : PeriodsCounted t u) :
    PeriodsCounted s u := by
  obtain ⟨j, hj, htick⟩ := h
  obtain ⟨k, hk, htick'⟩ := h'
  exact ⟨j + k, by omega, by rw [htick', htick, BitVec.add_assoc, ← BitVec.ofNat_add]⟩

theorem periodsCounted_of_onlyTicks {s t : State} (h : OnlyTicks s t) (hidle : InterruptIdle s.t) :
    PeriodsCounted s t := by
  obtain ⟨k, hk, htime⟩ := time_of_onlyTicks h hidle
  exact ⟨k, hk, by rw [htime, iterate_onTick_tick]⟩

/-- The store leaves the tick counter alone, and no period before it or in it is lost. -/
theorem setCountdown_periodsCounted (n : Word) {s : State} (hidle : InterruptIdle s.t)
    (hone : OnePeriodAtATime s) : PeriodsCounted s (setCountdown n s) := by
  obtain ⟨-, hsched, -⟩ := setCountdown_spec n hidle
  refine ⟨timerCount (s.env.sched.take 1) + timerCount ((s.env.sched.drop 1).take 1), ?_, ?_⟩
  · rw [hsched, ← timerCount_append, ← take_add_drop, timerCount_take_add_drop]
  · rw [setCountdown_time n hidle hone, iterate_onTick_tick, iterate_onTick_tick, BitVec.add_assoc,
      ← BitVec.ofNat_add]

/-- What holds of every slot holds of those left. -/
theorem onePeriodAtATime_of_suffix {s t : State} (h : t.env.sched <:+ s.env.sched)
    (hone : OnePeriodAtATime s) : OnePeriodAtATime t :=
  fun events he => hone events (h.mem he)

/-- What a record does to the Time Base: TICKs only, or, where it is a Sleep, TICKs and a SETCD. -/
theorem recordCase_time {s t : State} (h : RecordCase s t) :
    OnlyTicks s t ∨ ∃ d u, OnlyTicks s u ∧ t = (setCountdown d u).setPhase .status := by
  cases h with
  | sleep d e =>
    obtain ⟨-, -, -, -, -, hticks⟩ := removeOperands_frame Config.opSleep (lowByte d) (highByte d) s
    exact .inr ⟨d, _, hticks, e⟩
  | write a v e =>
    subst e
    obtain ⟨-, -, -, -, -, hremove⟩ := removeOperands_frame Config.opWrite a v s
    obtain ⟨-, -, -, -, -, -, hwrite⟩ :=
      devWrite_frame a v (removeOperands a v (removeDiscriminator Config.opWrite s))
    exact .inl (hremove.trans hwrite)
  | close e =>
    subst e
    obtain ⟨-, -, -, -, -, hremove⟩ := qRemoveInto_frame (fun k => { k with d := Config.opClose }) s
    obtain ⟨-, -, -, -, -, -, -, hclear⟩ := qClear_frame (removeDiscriminator Config.opClose s)
    obtain ⟨-, -, -, -, -, -, hreset⟩ :=
      chipReset_frame (qClear (removeDiscriminator Config.opClose s))
    exact .inl ((hremove.trans hclear).trans hreset)
  | other d e =>
    subst e
    obtain ⟨-, -, -, -, -, hremove⟩ := qRemoveInto_frame (fun k => { k with d := d }) s
    exact .inl hremove

theorem recordCase_periodsCounted {s t : State} (h : RecordCase s t) (hidle : InterruptIdle s.t)
    (hone : OnePeriodAtATime s) : PeriodsCounted s t := by
  rcases recordCase_time h with hticks | ⟨d, u, hticks, rfl⟩
  · exact periodsCounted_of_onlyTicks hticks hidle
  · have hone' := onePeriodAtATime_of_suffix (suffix_of_onlyTicks hticks) hone
    exact (periodsCounted_of_onlyTicks hticks hidle).trans
      (setCountdown_periodsCounted d (idle_of_onlyTicks hticks hidle) hone')

theorem step_periodsCounted {s t : State} (hidle : InterruptIdle s.t) (hone : OnePeriodAtATime s)
    (he : step s = .next t) : PeriodsCounted s t := by
  by_cases hopen : s.phase = .consume ∧ 0 < s.q.count ∧ (atGateRead s).t.gateOpen = true
  · obtain ⟨hp, hpos, hg⟩ := hopen
    rw [step_of_gateOpen hp hpos hg] at he
    have hticks := atGateRead_onlyTicks s
    exact (periodsCounted_of_onlyTicks hticks hidle).trans
      (recordCase_periodsCounted (exec_decodeInner_cases he) (idle_of_onlyTicks hticks hidle)
        (onePeriodAtATime_of_suffix (suffix_of_onlyTicks hticks) hone))
  · exact periodsCounted_of_onlyTicks (step_onlyTicks he fun hp hpos =>
      Bool.eq_false_iff.mpr fun hg => hopen ⟨hp, hpos, hg⟩) hidle

/-- Settles O56: every step counts its periods, and outside the consumer it leaves the countdown to
the TICKs. -/
theorem countersMoveByTickAndSleepOnly : Obligations.CountersMoveByTickAndSleepOnly := by
  intro s t hidle hone he
  obtain ⟨k, hk, htick⟩ := step_periodsCounted hidle hone he
  obtain ⟨-, hidle'⟩ := step_sched hidle he
  refine ⟨by omega, hidle', ?_, fun hp => ?_⟩
  · rw [htick, BitVec.toNat_add, BitVec.toNat_ofNat, Nat.add_mod_mod, hk, Nat.add_sub_cancel]
  · obtain ⟨j, hj, htime⟩ := time_of_onlyTicks (step_onlyTicks he fun h => absurd h hp) hidle
    rw [htime, iterate_onTick_cd, hj, Nat.add_sub_cancel]

/-! ## A step without a record (R120, R127) -/

/-- The consumer's registers are untouched, and the read index stays, or is 0 where the queue was
cleared. -/
def ConsumerRests (s t : State) : Prop := t.k = s.k ∧ (t.q.rd = s.q.rd ∨ t.q.rd = 0)

theorem ConsumerRests.refl (s : State) : ConsumerRests s s := ⟨rfl, .inl rfl⟩

theorem ConsumerRests.trans {s t u : State} (h : ConsumerRests s t) (h' : ConsumerRests t u) :
    ConsumerRests s u := by
  obtain ⟨hk, hrd⟩ := h
  obtain ⟨hk', hrd' | hrd'⟩ := h'
  · exact ⟨hk'.trans hk, by rwa [hrd']⟩
  · exact ⟨hk'.trans hk, .inr hrd'⟩

theorem fetchFrame_consumerRests {s t : State} (f : FetchFrame s t) : ConsumerRests s t := by
  obtain ⟨-, hq, -, -, hk, -⟩ := f
  exact ⟨hk, .inl (congrArg Queue.rd hq)⟩

theorem sendReply_consumerRests (bs : List Byte) (s : State) :
    ConsumerRests s (sendReply bs s) := by
  obtain ⟨-, hq, -, -, hk, -⟩ := sendReply_frame bs s
  exact ⟨hk, .inl (congrArg Queue.rd hq)⟩

theorem statusUpdate_consumerRests (s : State) : ConsumerRests s (statusUpdate s) := by
  obtain ⟨-, hq, -, hk, -⟩ := statusUpdate_frame s
  exact ⟨hk, .inl (congrArg Queue.rd hq)⟩

theorem clearAndReset_consumerRests (s : State) : ConsumerRests s (chipReset (qClear s)) := by
  obtain ⟨-, -, -, -, ck, -⟩ := qClear_frame s
  obtain ⟨-, -, rk, -⟩ := chipReset_frame (qClear s)
  obtain ⟨-, hq, -⟩ := clearAndReset_frame s
  exact ⟨rk.trans ck, .inr (congrArg Queue.rd hq)⟩

/-- QAPPEND never moves the read index, whether it appends or is refused. -/
theorem appendAll_rd (cap : Nat) (bs : List Byte) (q : Queue) :
    (Queue.appendAll cap bs q).rd = q.rd := by
  induction bs generalizing q with
  | nil => rfl
  | cons b bs ih => exact (ih (q.append cap b)).trans (append_rd q b)

theorem recordLoop_consumerRests (fuel : Nat) (s : State) :
    ConsumerRests s (recordLoop fuel s) := by
  obtain ⟨bs, hq, -, -, -, -, -, hk, -⟩ := recordLoop_frame fuel s
  exact ⟨hk, .inl (by rw [hq, appendAll_rd])⟩

theorem resumeOperands_consumerRests (k : Nat) (s : State) :
    ConsumerRests s (resumeOperands k s) := by
  obtain ⟨bs, hq, -, -, -, -, -, hk, -⟩ := resumeOperands_frame k s
  exact ⟨hk, .inl (by rw [hq, appendAll_rd])⟩

/-- From `s` to `t` no record ran: the Time Base saw TICKs only, and the consumer took nothing. -/
def RunsNoRecord (s t : State) : Prop := OnlyTicks s t ∧ ConsumerRests s t

theorem RunsNoRecord.refl (s : State) : RunsNoRecord s s := ⟨OnlyTicks.refl s, .refl s⟩

theorem RunsNoRecord.trans {s t u : State} (h : RunsNoRecord s t) (h' : RunsNoRecord t u) :
    RunsNoRecord s u :=
  ⟨OnlyTicks.trans h.1 h'.1, h.2.trans h'.2⟩

/-- A step runs no record unless its GATE read finds the gate open before one. -/
theorem step_runsNoRecord {s t : State} (he : step s = .next t)
    (closed : s.phase = .consume → 0 < s.q.count → (atGateRead s).t.gateOpen = false) :
    RunsNoRecord s t := by
  refine ⟨step_onlyTicks he closed, ?_⟩
  cases step_cases he with
  | boot h e => exact e ▸ (clearAndReset_consumerRests s).trans (statusUpdate_consumerRests _)
  | idle h f ht hp => exact fetchFrame_consumerRests f
  | reset u h f ht hc e =>
    exact e ▸ ((fetchFrame_consumerRests f).trans (clearAndReset_consumerRests u)).trans
      (sendReply_consumerRests _ _)
  | plain u bs h f ht e =>
    exact e ▸ (fetchFrame_consumerRests f).trans (sendReply_consumerRests bs u)
  | write u fuel h f ht room e =>
    exact e ▸ (fetchFrame_consumerRests f).trans (recordLoop_consumerRests fuel u)
  | wop h e => exact e ▸ recordLoop_consumerRests _ s
  | warg k h e => exact e ▸ resumeOperands_consumerRests k s
  | held h f el e => exact fetchFrame_consumerRests f
  | record h hc hg e => exact absurd hg (Bool.eq_false_iff.mp (closed h hc))
  | status h e => exact e ▸ statusUpdate_consumerRests s

/-! ## A step that runs the record at the head (R120) -/

/-- What the decoder reads from the queued bytes is the record CONSUME reads at their head. -/
theorem headRecord_of_decodeRecord {s : State} (hinv : QueueInv s.cfg.cap s.q) {i : Instr}
    {rest : List Byte} (hd : decodeRecord (contents s.cfg.cap s.q) = .ok (i, rest)) :
    0 < s.q.count ∧ headRecord s = i := by
  obtain ⟨d, b0, b1, rfl, hc⟩ := encode_decodeInner_of_decodeRecord true hd
  rw [encode_decodeInner] at hc
  split at hc
  case isTrue =>
    obtain ⟨hpos, front, -, inv1, hc1⟩ := front_of_contents hinv hc.symm
    obtain ⟨-, front1, -, inv2, hc2⟩ := front_of_contents inv1 hc1
    obtain ⟨-, front2, -⟩ := front_of_contents inv2 hc2
    exact ⟨hpos, by rw [headRecord, front, front1, front2]⟩
  case isFalse hone =>
    obtain ⟨hpos, front, -⟩ := front_of_contents hinv hc.symm
    refine ⟨hpos, ?_⟩
    rw [headRecord, front, decodeInner_of_no_operands hone, decodeInner_of_no_operands hone b0 b1]

theorem atGateRead_timePasses (s : State) : TimePasses 2 s (atGateRead s) := by
  obtain ⟨helapsed, hrx, -⟩ := (interleave_passes s).trans (interleave_passes (interleave s))
  exact ⟨helapsed, hrx, by simp [atGateRead]⟩

/-- A step at `P_CONSUME` whose GATE read finds the gate open runs the record that the decoder reads
from the queued bytes. -/
theorem step_runs_decoded {s : State} (hp : s.phase = .consume) (hinv : QueueInv s.cfg.cap s.q)
    (hopen : (atGateRead s).t.gateOpen = true) {hdr : Bool} {i : Instr} {rest : List Byte}
    (hd : decode hdr .record (contents s.cfg.cap s.q) = .ok (i, rest)) :
    ∃ u, TimePasses 2 s u ∧ step s = exec i u := by
  have hpasses := atGateRead_timePasses s
  have ⟨_, _, hcfg, hq, _⟩ := hpasses
  have hhead : 0 < (atGateRead s).q.count ∧ headRecord (atGateRead s) = i := by
    refine headRecord_of_decodeRecord (rest := rest) ?_ ?_
    · rwa [hcfg, hq]
    · rwa [hcfg, hq]
  obtain ⟨hpos, hrec⟩ := hhead
  rw [hq] at hpos
  exact ⟨atGateRead s, hpasses, by rw [step_of_gateOpen hp hpos hopen, hrec]⟩

/-! ## Several steps -/

theorem run_succ_of_step {n : Nat} {s t u : State} (he : step s = .next u)
    (hrun : Host.Core.run core n u = .next t) : Host.Core.run core (n + 1) s = .next t := by
  have hs : core.step s = .next u := he
  simp only [Host.Core.run, hs]
  exact hrun

/-- A run goes on, from any state before its last, with a step and a run. -/
theorem run_split {m n : Nat} {s t u : State} (hm : m < n)
    (hrun : Host.Core.run core n s = .next t) (hu : Host.Core.run core m s = .next u) :
    ∃ v k, step u = .next v ∧ Host.Core.run core k v = .next t := by
  induction m generalizing n s with
  | zero =>
    obtain ⟨n, rfl⟩ := Nat.exists_eq_succ_of_ne_zero (Nat.ne_zero_of_lt hm)
    obtain ⟨v, he, hrest⟩ := run_succ hrun
    cases hu
    exact ⟨v, n, he, hrest⟩
  | succ m ih =>
    obtain ⟨n, rfl⟩ := Nat.exists_eq_succ_of_ne_zero (Nat.ne_zero_of_lt hm)
    obtain ⟨v, he, hrest⟩ := run_succ hrun
    obtain ⟨v', he', hrest'⟩ := run_succ hu
    cases he.symm.trans he'
    exact ih (Nat.lt_of_succ_lt_succ hm) hrest hrest'

theorem step_suffix {s t : State} (hidle : InterruptIdle s.t) (he : step s = .next t) :
    t.env.sched <:+ s.env.sched := by
  obtain ⟨⟨n, hsched⟩, -⟩ := step_sched hidle he
  rw [hsched]
  exact List.drop_suffix n _

theorem run_suffix {n : Nat} {s t : State} (hidle : InterruptIdle s.t)
    (hrun : Host.Core.run core n s = .next t) : t.env.sched <:+ s.env.sched := by
  induction n generalizing s with
  | zero => cases hrun; exact List.suffix_rfl
  | succ n ih =>
    obtain ⟨u, he, hrest⟩ := run_succ hrun
    obtain ⟨-, hidle'⟩ := step_sched hidle he
    exact (ih hidle' hrest).trans (step_suffix hidle he)

/-- A run in which the gate is closed at every GATE read before a record runs none. -/
theorem run_runsNoRecord {n : Nat} {s t : State} (hrun : Host.Core.run core n s = .next t)
    (closed : ∀ m u, m < n → Host.Core.run core m s = .next u → RunsNoRecord s u →
      u.phase = .consume → 0 < u.q.count → (atGateRead u).t.gateOpen = false) :
    RunsNoRecord s t := by
  induction n generalizing s with
  | zero => cases hrun; exact .refl _
  | succ n ih =>
    obtain ⟨v, he, hrest⟩ := run_succ hrun
    have hstep : RunsNoRecord s v :=
      step_runsNoRecord he (closed 0 s (Nat.zero_lt_succ n) rfl (.refl s))
    exact hstep.trans (ih hrest fun m u hm hu hno =>
      closed (m + 1) u (Nat.succ_lt_succ hm) (run_succ_of_step he hu) (hstep.trans hno))

/-! ## Sleep gating (R93, R94, R127) -/

/-- While the Time Base sees TICKs only, the gate is open once as many periods have ended as the
countdown showed. -/
theorem gateOpen_iff_of_onlyTicks {s t : State} (h : OnlyTicks s t) (hidle : InterruptIdle s.t) :
    t.t.gateOpen = true ↔ timerCount t.env.sched + s.t.cd.toNat ≤ timerCount s.env.sched := by
  obtain ⟨k, hk, htime⟩ := time_of_onlyTicks h hidle
  rw [htime, gateOpen_iterate_onTick_iff]
  omega

theorem recordCase_suffix {s t : State} (h : RecordCase s t) (hidle : InterruptIdle s.t) :
    t.env.sched <:+ s.env.sched := by
  rcases recordCase_time h with hticks | ⟨d, u, hticks, rfl⟩
  · exact suffix_of_onlyTicks hticks
  · obtain ⟨-, hsched, -⟩ := setCountdown_spec d (idle_of_onlyTicks hticks hidle)
    rw [State.setPhase_env, hsched]
    exact (List.drop_suffix 2 _).trans (suffix_of_onlyTicks hticks)

/-- A step at `P_CONSUME` with a record and an open gate runs it after its two slots, so what the
step leaves of the schedule is left after them. -/
theorem step_suffix_of_gateOpen {s t : State} (hidle : InterruptIdle s.t) (hp : s.phase = .consume)
    (hpos : 0 < s.q.count) (hopen : (atGateRead s).t.gateOpen = true) (he : step s = .next t) :
    t.env.sched <:+ (atGateRead s).env.sched := by
  rw [step_of_gateOpen hp hpos hopen] at he
  exact recordCase_suffix (exec_decodeInner_cases he)
    (idle_of_onlyTicks (atGateRead_onlyTicks s) hidle)

/-- No record runs while fewer periods have ended than the countdown showed: by the GATE read of the
first that ran, as many would have. -/
theorem runsNoRecord_of_sleeping {n : Nat} {s t : State} (hidle : InterruptIdle s.t)
    (hrun : Host.Core.run core n s = .next t)
    (hlt : timerCount s.env.sched < timerCount t.env.sched + s.t.cd.toNat) : RunsNoRecord s t := by
  refine run_runsNoRecord hrun fun m u hm hu ⟨hticks, _⟩ hp hpos => ?_
  rw [← Bool.not_eq_true]
  intro hopen
  have hidle_u := idle_of_onlyTicks hticks hidle
  obtain ⟨v, k, he, hrest⟩ := run_split hm hrun hu
  obtain ⟨-, hidle_v⟩ := step_sched hidle_u he
  have hleft : timerCount t.env.sched ≤ timerCount (atGateRead u).env.sched :=
    timerCount_le_of_suffix ((run_suffix hidle_v hrest).trans
      (step_suffix_of_gateOpen hidle_u hp hpos hopen he))
  have hended := (gateOpen_iff_of_onlyTicks (hticks.trans (atGateRead_onlyTicks u)) hidle).mp hopen
  omega

/-- Settles O58: in a run without a record the countdown is lowered by the TICKs alone. -/
theorem noRecordRunsDuringASleep : Obligations.NoRecordRunsDuringASleep := by
  intro n s t hidle hrun hlt
  obtain ⟨hticks, hk, hrd⟩ := runsNoRecord_of_sleeping hidle hrun hlt
  obtain ⟨j, hj, htime⟩ := time_of_onlyTicks hticks hidle
  refine ⟨hk, hrd, ?_⟩
  rw [htime, iterate_onTick_cd]
  omega

/-! ## Sleep gating in time (R93, R194) -/

theorem slotsUsed_atGateRead {s t : State} (h : t.env.sched <:+ s.env.sched)
    (hslots : slotsUsed s t + 2 ≤ s.env.sched.length) :
    slotsUsed s (atGateRead t) = slotsUsed s t + 2 := by
  have hle := h.length_le
  simp only [slotsUsed, atGateRead_sched, List.length_drop] at hslots ⊢
  omega

section Periodic

variable {time : Config.Timing} {first : Nat} {clock : Nat → Nat} {s : State}

/-- The periods that ended on the way from `s` are those of the time that has passed. -/
theorem timerCount_of_periodic {t : State} (hper : Periodic time first clock s)
    (h : t.env.sched <:+ s.env.sched) :
    timerCount s.env.sched =
      periodsBy time first (clock (slotsUsed s t)) + timerCount t.env.sched := by
  have hdrop : t.env.sched = s.env.sched.drop (slotsUsed s t) := List.suffix_iff_eq_drop.mp h
  rw [← hper (slotsUsed s t) (Nat.sub_le _ _), hdrop, timerCount_take_add_drop]

theorem gateOpen_iff_of_periodic {t : State} (hpos : 0 < time.tTick)
    (hper : Periodic time first clock s) (hidle : InterruptIdle s.t) (h : OnlyTicks s t) :
    t.t.gateOpen = true ↔ s.t.gateOpensAt time first ≤ clock (slotsUsed s t) := by
  rw [gateOpen_iff_of_onlyTicks h hidle, gateOpensAt_le_iff hpos,
    timerCount_of_periodic hper (suffix_of_onlyTicks h)]
  omega

theorem gateRead_open_iff {t : State} (hpos : 0 < time.tTick)
    (hper : Periodic time first clock s) (hidle : InterruptIdle s.t) (h : OnlyTicks s t)
    (hslots : slotsUsed s t + 2 ≤ s.env.sched.length) :
    (atGateRead t).t.gateOpen = true ↔ s.t.gateOpensAt time first ≤ clock (slotsUsed s t + 2) := by
  rw [gateOpen_iff_of_periodic hpos hper hidle (h.trans (atGateRead_onlyTicks t)),
    slotsUsed_atGateRead (suffix_of_onlyTicks h) hslots]

/-- Before the gate opens fewer periods have ended than the countdown showed. -/
theorem sleeping_of_lt_gateOpensAt {t : State} (hpos : 0 < time.tTick)
    (hper : Periodic time first clock s) (h : t.env.sched <:+ s.env.sched)
    (hlt : clock (slotsUsed s t) < s.t.gateOpensAt time first) :
    timerCount s.env.sched < timerCount t.env.sched + s.t.cd.toNat := by
  rw [← Nat.not_le, gateOpensAt_le_iff hpos] at hlt
  have hcount := timerCount_of_periodic hper h
  omega

/-- Where every GATE read before a record came before the gate's opening, no record ran. -/
theorem runsNoRecord_before_opening {n : Nat} {t : State} (hpos : 0 < time.tTick)
    (hper : Periodic time first clock s) (hidle : InterruptIdle s.t)
    (hrun : Host.Core.run core n s = .next t)
    (hslots : slotsUsed s t + 2 ≤ s.env.sched.length)
    (hbefore : ∀ m u, m < n → Host.Core.run core m s = .next u → u.phase = .consume →
      0 < u.q.count → clock (slotsUsed s u + 2) < s.t.gateOpensAt time first) :
    RunsNoRecord s t := by
  refine run_runsNoRecord hrun fun m u hm hu ⟨hticks, _⟩ hp hcount => ?_
  have hidle_u := idle_of_onlyTicks hticks hidle
  obtain ⟨v, k, he, hrest⟩ := run_split hm hrun hu
  obtain ⟨-, hidle_v⟩ := step_sched hidle_u he
  have hlater : slotsUsed s u ≤ slotsUsed s t :=
    Nat.sub_le_sub_left ((run_suffix hidle_v hrest).trans (step_suffix hidle_u he)).length_le _
  rw [← Bool.not_eq_true, gateRead_open_iff hpos hper hidle hticks (by omega)]
  exact Nat.not_le.mpr (hbefore m u hm hu hp hcount)

end Periodic

/-- Settles O59. Up to `(N-1) · T_TICK` the run is one of O58. A GATE read at `gateOpensAt` or later
finds the gate open, since no record, and so no Sleep, has run before it. -/
theorem sleepIsBoundedInTime : Obligations.SleepIsBoundedInTime := by
  intro time first clock n s t hfirst hle hidle hper hrun
  have hpos : 0 < time.tTick := Nat.lt_of_lt_of_le hfirst hle
  refine ⟨fun hclosed hclock => ?_, fun hp hinv hslots hcase i rest hd => ?_⟩
  · have hearly : clock (slotsUsed s t) < s.t.gateOpensAt time first :=
      hclock.trans_lt (lt_gateOpensAt_of_closed hfirst hclosed)
    obtain ⟨hticks, hk, hrd⟩ := runsNoRecord_of_sleeping hidle hrun
      (sleeping_of_lt_gateOpensAt hpos hper (run_suffix hidle hrun) hearly)
    refine ⟨hk, hrd, ?_⟩
    rw [← Bool.not_eq_true, gateOpen_iff_of_periodic hpos hper hidle hticks]
    exact Nat.not_le.mpr hearly
  · have hread : RunsNoRecord s t ∧ s.t.gateOpensAt time first ≤ clock (slotsUsed s t + 2) := by
      rcases hcase with ⟨hlt, hlate⟩ | ⟨hlate, hbefore⟩
      · exact ⟨runsNoRecord_of_sleeping hidle hrun hlt, (gateOpensAt_le hle s.t).trans hlate⟩
      · exact ⟨runsNoRecord_before_opening hpos hper hidle hrun hslots hbefore, hlate⟩
    obtain ⟨⟨hticks, -⟩, hlate⟩ := hread
    exact step_runs_decoded hp hinv
      ((gateRead_open_iff hpos hper hidle hticks hslots).mpr hlate) hd

end Sys2Proof.Proofs

/-! PROOFS. The statements of 42_command_ingestion.md: the header and the dispatch (R100), the four
commands (R101 to R107), and the replies and waits (R108 to R111). A C.WRITE is told in three parts:
how it comes to its record loop (`EntersLoop`), from its header or from a wait; what the loop takes
and appends (`Ingested`); and the three ways the loop ends, each one lemma that the statements about
a fresh and about a waiting C.WRITE share. -/

namespace Sys2Proof.Proofs

open Sys2Proof.Machine Sys2Proof.Safety Sys2Proof.Laws

/-! ## A step of Command Ingestion, phase by phase (R151) -/

theorem step_cmd {s : State} (hp : s.phase = .cmd) : step s = fetchHeader s := by
  simp only [step, hp]

theorem step_len {s : State} (hp : s.phase = .len) : step s = fetchLen s := by
  simp only [step, hp]

theorem step_wop {s : State} (hp : s.phase = .wop) : step s = .next (runRecords s) := by
  simp only [step, hp]

theorem step_warg {s : State} {k : Nat} (hp : s.phase = .warg k) :
    step s = .next (resumeOperands k s) := by
  simp only [step, hp]

theorem step_reply {s : State} {pending : List Byte} (hp : s.phase = .reply pending) :
    step s = .next (sendReply pending s) := by
  simp only [step, hp, resumeReply_eq]

/-! ## Reading a header (R100) -/

theorem rxByte_of_nil {s : State} (h : (interleave s).rx = []) :
    rxByte s = (none, interleave s) := by
  simp only [rxByte, h]

theorem rxByte_of_cons {s : State} {b : Byte} {rest : List Byte}
    (h : (interleave s).rx = b :: rest) : rxByte s = (some b, (interleave s).setRx rest) :=
  (rxByte_reads h).1

/-- What stands in `RX` at the next `RxByte()` after bytes were taken from it. -/
theorem interleave_rx_of_takes {n : Nat} {bs : List Byte} {s t : State} (h : Takes n bs s t) :
    s.rx ++ hostBytes (s.env.sched.take (n + 1)) = bs ++ (interleave t).rx := by
  rw [takes_rx h 1, interleave_rx]

/-- The state after the code of a header has been read. -/
def codeTaken (code : Byte) (rest : List Byte) (s : State) : State :=
  ((interleave s).setRx rest).setI { s.i with cmd := code }

theorem codeTaken_takes {s : State} {code : Byte} {rest : List Byte}
    (h : (interleave s).rx = code :: rest) : Takes 1 [code] s (codeTaken code rest s) :=
  rxByte_takes h

theorem codeTaken_fetchFrame (code : Byte) (rest : List Byte) (s : State) :
    FetchFrame s (codeTaken code rest s) := interleave_fetchFrame s

theorem codeTaken_phase (code : Byte) (rest : List Byte) (s : State) :
    (codeTaken code rest s).phase = s.phase := interleave_phase s

theorem fetchLen_of_nil {s : State} (h : (interleave s).rx = []) :
    fetchLen s = .next ((interleave s).setPhase .len) := by
  simp only [fetchLen, rxByte_of_nil h]

theorem fetchLen_of_cons {s : State} {len : Byte} {rest : List Byte}
    (h : (interleave s).rx = len :: rest) :
    fetchLen s = exec (decodeOuter s.i.cmd len)
      (((interleave s).setRx rest).setI { s.i with len := len }) := by
  simp only [fetchLen, rxByte_of_cons h, State.setRx_i, interleave_i]

theorem fetchHeader_of_nil {s : State} (h : (interleave s).rx = []) :
    fetchHeader s = .next ((interleave s).setPhase .cmd) := by
  simp only [fetchHeader, rxByte_of_nil h]

theorem fetchHeader_of_cons {s : State} {code : Byte} {rest : List Byte}
    (h : (interleave s).rx = code :: rest) :
    fetchHeader s = if hasLenByte s.cfg.hdrLenAlways code then fetchLen (codeTaken code rest s)
      else exec (decodeOuter code 0#8) (codeTaken code rest s) := by
  simp only [fetchHeader, rxByte_of_cons h, State.setRx_i, interleave_i, State.setI_cfg,
    State.setRx_cfg, interleave_cfg]
  rfl

/-- `w` without what reading a header has done to `RX` and `I`. -/
def unread (n : Nat) (s w : State) : State :=
  { w with rx := s.rx ++ hostBytes (s.env.sched.take n), i := s.i }

theorem unread_timePasses {n : Nat} {s w : State} (hel : Elapsed n s w) (f : FetchFrame s w)
    (hp : w.phase = s.phase) : TimePasses n s (unread n s w) := by
  obtain ⟨hcfg, hq, hdev, hstatus, hk, htx, hfree⟩ := f
  exact ⟨hel, rfl, hcfg, hq, hdev, hstatus, rfl, hk, hp, htx, hfree⟩

theorem interleave_unread_timePasses (s : State) : TimePasses 1 s (unread 1 s (interleave s)) :=
  unread_timePasses (interleave_elapsed s) (interleave_fetchFrame s) (interleave_phase s)

theorem codeTaken_unread_timePasses {s : State} {code : Byte} {rest : List Byte}
    (h : (interleave s).rx = code :: rest) :
    TimePasses 1 s (unread 1 s (codeTaken code rest s)) :=
  unread_timePasses (codeTaken_takes h).1 (codeTaken_fetchFrame code rest s)
    (codeTaken_phase code rest s)

/-- The slot in which the length byte is read, after the one in which the code was. -/
theorem lenRead_unread_timePasses {s : State} {code : Byte} {rest : List Byte}
    (h : (interleave s).rx = code :: rest) :
    TimePasses 2 s (unread 2 s (interleave (codeTaken code rest s))) :=
  unread_timePasses
    (elapsed_trans (codeTaken_takes h).1 (interleave_elapsed _) fun hi => interleave_idle hi)
    ((codeTaken_fetchFrame code rest s).trans (interleave_fetchFrame _))
    ((interleave_phase _).trans (codeTaken_phase code rest s))

/-- Settles O37. A header is as long as the decoder takes it to be, so the second `RxByte()` is made
where the packet has a length byte, and finds it. -/
theorem stepRunsThePacketOnRx : Obligations.StepRunsThePacketOnRx := by
  intro n s i rest hp hne hdec hlen
  obtain ⟨code, len, hwf, rfl, hbs⟩ := encodeHeader_of_decodePacket hdec
  rw [← interleave_rx] at hne
  obtain ⟨c, tail, hrx⟩ := List.exists_cons_of_ne_nil hne
  rw [step_cmd hp, fetchHeader_of_cons hrx]
  by_cases hl : hasLenByte s.cfg.hdrLenAlways code = true
  · rw [encodeHeader, if_pos hl] at hbs
    obtain rfl : n = 2 := by
      rw [← hbs, List.length_append] at hlen
      exact (Nat.add_right_cancel hlen).symm
    rw [interleave_rx_of_takes (codeTaken_takes hrx)] at hbs ⊢
    simp only [List.cons_append, List.nil_append, List.cons.injEq] at hbs ⊢
    obtain ⟨rfl, hrx'⟩ := hbs
    rw [if_pos hl, fetchLen_of_cons hrx'.symm, ← hrx']
    exact ⟨_, lenRead_unread_timePasses hrx, rfl⟩
  · rw [encodeHeader, if_neg hl] at hbs
    obtain rfl : n = 1 := by
      rw [← hbs, List.length_append] at hlen
      exact (Nat.add_right_cancel hlen).symm
    rw [← interleave_rx, hrx] at hbs ⊢
    simp only [List.cons_append, List.nil_append, List.cons.injEq] at hbs
    obtain ⟨rfl, rfl⟩ := hbs
    obtain rfl : len = 0#8 := by simpa [hl] using hwf
    rw [if_neg hl]
    exact ⟨_, codeTaken_unread_timePasses hrx, rfl⟩

/-- Settles O38: the second `RxByte()` finds `RX` empty. -/
theorem headerWaitsForItsLength : Obligations.HeaderWaitsForItsLength := by
  intro s code hp hrx1 hrx2 hl
  rw [← interleave_rx] at hrx1
  rw [interleave_rx_of_takes (codeTaken_takes hrx1)] at hrx2
  have hnil : (interleave (codeTaken code [] s)).rx = [] := List.append_cancel_left hrx2
  rw [step_cmd hp, fetchHeader_of_cons hrx1, if_pos hl, fetchLen_of_nil hnil]
  have hi : (interleave (codeTaken code [] s)).i = { s.i with cmd := code } := interleave_i _
  exact ⟨_, lenRead_unread_timePasses hrx1,
    congrArg _ (State.ext rfl rfl rfl rfl rfl hi rfl rfl hnil rfl rfl rfl)⟩

/-- Settles O39. -/
theorem stepRunsThePacketOnceItsLengthComes : Obligations.StepRunsThePacketOnceItsLengthComes := by
  intro s len rest hp hrx
  rw [← interleave_rx] at hrx
  rw [step_len hp, fetchLen_of_cons hrx]
  exact ⟨_, interleave_unread_timePasses s, rfl⟩

/-! ## Nothing stops (R109) -/

theorem exec_next (i : Instr) (s : State) : ∃ t, exec i s = .next t := by
  cases i with
  | cWrite len =>
    simp only [exec, execCWrite]
    split <;> exact ⟨_, rfl⟩
  | _ => exact ⟨_, rfl⟩

theorem fetchLen_next (s : State) : ∃ t, fetchLen s = .next t := by
  cases h : (interleave s).rx with
  | nil => exact ⟨_, fetchLen_of_nil h⟩
  | cons b rest => exact fetchLen_of_cons h ▸ exec_next _ _

theorem fetchHeader_next (s : State) : ∃ t, fetchHeader s = .next t := by
  cases h : (interleave s).rx with
  | nil => exact ⟨_, fetchHeader_of_nil h⟩
  | cons b rest =>
    rw [fetchHeader_of_cons h]
    split
    · exact fetchLen_next _
    · exact exec_next _ _

theorem consume_next (s : State) : ∃ t, consume s = .next t := by
  dsimp only [consume]
  split
  · exact ⟨_, rfl⟩
  · split
    · exact exec_next _ _
    · exact ⟨_, rfl⟩

/-- Settles O47, phase by phase. -/
theorem nothingStopsTheMachine : Obligations.NothingStopsTheMachine := by
  refine ⟨exec_next, fun s => ?_⟩
  cases hp : s.phase with
  | cmd => exact step_cmd hp ▸ fetchHeader_next s
  | len => exact step_len hp ▸ fetchLen_next s
  | reply pending => exact ⟨_, step_reply hp⟩
  | consume =>
    simp only [step, hp]
    exact consume_next s
  | boot | poll | wop | warg | status =>
    simp only [step, hp]
    exact ⟨_, rfl⟩

/-! ## C.RESET, C.QUERY and the unassigned codes (R101, R106, R107) -/

theorem clearAndReset_passes (s : State) : ∃ n, Passes n s (chipReset (qClear s)) := by
  obtain ⟨-, hclear⟩ := qClear_spec s
  obtain ⟨-, hreset, -⟩ := chipReset_spec (qClear s)
  exact ⟨_, hclear.trans hreset⟩

/-- QCLEAR and CHIPRESET change the queue and the device side; else only time passes. -/
theorem clearAndReset_timePasses (s : State) : ∃ n,
    TimePasses n s { chipReset (qClear s) with q := s.q, dev := s.dev } := by
  obtain ⟨n, hel, hrx, -⟩ := clearAndReset_passes s
  obtain ⟨hclear, -⟩ := qClear_spec s
  obtain ⟨⟨hcfg, -, hstatus, hi, hk, hphase, htx, hfree⟩, -⟩ := chipReset_spec (qClear s)
  refine ⟨n, hel, hrx, hcfg.trans ?_, rfl, rfl, hstatus.trans ?_, hi.trans ?_, hk.trans ?_,
    hphase.trans ?_, htx.trans ?_, hfree.trans ?_⟩
  all_goals simp [hclear]

/-- Settles O23: the reply is sent from the state that QCLEAR and CHIPRESET leave. -/
theorem cResetClearsResetsAndReplies : Obligations.CResetClearsResetsAndReplies := by
  intro len s
  obtain ⟨n, hpasses⟩ := clearAndReset_timePasses s
  obtain ⟨-, hq, hdev⟩ := clearAndReset_frame s
  have htx : (chipReset (qClear s)).tx = s.tx := by
    obtain ⟨-, -, -, -, -, -, -, -, -, htx, -⟩ := hpasses
    exact htx
  obtain ⟨-, -, -, hline, -⟩ := clearAndReset_passes s
  refine ⟨n, _, Device.resetDone s.cfg.resetWriteSeq s.dev, chipReset (qClear s), _, hpasses,
    resetDone_done _ _, ?_, rfl, rfl, sendReply_repliesOnly _ _, (sendReply_outcome _ htx hline).1⟩
  exact State.ext rfl hq rfl hdev rfl rfl rfl rfl rfl rfl rfl rfl

theorem bytesOfWord_ofNat (x : Nat) :
    bytesOfWord (BitVec.ofNat 16 x) = [BitVec.ofNat 8 x, BitVec.ofNat 8 (x / 256)] := by
  rw [bytesOfWord_eq, BitVec.toNat_ofNat]
  congr 1
  · apply BitVec.eq_of_toNat_eq; simp only [BitVec.toNat_ofNat]; omega
  · congr 1; apply BitVec.eq_of_toNat_eq; simp only [BitVec.toNat_ofNat]; omega

/-- Settles O30. -/
theorem cQueryReportsCapacityAndOccupancy : Obligations.CQueryReportsCapacityAndOccupancy := by
  intro len s
  have hreply := sendReply_repliesOnly (queryReply s.cfg.cap s.q.count) s
  refine ⟨_, rfl, ?_⟩
  simpa only [queryReply, bytesOfWord_ofNat, List.cons_append, List.nil_append] using hreply

/-- Settles O31. -/
theorem unassignedOuterCodeDrawsInvalid : Obligations.UnassignedOuterCodeDrawsInvalid :=
  fun _ _ s => ⟨_, rfl, sendReply_repliesOnly [Config.statusInvalid] s⟩

/-! ## C.WRITE: the overflow check (R102) -/

/-- One slot before the first byte of a reply makes no difference to what is seen of it. -/
theorem sendReply_interleave_repliesOnly (bs : List Byte) (s : State) :
    RepliesOnly bs s (sendReply bs (interleave s)) := by
  obtain ⟨hreply, n, u, ⟨hel, hrx, hcfg, hq, hdev, hstatus, hi, hk, hphase, htx, hfree⟩, ht⟩ :=
    sendReply_repliesOnly bs (interleave s)
  obtain ⟨hout, -⟩ := sendReply_outcome bs (interleave_tx s) interleave_lineFree
  refine ⟨hout, 1 + n, u, ⟨elapsed_trans (interleave_elapsed s) hel interleave_idle, ?_, ?_⟩, ht⟩
  · rw [hrx, interleave_rx, interleave_sched, take_add_drop, hostBytes_append, List.append_assoc]
  · simp [hcfg, hq, hdev, hstatus, hi, hk, hphase, htx, hfree]

/-- The state in which the record loop of a C.WRITE starts. -/
def declared (len : Byte) (s : State) : State := (interleave s).setI { s.i with rem := len }

theorem execCWrite_overflow {len : Byte} {s : State} (h : s.q.freeCapacity s.cfg.cap < len.toNat) :
    exec (.cWrite len) s = .next (sendReply [Config.statusOverflow] (interleave s)) := by
  simp [exec, execCWrite, h, raiseError]

theorem execCWrite_fits {len : Byte} {s : State}
    (h : ¬s.q.freeCapacity s.cfg.cap < len.toNat) :
    exec (.cWrite len) s = .next (runRecords (declared len s)) := by
  simp [exec, execCWrite, h, declared]

/-- Settles O24. -/
theorem cWriteChecksTheDeclaredLength : Obligations.CWriteChecksTheDeclaredLength :=
  fun _ s _ => ⟨fun hover =>
      ⟨_, execCWrite_overflow hover, sendReply_interleave_repliesOnly _ s⟩,
    fun hfits => ⟨_, interleave_timePasses s, execCWrite_fits (Nat.not_lt.mpr hfits)⟩⟩

/-! ## What the record loop takes and appends (R103) -/

/-- On the way from `s` to `t`, in `n` slots, a C.WRITE has read the bytes `taken` and appended the
bytes `kept`, and sent nothing. -/
structure Ingested (n : Nat) (taken kept : List Byte) (s t : State) : Prop where
  reads : Reads n taken s t
  frame : IngestFrame s t
  queue : t.q = Queue.appendAll s.cfg.cap kept s.q

theorem Ingested.refl (s : State) : Ingested 0 [] [] s s :=
  ⟨(Passes.refl s).reads, .refl s, rfl⟩

theorem Ingested.trans {m n : Nat} {taken kept taken' kept' : List Byte} {s t u : State}
    (h : Ingested m taken kept s t) (h' : Ingested n taken' kept' t u) :
    Ingested (m + n) (taken ++ taken') (kept ++ kept') s u := by
  have ⟨hcfg, _⟩ := h.frame
  exact ⟨h.reads.trans h'.reads, h.frame.trans h'.frame,
    by rw [h'.queue, h.queue, hcfg, appendAll_append]⟩

theorem Ingested.setPhase {n : Nat} {taken kept : List Byte} {s t : State}
    (h : Ingested n taken kept s t) (p : Phase) : Ingested n taken kept s (t.setPhase p) :=
  ⟨h.reads, h.frame, h.queue⟩

/-- Where there is room for them, QAPPENDs append what they are given. -/
theorem appended_of_appendAll {p : List Byte} {s t : State} (hinv : QueueInv s.cfg.cap s.q)
    (room : s.q.count + p.length ≤ s.cfg.cap) (h : t.q = Queue.appendAll s.cfg.cap p s.q) :
    Appended p s t := by
  have ⟨hlt, _⟩ := hinv
  obtain ⟨hcontents, hcount, hrd⟩ := appendAll_contents p hinv room
  obtain ⟨hwr, hcells⟩ := appendAll_frame p hlt room
  rw [Appended, h]
  exact ⟨hcontents, appendAll_inv p hinv, hcount, hrd, hwr, hcells⟩

theorem ingestsOnly_of_kept {s t : State} (hcfg : t.cfg = s.cfg) (hdev : t.dev = s.dev)
    (hstatus : t.status = s.status) (hk : t.k = s.k) (hfree : t.free = s.free)
    (hcmd : t.i.cmd = s.i.cmd) (hlen : t.i.len = s.i.len) : IngestsOnly s t := by
  refine ⟨?_, State.ext hcfg rfl rfl hdev hstatus rfl hk rfl rfl rfl rfl hfree⟩
  dsimp only
  rw [← hcmd, ← hlen]

theorem ingestFrame_ingestsOnly {s t : State} (h : IngestFrame s t) : IngestsOnly s t := by
  obtain ⟨hcfg, hdev, hstatus, hk, -, hfree, hcmd, hlen⟩ := h
  exact ingestsOnly_of_kept hcfg hdev hstatus hk hfree hcmd hlen

theorem sendReply_i (bs : List Byte) (s : State) : (sendReply bs s).i = s.i := by
  obtain ⟨-, hi, -⟩ := sendReply_outcome bs (u := s) rfl id
  exact hi

/-- A C.WRITE that is answered: what it has taken and appended, and the one byte sent. -/
theorem Ingested.answered {n : Nat} {taken kept : List Byte} {s u : State}
    (h : Ingested n taken kept s u) (hinv : QueueInv s.cfg.cap s.q)
    (room : s.q.count + kept.length ≤ s.cfg.cap) (status : Byte) :
    (∃ m, Takes m taken s (sendReply [status] u)) ∧
      ReplyOutcome [status] s (sendReply [status] u) ∧ Appended kept s (sendReply [status] u) ∧
      IngestsOnly s (sendReply [status] u) := by
  obtain ⟨htakes, hline, hidle⟩ := h.reads
  obtain ⟨hcfg, hdev, hstatus, hk, htx, hfree, hcmd, hlen⟩ := h.frame
  obtain ⟨hout, hi, m, hm⟩ := sendReply_outcome [status] htx hline
  obtain ⟨rcfg, rq, rdev, rstatus, rk, rfree, -⟩ := sendReply_frame [status] u
  refine ⟨⟨n + m, ?_⟩, hout, appended_of_appendAll hinv room (rq.trans h.queue),
    ingestsOnly_of_kept (rcfg.trans hcfg) (rdev.trans hdev) (rstatus.trans hstatus) (rk.trans hk)
      (rfree.trans hfree) (by rw [hi, hcmd]) (by rw [hi, hlen])⟩
  simpa only [List.append_nil] using takes_trans htakes hm hidle

/-- A C.WRITE that waits: what it has taken it has appended. -/
theorem Ingested.waits {n : Nat} {p : List Byte} {s t : State} (h : Ingested n p p s t)
    (hinv : QueueInv s.cfg.cap s.q) (room : s.q.count + p.length ≤ s.cfg.cap) (hrx : t.rx = []) :
    WaitsAfter n p s t := by
  obtain ⟨htakes, hline, -⟩ := h.reads
  have ⟨_, _, _, _, htx, _⟩ := h.frame
  exact ⟨htakes, hrx, htx, hline, appended_of_appendAll hinv room h.queue,
    ingestFrame_ingestsOnly h.frame⟩

/-- `LastRecordIs` speaks of `I.op` and `I.n` only. -/
theorem lastRecordIs_congr {rs : List Instr} {s s' t t' : State} (h : LastRecordIs rs s t)
    (hop : s'.i.op = s.i.op) (hn : s'.i.n = s.i.n) (hop' : t'.i.op = t.i.op)
    (hn' : t'.i.n = t.i.n) : LastRecordIs rs s' t' := by
  rwa [LastRecordIs, hop, hn, hop', hn']

/-! ## The ends of the record loop (R103, R104, R111) -/

theorem recordLoop_of_done {s : State} (h : s.i.rem.toNat = 0) (fuel : Nat) :
    recordLoop (fuel + 1) s = sendReply [Config.statusOk] s :=
  if_pos (BitVec.eq_of_toNat_eq h)

/-- The length of a record does not change when `I.n` is widened to compare it with `I.rem`. -/
theorem rem_lt_recLen_iff (rem op : Byte) :
    rem < (recLen op).setWidth 8 ↔ rem.toNat < (recLen op).toNat := by
  rw [BitVec.lt_def, BitVec.toNat_setWidth_of_le (by decide)]

/-- A byte that starts no record, or one too long, is taken and answered. -/
theorem recordLoop_of_bad {op : Byte} {s : State} (hpos : s.i.rem.toNat ≠ 0)
    (hbad : recLen op = 0#2 ∨ s.i.rem.toNat < (recLen op).toNat) (h : ArrivesInTime 0 [op] s)
    (fuel : Nat) : ∃ u, recordLoop (fuel + 1) s = sendReply [Config.statusInvalid] u ∧
      Ingested 1 [op] [] s u ∧ u.i = { s.i with op := op, n := recLen op } := by
  obtain ⟨rest, hrx⟩ := arrivesInTime_head h
  have hrem : ¬s.i.rem = 0#8 := fun h0 => hpos (congrArg BitVec.toNat h0)
  rw [← rem_lt_recLen_iff] at hbad
  refine ⟨((interleave s).setRx rest).setI { s.i with op := op, n := recLen op }, ?_,
    ⟨(rxByte_reads hrx).2, ?_, ?_⟩, rfl⟩
  · simp only [recordLoop, if_neg hrem, rxByte_of_cons hrx, State.setRx_i, interleave_i]
    exact if_pos hbad
  · simp [IngestFrame]
  · simp [Queue.appendAll]

theorem recordLoop_of_nil {s : State} (hpos : s.i.rem.toNat ≠ 0) (h : (interleave s).rx = [])
    (fuel : Nat) : recordLoop (fuel + 1) s = (interleave s).setPhase .wop := by
  have hrem : ¬s.i.rem = 0#8 := fun h0 => hpos (congrArg BitVec.toNat h0)
  simp only [recordLoop, if_neg hrem, rxByte_of_nil h]

theorem ingested_interleave (s : State) : Ingested 1 [] [] s (interleave s) :=
  ⟨(interleave_passes s).reads, by simp [IngestFrame], interleave_q s⟩

/-- A record of which only the bytes `here` come. -/
theorem recordLoop_of_short {r : Instr} {here missing : List Byte} (hr : isQueueRecord r = true)
    (hsplit : encode true r = here ++ missing) (hmissing : missing ≠ []) {s : State}
    (hfit : (encode true r).length ≤ s.i.rem.toNat) (h : RunsOutAfter 0 here s) (fuel : Nat) :
    Ingested (2 * here.length + 1) here here s (recordLoop (fuel + 1) s) ∧
      (recordLoop (fuel + 1) s).rx = [] ∧ (recordLoop (fuel + 1) s).i.rem = s.i.rem ∧
      WaitsAt [] r here missing s (recordLoop (fuel + 1) s) := by
  obtain ⟨op, args, he, h0, hlen⟩ := recLen_encode hr
  have hpos : s.i.rem.toNat ≠ 0 := by rw [he, List.length_cons] at hfit; omega
  cases here with
  | nil =>
    have hrx : (interleave s).rx = [] := (interleave_rx s).trans h.2
    rw [recordLoop_of_nil hpos hrx]
    exact ⟨(ingested_interleave s).setPhase _, hrx, congrArg _ (interleave_i s),
      fun _ => ⟨rfl, fun _ => ⟨congrArg _ (interleave_i s), congrArg _ (interleave_i s)⟩, by simp⟩,
      fun hne => absurd rfl hne⟩
  | cons b here =>
    rw [he, List.cons_append] at hsplit
    obtain ⟨rfl, rfl⟩ := List.cons.inj hsplit
    obtain ⟨k, hk⟩ := Nat.exists_eq_succ_of_ne_zero (List.length_pos_of_ne_nil hmissing).ne'
    rw [List.length_append] at hlen
    rw [he, List.length_cons, List.length_append] at hfit
    obtain ⟨rest, hrx⟩ := arrivesInTime_head h.1
    obtain ⟨t, hloop, hreads, hframe, hq, hi⟩ := recordLoop_opcode hrx h0 (by omega) fuel
    have hshort : RunsOutAfter 0 here t :=
      runsOutAfter_after (before := 0) (after := 0) (bs := [op]) h hreads.1
    obtain ⟨u, hargs, hreads', hnil, hframe', hq', hi'⟩ := appendOperands_short here k hshort
    rw [show (recLen op).toNat - 1 = here.length + (k + 1) by omega, hargs] at hloop
    have hu : Ingested (2 + (2 * here.length + 1)) ([op] ++ here) ([op] ++ here) s u :=
      .trans ⟨hreads, hframe, hq⟩ ⟨hreads', hframe', hq'⟩
    rw [show 2 + (2 * here.length + 1) = 2 * (op :: here).length + 1 by
      rw [List.length_cons]; omega] at hu
    have hiu : u.i = { s.i with op := op, n := recLen op } := hi'.trans hi
    replace hloop : recordLoop (fuel + 1) s = u.setPhase (.warg (k + 1)) := hloop
    rw [hloop]
    refine ⟨hu.setPhase _, hnil, (congrArg IngestRegs.rem hiu :), fun hne => absurd hne (by simp),
      fun _ => ⟨by rw [hk]; rfl, ?_⟩⟩
    rw [State.setPhase_i, hiu, he, List.length_cons, List.length_append]
    exact ⟨rfl, rfl, hlen⟩

/-! ## From the header, or from a wait, to the record loop (R102, R103, R151) -/

/-- A C.WRITE comes from `s` to its record loop in `u`: `before` slots pass first, then the operand
bytes `bs` for which it had waited are read and appended; `rem` bytes of the declared length are
left. -/
structure EntersLoop (before : Nat) (bs : List Byte) (rem : Nat) (s u : State) : Prop where
  ingested : Ingested (before + 2 * bs.length) bs bs s u
  op : u.i.op = s.i.op
  n : u.i.n = s.i.n
  rem : u.i.rem.toNat = rem

theorem declared_entersLoop (len : Byte) (s : State) :
    EntersLoop 1 [] len.toNat s (declared len s) :=
  ⟨⟨(interleave_passes s).reads, by simp [declared, IngestFrame], interleave_q s⟩, rfl, rfl, rfl⟩

theorem execCWrite_enters {len : Byte} {s : State} (room : s.q.count + len.toNat ≤ s.cfg.cap) :
    ∃ u, exec (.cWrite len) s = .next (runRecords u) ∧ EntersLoop 1 [] len.toNat s u := by
  have hfits : ¬s.q.freeCapacity s.cfg.cap < len.toNat := by
    rw [Queue.freeCapacity]; omega
  exact ⟨_, execCWrite_fits hfits, declared_entersLoop len s⟩

theorem resumeOperands_of_all {k : Nat} {s u : State} (h : appendOperands k s = (u, true)) :
    resumeOperands k s = runRecords u.recordDone := by
  simp only [resumeOperands, h]

theorem resumeOperands_of_short {k : Nat} {s u : State} (h : appendOperands k s = (u, false)) :
    resumeOperands k s = u := by
  simp only [resumeOperands, h]

/-- A step at `P_WOP` is in the record loop at once, one at `P_WARG` when the missing bytes have
come. -/
theorem step_enters {k rem : Nat} {s : State} (h : PayloadLeft k rem s) {bs : List Byte}
    (hbs : bs.length = k) (harrives : ArrivesInTime 0 bs s) :
    ∃ u, step s = .next (runRecords u) ∧ EntersLoop 0 bs rem s u := by
  rcases h with ⟨hp, hn, rfl⟩ | ⟨hp, rfl, rfl⟩
  · obtain ⟨u, hargs, hreads, hframe, hq, hi⟩ := appendOperands_all bs harrives
    rw [hbs] at hargs
    refine ⟨u.recordDone, by rw [step_warg hp, resumeOperands_of_all hargs], ⟨?_, hframe, hq⟩,
      (congrArg IngestRegs.op hi :), (congrArg IngestRegs.n hi :), ?_⟩
    · rw [Nat.zero_add]
      exact hreads
    · rw [recordDone_rem (by rwa [hi]), hi]
  · obtain rfl : bs = [] := List.eq_nil_of_length_eq_zero hbs
    exact ⟨s, step_wop hp, .refl s, rfl, rfl, rfl⟩

/-! ## A C.WRITE from its start, or from a wait, to its end -/

section Loop

variable {before rem : Nat} {bs : List Byte} {rs : List Instr} {s u : State}

/-- The whole records that come in time are appended. -/
theorem EntersLoop.records (h : EntersLoop before bs rem s u)
    (hrs : ∀ r ∈ rs, isQueueRecord r = true) (hfit : (encodeRecords rs).length ≤ rem)
    (harrives : ArrivesInTime before (bs ++ encodeRecords rs) s) :
    ∃ fuel v, runRecords u = recordLoop (fuel + 1) v ∧
      Ingested (before + 2 * (bs ++ encodeRecords rs).length) (bs ++ encodeRecords rs)
        (bs ++ encodeRecords rs) s v ∧
      v.i.rem.toNat = rem - (encodeRecords rs).length ∧ LastRecordIs rs s v := by
  obtain ⟨hbs, hop, hn, rfl⟩ := h
  have harrives' : ArrivesInTime 0 (encodeRecords rs) u :=
    arrivesInTime_after (after := 0) harrives hbs.reads.1
  have hcount := length_le_encodeRecords rs hrs
  obtain ⟨v, hloop, hreads, hframe, hq, hrem, -, hlast⟩ :=
    recordLoop_records rs hrs harrives' hfit (u.i.rem.toNat - rs.length + 1)
  refine ⟨u.i.rem.toNat - rs.length, v, ?_, ?_, hrem,
    lastRecordIs_congr hlast hop.symm hn.symm rfl rfl⟩
  · rw [← hloop, runRecords]
    congr 1
    omega
  · rw [List.length_append, Nat.mul_add, ← Nat.add_assoc]
    exact hbs.trans ⟨hreads, hframe, hq⟩

/-- The payload is whole records, and all of it comes in time (R103, R105). -/
theorem EntersLoop.completes (h : EntersLoop before bs rem s u)
    (hinv : QueueInv s.cfg.cap s.q) (room : s.q.count + bs.length + rem ≤ s.cfg.cap)
    (hrs : ∀ r ∈ rs, isQueueRecord r = true) (hall : (encodeRecords rs).length = rem)
    (harrives : ArrivesInTime before (bs ++ encodeRecords rs) s) :
    ∃ n, Takes n (bs ++ encodeRecords rs) s (runRecords u) ∧
      ReplyOutcome [0xE0#8] s (runRecords u) ∧ Appended (bs ++ encodeRecords rs) s (runRecords u) ∧
      (runRecords u).i.rem = 0#8 ∧ LastRecordIs rs s (runRecords u) ∧
      IngestsOnly s (runRecords u) := by
  obtain ⟨fuel, v, hloop, hv, hrem, hlast⟩ := h.records hrs hall.le harrives
  have hdone : v.i.rem.toNat = 0 := by omega
  obtain ⟨⟨n, htakes⟩, hout, happended, honly⟩ :=
    hv.answered hinv (by rw [List.length_append]; omega) Config.statusOk
  have hi : (sendReply [Config.statusOk] v).i = v.i := sendReply_i _ v
  rw [hloop, recordLoop_of_done hdone]
  exact ⟨n, htakes, hout, happended, hi ▸ BitVec.eq_of_toNat_eq hdone,
    lastRecordIs_congr hlast rfl rfl (congrArg _ hi) (congrArg _ hi), honly⟩

/-- A bad record start comes behind whole records (R104). -/
theorem EntersLoop.rejects {op : Byte} (h : EntersLoop before bs rem s u)
    (hinv : QueueInv s.cfg.cap s.q) (room : s.q.count + bs.length + rem ≤ s.cfg.cap)
    (hrs : ∀ r ∈ rs, isQueueRecord r = true) (hleft : (encodeRecords rs).length < rem)
    (hbad : recLen op = 0#2 ∨ rem - (encodeRecords rs).length < (recLen op).toNat)
    (harrives : ArrivesInTime before (bs ++ encodeRecords rs ++ [op]) s) :
    ∃ n, Takes n (bs ++ encodeRecords rs ++ [op]) s (runRecords u) ∧
      ReplyOutcome [0xE1#8] s (runRecords u) ∧ Appended (bs ++ encodeRecords rs) s (runRecords u) ∧
      (runRecords u).i.rem.toNat = rem - (encodeRecords rs).length ∧ (runRecords u).i.op = op ∧
      (runRecords u).i.n = recLen op ∧ IngestsOnly s (runRecords u) := by
  obtain ⟨fuel, v, hloop, hv, hrem, -⟩ :=
    h.records hrs hleft.le (arrivesInTime_append harrives)
  obtain ⟨w, hend, hw, hi⟩ := recordLoop_of_bad (op := op) (s := v) (by omega) (by rwa [hrem])
    (arrivesInTime_after (after := 0) harrives hv.reads.1) fuel
  have hsw := hv.trans hw
  rw [List.append_nil] at hsw
  obtain ⟨⟨n, htakes⟩, hout, happended, honly⟩ :=
    hsw.answered hinv (by rw [List.length_append]; omega) Config.statusInvalid
  have hi' : (sendReply [Config.statusInvalid] w).i = { v.i with op := op, n := recLen op } :=
    (sendReply_i _ w).trans hi
  rw [hloop, hend]
  refine ⟨n, htakes, hout, happended, ?_, ?_, ?_, honly⟩
  all_goals rw [hi']
  exact hrem

/-- The payload stops short behind whole records, at the start of a record or inside it (R111). -/
theorem EntersLoop.stopsShort {r : Instr} {here missing : List Byte}
    (h : EntersLoop before bs rem s u)
    (hinv : QueueInv s.cfg.cap s.q) (room : s.q.count + bs.length + rem ≤ s.cfg.cap)
    (hrs : ∀ x ∈ rs, isQueueRecord x = true) (hr : isQueueRecord r = true)
    (hsplit : encode true r = here ++ missing) (hmissing : missing ≠ [])
    (hfit : (encodeRecords rs).length + (encode true r).length ≤ rem)
    (hout : RunsOutAfter before (bs ++ encodeRecords rs ++ here) s) :
    WaitsAfter (2 * (bs ++ encodeRecords rs ++ here).length + 1 + before)
        (bs ++ encodeRecords rs ++ here) s (runRecords u) ∧
      (runRecords u).i.rem.toNat = rem - (encodeRecords rs).length ∧
      WaitsAt rs r here missing s (runRecords u) := by
  obtain ⟨fuel, v, hloop, hv, hrem, hlast⟩ :=
    h.records hrs (by omega) (arrivesInTime_append hout.1)
  obtain ⟨hhere, hnil, hrem', hstart, hinside⟩ := recordLoop_of_short hr hsplit hmissing (s := v)
    (by omega) (runsOutAfter_after (after := 0) hout hv.reads.1) fuel
  have hroom : (bs ++ encodeRecords rs ++ here).length ≤ bs.length + rem := by
    rw [hsplit] at hfit
    simp only [List.length_append] at hfit ⊢
    omega
  have hwaits := (hv.trans hhere).waits hinv (by omega) hnil
  rw [← hloop] at hwaits hrem' hstart hinside
  refine ⟨?_, by rw [hrem', hrem], fun h0 => ?_, hinside⟩
  · convert hwaits using 1
    simp only [List.length_append]
    omega
  · obtain ⟨hp, hkept, -⟩ := hstart h0
    obtain ⟨hop, hn⟩ := hkept rfl
    exact ⟨hp, lastRecordIs_congr hlast rfl rfl hop hn⟩

end Loop

/-- Settles O25. -/
theorem cWriteAppendsWholeRecords : Obligations.CWriteAppendsWholeRecords := by
  intro rs len s hrs hlen hinv room harrives
  obtain ⟨u, he, hu⟩ := execCWrite_enters room
  obtain ⟨n, h⟩ := hu.completes hinv room hrs hlen.symm harrives
  exact ⟨n, _, he, h⟩

/-- Settles O26. -/
theorem cWriteRejectsABadRecord : Obligations.CWriteRejectsABadRecord := by
  intro rs op len s hrs hleft hbad hinv room harrives
  obtain ⟨u, he, hu⟩ := execCWrite_enters room
  obtain ⟨n, h⟩ := hu.rejects hinv room hrs hleft hbad harrives
  exact ⟨n, _, he, h⟩

/-- Settles O27. -/
theorem cWriteWaitsForTheHost : Obligations.CWriteWaitsForTheHost := by
  intro rs r here missing len s hrs hr hsplit hmissing hfit hinv room hout
  obtain ⟨u, he, hu⟩ := execCWrite_enters room
  exact ⟨_, he, hu.stopsShort hinv room hrs hr hsplit hmissing hfit hout⟩

/-- The bytes stop short inside the missing operand bytes. -/
theorem step_stopsShort_of_payloadLeft {k rem : Nat} {s : State} (h : PayloadLeft k rem s)
    (hinv : QueueInv s.cfg.cap s.q) (room : s.q.count + k + rem ≤ s.cfg.cap) {bs : List Byte}
    (hbs : bs.length < k) (hout : RunsOutAfter 0 bs s) :
    ∃ t, step s = .next t ∧ WaitsAfter (2 * bs.length + 1) bs s t ∧ t.i = s.i ∧
      t.phase = .warg (k - bs.length) := by
  obtain ⟨j, rfl⟩ : ∃ j, k = bs.length + (j + 1) := ⟨k - bs.length - 1, by omega⟩
  rcases h with ⟨hp, -, -⟩ | ⟨-, hk, -⟩
  · obtain ⟨u, hargs, hreads, hnil, hframe, hq, hi⟩ := appendOperands_short bs j hout
    have hu : Ingested (2 * bs.length + 1) bs bs s u := ⟨hreads, hframe, hq⟩
    refine ⟨u.setPhase (.warg (j + 1)), by rw [step_warg hp, resumeOperands_of_short hargs],
      (hu.setPhase _).waits hinv (by omega) hnil, hi, ?_⟩
    rw [Nat.add_sub_cancel_left]
    rfl
  · omega

/-- Settles O28: behind the missing operand bytes a C.WRITE that waited goes on like a fresh one. -/
theorem waitingCWriteGoesOn : Obligations.WaitingCWriteGoesOn := by
  intro k rem s h hinv room
  refine ⟨fun bs rs hbs hrs hall harrives => ?_, fun bs rs op hbs hrs hleft hbad harrives => ?_,
    fun bs rs r here missing hbs hrs hr hsplit hmissing hfit hout => ?_,
    fun bs hbs hout => step_stopsShort_of_payloadLeft h hinv room hbs hout⟩
  · obtain ⟨u, he, hu⟩ := step_enters h hbs (arrivesInTime_append harrives)
    subst hbs
    obtain ⟨n, h⟩ := hu.completes hinv room hrs hall harrives
    exact ⟨n, _, he, h⟩
  · obtain ⟨u, he, hu⟩ :=
      step_enters h hbs (arrivesInTime_append (arrivesInTime_append harrives))
    subst hbs
    obtain ⟨n, h⟩ := hu.rejects hinv room hrs hleft hbad harrives
    exact ⟨n, _, he, h⟩
  · obtain ⟨u, he, hu⟩ :=
      step_enters h hbs (arrivesInTime_append (arrivesInTime_append hout.1))
    subst hbs
    exact ⟨_, he, hu.stopsShort hinv room hrs hr hsplit hmissing hfit hout⟩

/-! ## A C.WRITE replies once, or waits with `RX` empty (R108, R111) -/

/-- The main context waits for a payload byte, with `RX` empty and nothing sent since `s`. -/
def WaitsUnanswered (s t : State) : Prop :=
  t.tx = s.tx ∧ t.rx = [] ∧ (t.phase = .wop ∨ ∃ k, t.phase = .warg (k + 1))

/-- However the payload comes, the record loop ends with one status byte or in a wait. -/
theorem runRecords_replies_or_waits (s : State) :
    (∃ status u, (status = Config.statusOk ∨ status = Config.statusInvalid) ∧ u.tx = s.tx ∧
        (LineFree s → LineFree u) ∧ runRecords s = sendReply [status] u) ∨
      WaitsUnanswered s (runRecords s) := by
  obtain ⟨n, rs, part, bad, u, -, -, hline, -, ⟨-, -, -, -, htx, -⟩, -, -, -, hend⟩ :=
    recordLoop_cases (s.i.rem.toNat + 1) s
  rcases hend with ⟨-, -, -, e⟩ | ⟨-, -, e⟩ | ⟨-, -, e, hnil⟩ |
    ⟨op, args, k, -, -, -, -, -, -, hnil, e⟩
  · exact .inl ⟨_, u, .inl rfl, htx, hline, e⟩
  · exact .inl ⟨_, u, .inr rfl, htx, hline, e⟩
  · obtain ⟨hrx, -⟩ := hnil (Nat.lt_succ_self _)
    exact .inr (by rw [runRecords, e]; exact ⟨htx, hrx, .inl rfl⟩)
  · exact .inr (by rw [runRecords, e]; exact ⟨htx, hnil, .inr ⟨k, rfl⟩⟩)

/-- One status byte over a free line. -/
theorem sendReply_status (status : Byte) {s u : State} (htx : u.tx = s.tx) (hline : LineFree u) :
    (sendReply [status] u).phase = .consume ∧ (sendReply [status] u).tx = s.tx ++ [status] := by
  obtain ⟨n, -, htx', hp, -⟩ := sendReply_lineFree [status] hline
  exact ⟨hp, by rw [htx', htx]⟩

/-- Settles O29: the overflow check replies, or the record loop replies or waits. -/
theorem cWriteRepliesAtMostOnce : Obligations.CWriteRepliesAtMostOnce := by
  intro len s t hline he
  have hslot : LineFree (interleave s) := interleave_lineFree hline
  by_cases hover : s.q.freeCapacity s.cfg.cap < len.toNat
  · rw [execCWrite_overflow hover] at he
    cases he
    obtain ⟨hp, htx⟩ := sendReply_status Config.statusOverflow (interleave_tx s) hslot
    exact .inl ⟨hp, _, .inr (.inr rfl), htx⟩
  · rw [execCWrite_fits hover] at he
    cases he
    have htx : (declared len s).tx = s.tx := interleave_tx s
    rcases runRecords_replies_or_waits (declared len s) with
      ⟨status, u, hstatus, hu, hfree, e⟩ | ⟨hsame, hrx, hp⟩
    · obtain ⟨hp, hsent⟩ := sendReply_status status (hu.trans htx) (hfree hslot)
      exact .inl ⟨e ▸ hp, status, hstatus.imp_right .inl, e ▸ hsent⟩
    · exact .inr ⟨hsame.trans htx, hrx, hp⟩

/-! ## Waiting (R111, R153) -/

/-- A slot passes in which the phase is set again. -/
theorem setPhase_timePasses {s : State} {p : Phase} (hp : s.phase = p) :
    TimePasses 1 s ((interleave s).setPhase p) := by
  have hkept : (interleave s).setPhase p = interleave s :=
    State.ext rfl rfl rfl rfl rfl rfl rfl ((interleave_phase s).trans hp).symm rfl rfl rfl rfl
  rw [hkept]
  exact interleave_timePasses s

theorem applyEvents_busy (es : List EnvEvent) (s : State) (h : s.env.txReady = false)
    (hes : EnvEvent.transmitter true ∉ es) : (es.foldl applyEvent s).env.txReady = false := by
  induction es generalizing s with
  | nil => exact h
  | cons e es ih =>
    rw [List.mem_cons, not_or] at hes
    obtain ⟨he, hes⟩ := hes
    refine ih _ ?_ hes
    cases e with
    | timer => exact h
    | hostSends b => exact h
    | transmitter ready =>
      cases ready with
      | true => exact absurd rfl he
      | false => rfl

theorem interleave_busy {s : State} (h : s.env.txReady = false)
    (hes : ∀ es ∈ s.env.sched.take 1, EnvEvent.transmitter true ∉ es) :
    (interleave s).env.txReady = false := by
  cases hsched : s.env.sched with
  | nil => rwa [interleave_quiet hsched]
  | cons es rest =>
    rw [interleave_cons hsched]
    exact applyEvents_busy es _ h (hes es (by simp [hsched]))

theorem sendReply_of_busy {s : State} {b : Byte} {bs : List Byte}
    (h : (interleave s).env.txReady = false) :
    sendReply (b :: bs) s = (interleave s).setPhase (.reply (b :: bs)) := by
  simp [sendReply, h]

theorem appendOperands_of_nil {s : State} (h : (interleave s).rx = []) (k : Nat) :
    appendOperands (k + 1) s = ((interleave s).setPhase (.warg (k + 1)), false) := by
  simp only [appendOperands, rxByte_of_nil h]

/-- A wait for a byte that does not come in the next slot. -/
theorem step_waits_for_byte {s : State} (hrx : (interleave s).rx = [])
    (hp : s.phase = .len ∨ s.phase = .cmd ∨ (∃ k, s.phase = .warg (k + 1)) ∨
      s.phase = .wop ∧ s.i.rem ≠ 0#8) : ∃ t, step s = .next t ∧ TimePasses 1 s t := by
  refine ⟨_, ?_, setPhase_timePasses rfl⟩
  rcases hp with hp | hp | ⟨k, hp⟩ | ⟨hp, hrem⟩
  · rw [step_len hp, fetchLen_of_nil hrx, hp]
  · rw [step_cmd hp, fetchHeader_of_nil hrx, hp]
  · rw [step_warg hp, resumeOperands_of_short (appendOperands_of_nil hrx k), hp]
  · have hpos : s.i.rem.toNat ≠ 0 := fun h0 => hrem (BitVec.eq_of_toNat_eq h0)
    rw [step_wop hp, runRecords, recordLoop_of_nil hpos hrx, hp]

/-- The phases in which the host has a byte to send before the main context goes on. -/
def waitsForHost : Phase → Bool
  | .len => true
  | .wop => true
  | .warg _ => true
  | _ => false

theorem waitsForHost_iff (p : Phase) :
    waitsForHost p = true ↔ p = .len ∨ p = .wop ∨ ∃ k, p = .warg k := by
  cases p <;> simp [waitsForHost]

/-- Where the main context waits for the host, `RX` has run out. -/
def WaitsWithRxEmpty (t : State) : Prop := waitsForHost t.phase = true → t.rx = []

theorem waitsWithRxEmpty_of_phase {t : State} (h : waitsForHost t.phase = false) :
    WaitsWithRxEmpty t := fun hw => absurd hw (Bool.eq_false_iff.mp h)

theorem sendReply_waitsWithRxEmpty (bs : List Byte) (s : State) :
    WaitsWithRxEmpty (sendReply bs s) := by
  apply waitsWithRxEmpty_of_phase
  obtain ⟨-, -, -, -, -, -, -, -, hp | ⟨p, hp⟩⟩ := sendReply_frame bs s <;> rw [hp] <;> rfl

theorem runRecords_waitsWithRxEmpty (s : State) : WaitsWithRxEmpty (runRecords s) := by
  rcases runRecords_replies_or_waits s with ⟨status, u, -, -, -, e⟩ | ⟨-, hrx, -⟩
  · exact e ▸ sendReply_waitsWithRxEmpty _ u
  · exact fun _ => hrx

theorem resumeOperands_waitsWithRxEmpty (k : Nat) (s : State) :
    WaitsWithRxEmpty (resumeOperands k s) := by
  obtain ⟨n, bs, u, -, -, -, -, -, -, ⟨-, e⟩ | ⟨m, -, hrx, e⟩⟩ := appendOperands_cases k s
  · exact resumeOperands_of_all e ▸ runRecords_waitsWithRxEmpty _
  · exact resumeOperands_of_short e ▸ fun _ => hrx

theorem exec_packet_waitsWithRxEmpty {i : Instr} (hi : i.level = .packet) {s t : State}
    (he : exec i s = .next t) : WaitsWithRxEmpty t := by
  cases i with
  | cReset len => cases he; exact sendReply_waitsWithRxEmpty _ _
  | cWrite len =>
    by_cases hover : s.q.freeCapacity s.cfg.cap < len.toNat
    · rw [execCWrite_overflow hover] at he
      cases he; exact sendReply_waitsWithRxEmpty _ _
    · rw [execCWrite_fits hover] at he
      cases he; exact runRecords_waitsWithRxEmpty _
  | cQuery len => cases he; exact sendReply_waitsWithRxEmpty _ _
  | cOther code len => cases he; exact sendReply_waitsWithRxEmpty _ _
  | _ => cases hi

theorem fetchLen_waitsWithRxEmpty {s t : State} (he : fetchLen s = .next t) :
    WaitsWithRxEmpty t := by
  cases hrx : (interleave s).rx with
  | nil =>
    rw [fetchLen_of_nil hrx] at he
    cases he; exact fun _ => hrx
  | cons len rest =>
    rw [fetchLen_of_cons hrx] at he
    exact exec_packet_waitsWithRxEmpty (decodeOuter_level _ _) he

theorem fetchHeader_waitsWithRxEmpty {s t : State} (he : fetchHeader s = .next t) :
    WaitsWithRxEmpty t := by
  cases hrx : (interleave s).rx with
  | nil =>
    rw [fetchHeader_of_nil hrx] at he
    cases he; exact waitsWithRxEmpty_of_phase rfl
  | cons code rest =>
    rw [fetchHeader_of_cons hrx] at he
    split at he
    · exact fetchLen_waitsWithRxEmpty he
    · exact exec_packet_waitsWithRxEmpty (decodeOuter_level _ _) he

theorem pollRx_waitsWithRxEmpty (s : State) : WaitsWithRxEmpty (pollRx s) := by
  apply waitsWithRxEmpty_of_phase
  simp only [pollRx, micro, State.setPhase_phase]
  split <;> rfl

theorem step_waitsWithRxEmpty {s t : State} (he : step s = .next t) : WaitsWithRxEmpty t := by
  have fetched (hp : s.phase = .cmd ∨ s.phase = .len) : WaitsWithRxEmpty t := by
    rcases hp with hp | hp
    · exact fetchHeader_waitsWithRxEmpty (step_cmd hp ▸ he)
    · exact fetchLen_waitsWithRxEmpty (step_len hp ▸ he)
  cases step_cases he with
  | boot h e => subst e; exact waitsWithRxEmpty_of_phase rfl
  | idle h f ht hp =>
    rcases h with h | h
    · simp only [step, h] at he
      cases he; exact pollRx_waitsWithRxEmpty s
    · exact fetched h
  | reset u h f ht hc e => exact fetched h
  | plain u bs h f ht e => exact e ▸ sendReply_waitsWithRxEmpty bs u
  | write u fuel h f ht room e => exact fetched h
  | wop h e => exact e ▸ runRecords_waitsWithRxEmpty s
  | warg k h e => exact e ▸ resumeOperands_waitsWithRxEmpty k s
  | held h f el e => exact waitsWithRxEmpty_of_phase (by rw [e]; rfl)
  | record h hc hg e =>
    exact waitsWithRxEmpty_of_phase (by rw [recordCase_phase (exec_decodeInner_cases e)]; rfl)
  | status h e => subst e; exact waitsWithRxEmpty_of_phase rfl

/-- Settles O46. -/
theorem waitingMainContextOnlyLetsTimePass : Obligations.WaitingMainContextOnlyLetsTimePass := by
  refine ⟨fun s hwait => ?_,
    fun s t he hp => step_waitsWithRxEmpty he ((waitsForHost_iff _).mpr hp)⟩
  rcases hwait with ⟨hrx, hnone, hp⟩ | ⟨hbusy, hstays, b, bs, hp⟩
  · exact step_waits_for_byte (by rw [interleave_rx, hrx, hnone]; rfl) hp
  · refine ⟨_, ?_, setPhase_timePasses hp⟩
    rw [step_reply hp, sendReply_of_busy (interleave_busy hbusy hstays)]

/-! ## Nothing unsolicited is sent (R108) -/

theorem clearAndReset_tx (s : State) : (chipReset (qClear s)).tx = s.tx := by
  obtain ⟨-, -, -, ctx, -⟩ := qClear_frame s
  obtain ⟨-, -, -, rtx, -⟩ := chipReset_frame (qClear s)
  exact rtx.trans ctx

theorem statusUpdate_tx (s : State) : (statusUpdate s).tx = s.tx := by
  obtain ⟨-, -, -, -, htx, -⟩ := statusUpdate_frame s
  exact htx

theorem fetchFrame_tx {s t : State} (f : FetchFrame s t) : t.tx = s.tx := by
  obtain ⟨-, -, -, -, -, htx, -⟩ := f
  exact htx

theorem sendReply_tx_prefix (bs : List Byte) (s : State) : s.tx <+: (sendReply bs s).tx := by
  obtain ⟨-, -, -, -, -, -, htx, -⟩ := sendReply_frame bs s
  exact htx

theorem recordCase_tx {s t : State} (h : RecordCase s t) : t.tx = s.tx := by
  cases h with
  | sleep d e =>
    subst e
    obtain ⟨-, -, -, otx, -⟩ := removeOperands_frame Config.opSleep (lowByte d) (highByte d) s
    obtain ⟨-, -, -, ctx, -⟩ := setCountdown_frame d
      (removeOperands (lowByte d) (highByte d) (removeDiscriminator Config.opSleep s))
    exact ctx.trans otx
  | write a v e =>
    subst e
    obtain ⟨-, -, -, otx, -⟩ := removeOperands_frame Config.opWrite a v s
    obtain ⟨-, -, -, wtx, -⟩ :=
      devWrite_frame a v (removeOperands a v (removeDiscriminator Config.opWrite s))
    exact wtx.trans otx
  | close e =>
    subst e
    obtain ⟨-, -, -, dtx, -⟩ := qRemoveInto_frame (fun k => { k with d := Config.opClose }) s
    exact (clearAndReset_tx _).trans dtx
  | other d e =>
    subst e
    obtain ⟨-, -, -, dtx, -⟩ := qRemoveInto_frame (fun k => { k with d := d }) s
    exact dtx

/-- The phases in which a step sends nothing. -/
def isSilent : Phase → Bool
  | .boot => true
  | .poll => true
  | .consume => true
  | .status => true
  | _ => false

theorem isSilent_iff (p : Phase) :
    isSilent p = true ↔ p = .boot ∨ p = .poll ∨ p = .consume ∨ p = .status := by
  cases p <;> simp [isSilent]

/-- What a step sends: nothing, or, where it answers a command, bytes behind those sent before. -/
theorem step_tx {s t : State} (he : step s = .next t) :
    t.tx = s.tx ∨ isSilent s.phase = false ∧ s.tx <+: t.tx := by
  have fetching (h : s.phase = .cmd ∨ s.phase = .len) : isSilent s.phase = false := by
    rcases h with h | h <;> rw [h] <;> rfl
  cases step_cases he with
  | boot h e => exact .inl (e ▸ (statusUpdate_tx _).trans (clearAndReset_tx s))
  | idle h f ht hp => exact .inl (fetchFrame_tx f)
  | reset u h f ht hc e =>
    have htx : (chipReset (qClear u)).tx = s.tx := (clearAndReset_tx u).trans (fetchFrame_tx f)
    exact .inr ⟨fetching h, by rw [e, ← htx]; exact sendReply_tx_prefix _ _⟩
  | plain u bs h f ht e =>
    refine .inr ⟨?_, by rw [e, ← fetchFrame_tx f]; exact sendReply_tx_prefix bs u⟩
    rcases h with h | h | ⟨p, h⟩ <;> rw [h] <;> rfl
  | write u fuel h f ht room e =>
    obtain ⟨bs, -, -, htx, -⟩ := recordLoop_frame fuel u
    exact .inr ⟨fetching h, by rwa [e, ← fetchFrame_tx f]⟩
  | wop h e =>
    obtain ⟨bs, -, -, htx, -⟩ := recordLoop_frame (s.i.rem.toNat + 1) s
    exact .inr ⟨by rw [h]; rfl, e ▸ htx⟩
  | warg k h e =>
    obtain ⟨bs, -, -, htx, -⟩ := resumeOperands_frame k s
    exact .inr ⟨by rw [h]; rfl, e ▸ htx⟩
  | held h f el e => exact .inl (fetchFrame_tx f)
  | record h hc hg e =>
    have f := (interleave_fetchFrame s).trans (interleave_fetchFrame (interleave s))
    exact .inl ((recordCase_tx (exec_decodeInner_cases e)).trans (fetchFrame_tx f))
  | status h e => exact .inl (e ▸ statusUpdate_tx s)

/-- Settles O55. -/
theorem onlyRepliesReachTheHost : Obligations.OnlyRepliesReachTheHost := by
  intro s t he
  rw [← isSilent_iff]
  rcases step_tx he with htx | ⟨hloud, hprefix⟩
  · exact ⟨htx ▸ List.prefix_rfl, fun _ => htx⟩
  · exact ⟨hprefix, fun hsilent => absurd hsilent (Bool.eq_false_iff.mp hloud)⟩

end Sys2Proof.Proofs

/-! PROOFS. The statements of 43_queue_consumer.md: CONSUME's guard (R120), the records (R121 to R124),
what a step takes from the queue (R125), and whole records (R126). The state each record ends in has a
name, with one lemma for its queue; the frame the records share is `ConsumerFrame`. Whole records are
kept because ingestion appends whole ones, or waits for the bytes of the last, and CONSUME takes the
one at the head. -/

namespace Sys2Proof.Proofs

open Sys2Proof.Machine Sys2Proof.Safety Sys2Proof.Laws

/-! ## The guard of CONSUME (R120) -/

/-- The gate is open at the GATE read once as many periods have ended as the countdown showed. -/
theorem gateOpen_atGateRead_iff {s : State} (hidle : InterruptIdle s.t) :
    (atGateRead s).t.gateOpen = true ↔ s.t.cd.toNat ≤ timerCount (s.env.sched.take 2) := by
  obtain ⟨⟨-, htime⟩, -⟩ := atGateRead_timePasses s
  rw [htime hidle, gateOpen_iterate_onTick_iff]

/-- Settles O40. -/
theorem stepRunsTheRecordAtTheHead : Obligations.StepRunsTheRecordAtTheHead :=
  fun _ _ _ hp hinv hidle hcd hdec =>
    step_runs_decoded hp hinv ((gateOpen_atGateRead_iff hidle).mpr hcd) hdec

theorem step_of_empty {s : State} (hp : s.phase = .consume) (hempty : s.q.count = 0) :
    step s = .next ((interleave s).setPhase .status) := by
  have hq : (interleave s).q.isEmpty = true := by rwa [isEmpty_iff, interleave_q]
  simp only [step, hp, consume, if_pos hq]

theorem step_of_gateClosed {s : State} (hp : s.phase = .consume) (hpos : 0 < s.q.count)
    (hclosed : ¬(atGateRead s).t.gateOpen = true) :
    step s = .next ((atGateRead s).setPhase .status) := by
  have hne : ¬(interleave s).q.isEmpty = true := by
    rw [isEmpty_iff, interleave_q]
    exact Nat.ne_of_gt hpos
  simp only [step, hp, consume, if_neg hne]
  exact if_neg hclosed

/-- Settles O41: the queue is tested first, then the gate. -/
theorem consumeDoesNothingWhenHeldBack : Obligations.ConsumeDoesNothingWhenHeldBack := by
  intro s hp hidle hheld
  by_cases hempty : s.q.count = 0
  · exact ⟨1, interleave s, interleave_timePasses s, step_of_empty hp hempty⟩
  · have hclosed : ¬(atGateRead s).t.gateOpen = true := by
      rw [gateOpen_atGateRead_iff hidle, Nat.not_le]
      exact hheld.resolve_left hempty
    exact ⟨2, atGateRead s, atGateRead_timePasses s,
      step_of_gateClosed hp (Nat.pos_of_ne_zero hempty) hclosed⟩

/-! ## The records, and what each takes from the queue (R121 to R125) -/

/-- The three bytes of a record with operands have left the queue. -/
def operandsTaken (d b0 b1 : Byte) (s : State) : State :=
  removeOperands b0 b1 (removeDiscriminator d s)

/-- The state in which D.SLEEP ends. -/
def afterSleep (duration : Word) (s : State) : State :=
  (setCountdown duration
    (operandsTaken Config.opSleep (lowByte duration) (highByte duration) s)).setPhase .status

/-- The state in which D.WRITE ends. -/
def afterWrite (register value : Byte) (s : State) : State :=
  (devWrite register value (operandsTaken Config.opWrite register value s)).setPhase .status

/-- The state in which D.CLOSE ends. -/
def afterClose (s : State) : State :=
  (chipReset (qClear (removeDiscriminator Config.opClose s))).setPhase .status

/-- The state in which any other discriminator ends. -/
def afterOther (d : Byte) (s : State) : State := (removeDiscriminator d s).setPhase .status

theorem exec_dSleep (duration : Word) (s : State) :
    exec (.dSleep duration) s = .next (afterSleep duration s) := rfl

theorem exec_dWrite (register value : Byte) (s : State) :
    exec (.dWrite register value) s = .next (afterWrite register value s) := rfl

theorem exec_dClose (s : State) : exec .dClose s = .next (afterClose s) := rfl

theorem exec_dOther (d : Byte) (s : State) : exec (.dOther d) s = .next (afterOther d s) := rfl

/-- Three QREMOVEs, within their preconditions or not. -/
def advanceThree (cap : Nat) (q : Queue) : Queue := ((q.advance cap).advance cap).advance cap

theorem operandsTaken_q (d b0 b1 : Byte) (s : State) :
    (operandsTaken d b0 b1 s).q = advanceThree s.cfg.cap s.q := by
  obtain ⟨hq, -⟩ := removeOperands_frame d b0 b1 s
  exact hq

theorem afterSleep_q (duration : Word) (s : State) :
    (afterSleep duration s).q = advanceThree s.cfg.cap s.q := by
  obtain ⟨hq, -⟩ := setCountdown_frame duration
    (operandsTaken Config.opSleep (lowByte duration) (highByte duration) s)
  exact hq.trans (operandsTaken_q _ _ _ s)

theorem afterWrite_q (register value : Byte) (s : State) :
    (afterWrite register value s).q = advanceThree s.cfg.cap s.q := by
  obtain ⟨-, hq, -⟩ :=
    devWrite_frame register value (operandsTaken Config.opWrite register value s)
  exact hq.trans (operandsTaken_q _ _ _ s)

theorem removeDiscriminator_q (d : Byte) (s : State) :
    (removeDiscriminator d s).q = s.q.advance s.cfg.cap := by
  obtain ⟨hq, -⟩ := qRemoveInto_frame (fun k => { k with d := d }) s
  exact hq

theorem afterClose_q (s : State) : (afterClose s).q = s.q.clear := by
  obtain ⟨-, hq, -⟩ := clearAndReset_frame (removeDiscriminator Config.opClose s)
  rw [removeDiscriminator_q, advance_clear] at hq
  exact hq

theorem afterOther_q (d : Byte) (s : State) : (afterOther d s).q = s.q.advance s.cfg.cap :=
  removeDiscriminator_q d s

/-- What any record takes from the queue: its one byte, its three, or everything. -/
theorem recordCase_q {s t : State} (h : RecordCase s t) :
    t.q = s.q.advance s.cfg.cap ∨ t.q = advanceThree s.cfg.cap s.q ∨ t.q = s.q.clear := by
  cases h with
  | sleep d e => exact .inr (.inl (e ▸ afterSleep_q d s))
  | write a v e => exact .inr (.inl (e ▸ afterWrite_q a v s))
  | close e => exact .inr (.inr (e ▸ afterClose_q s))
  | other d e => exact .inl (e ▸ afterOther_q d s)

/-- Settles O53: a step at `P_CONSUME` runs one record, or none. -/
theorem consumeRemovesAtMostOneRecord : Obligations.ConsumeRemovesAtMostOneRecord := by
  intro s t hp he
  by_cases hempty : s.q.count = 0
  · rw [step_of_empty hp hempty] at he
    cases he
    exact ⟨rfl, .inl (interleave_q s)⟩
  have hpos : 0 < s.q.count := Nat.pos_of_ne_zero hempty
  have ⟨_, _, hcfg, hq, _⟩ := atGateRead_timePasses s
  by_cases hopen : (atGateRead s).t.gateOpen = true
  · rw [step_of_gateOpen hp hpos hopen] at he
    have hrun : RecordCase (atGateRead s) t := exec_decodeInner_cases he
    have hqueue := recordCase_q hrun
    rw [hcfg, hq] at hqueue
    exact ⟨recordCase_phase hrun, .inr hqueue⟩
  · rw [step_of_gateClosed hp hpos hopen] at he
    cases he
    exact ⟨rfl, .inl hq⟩

/-! ## What the records leave alone -/

/-- In `n` slots the consumer has done nothing but to the queue, the device side, `K` and the
phase. -/
structure ConsumerFrame (n : Nat) (s t : State) : Prop where
  passes : Passes n s t
  cfg : t.cfg = s.cfg
  status : t.status = s.status
  i : t.i = s.i
  tx : t.tx = s.tx
  free : t.free = s.free

theorem ConsumerFrame.trans {m n : Nat} {s t u : State} (h : ConsumerFrame m s t)
    (h' : ConsumerFrame n t u) : ConsumerFrame (m + n) s u :=
  ⟨Passes.trans h.passes h'.passes, h'.cfg.trans h.cfg, h'.status.trans h.status, h'.i.trans h.i,
    h'.tx.trans h.tx, h'.free.trans h.free⟩

/-- `t` without what a record has done to it. -/
def unconsumed (s t : State) : State :=
  { t with q := s.q, dev := s.dev, k := s.k, phase := s.phase }

theorem ConsumerFrame.timePasses {n : Nat} {s t : State} (h : ConsumerFrame n s t) :
    TimePasses n s (unconsumed s t) := by
  obtain ⟨⟨hel, hrx, -⟩, hcfg, hstatus, hi, htx, hfree⟩ := h
  exact ⟨hel, hrx, hcfg, rfl, rfl, hstatus, hi, rfl, rfl, htx, hfree⟩

/-- The bus sequences change the device side only. -/
theorem consumerFrame_of_sameButDev {n : Nat} {s t : State} (h : SameButDev s t)
    (hpasses : Passes n s t) : ConsumerFrame n s t := by
  obtain ⟨hcfg, -, hstatus, hi, -, -, htx, hfree⟩ := h
  exact ⟨hpasses, hcfg, hstatus, hi, htx, hfree⟩

theorem qClear_consumerFrame (s : State) : ConsumerFrame 1 s (qClear s) := by
  obtain ⟨hclear, hpasses⟩ := qClear_spec s
  refine ⟨hpasses, ?_, ?_, ?_, ?_, ?_⟩
  all_goals simp [hclear]

/-- A QREMOVE of a byte that is held. -/
theorem qRemoveInto_consumerFrame (put : ConsumeRegs → ConsumeRegs) {n : Nat} {s : State}
    (h : Holds (n + 1) s) : ConsumerFrame 1 s (qRemoveInto put s) := by
  obtain ⟨hremove, hpasses⟩ := qRemoveInto_spec put s
  refine ⟨hpasses, ?_, ?_, ?_, ?_, (qRemoveInto_of_holds put h).1⟩
  all_goals simp [hremove, State.dropFront]

theorem qRemoveInto_k (put : ConsumeRegs → ConsumeRegs) (s : State) :
    (qRemoveInto put s).k = put s.k := by
  rw [(qRemoveInto_spec put s).1, State.setK_k]

theorem removeDiscriminator_consumerFrame (d : Byte) {n : Nat} {s : State} (h : Holds (n + 1) s) :
    ConsumerFrame 1 s (removeDiscriminator d s) := qRemoveInto_consumerFrame _ h

theorem removeDiscriminator_k (d : Byte) (s : State) :
    (removeDiscriminator d s).k = { s.k with d := d } := qRemoveInto_k _ s

theorem removeDiscriminator_dev (d : Byte) (s : State) : (removeDiscriminator d s).dev = s.dev := by
  obtain ⟨-, -, hdev, -⟩ := qRemoveInto_frame (fun k => { k with d := d }) s
  exact hdev

theorem operandsTaken_consumerFrame (d b0 b1 : Byte) {s : State} (h : Holds 3 s) :
    ConsumerFrame 3 s (operandsTaken d b0 b1 s) := by
  obtain ⟨-, h1⟩ := qRemoveInto_of_holds (fun k => { k with d := d }) h
  obtain ⟨-, h2⟩ := qRemoveInto_of_holds (fun k => { k with b0 := b0 }) h1
  exact ((qRemoveInto_consumerFrame _ h).trans (qRemoveInto_consumerFrame _ h1)).trans
    (qRemoveInto_consumerFrame (fun k => { k with b1 := b1 }) h2)

theorem operandsTaken_k (d b0 b1 : Byte) (s : State) :
    (operandsTaken d b0 b1 s).k = { d := d, b0 := b0, b1 := b1 } := by
  simp only [operandsTaken, removeOperands, qRemoveInto_k, removeDiscriminator_k]

theorem operandsTaken_dev (d b0 b1 : Byte) (s : State) :
    (operandsTaken d b0 b1 s).dev = s.dev := by
  obtain ⟨-, -, hdev, -⟩ := removeOperands_frame d b0 b1 s
  exact hdev

/-- Settles O35. -/
theorem unassignedDiscriminatorIsDropped : Obligations.UnassignedDiscriminatorIsDropped := by
  intro d s hinv hpos
  have hframe := removeDiscriminator_consumerFrame d (n := 0) ⟨hinv, hpos⟩
  have hq : (removeDiscriminator d s).q =
      { s.q with count := s.q.count - 1, rd := (s.q.rd + 1) % s.cfg.cap } := by
    rw [removeDiscriminator_q, advance_of_pos hpos]
  refine ⟨1, _, hframe.timePasses, (exec_dOther d s).trans (congrArg _ ?_)⟩
  exact State.ext rfl hq rfl (removeDiscriminator_dev d s) rfl rfl (removeDiscriminator_k d s)
    rfl rfl rfl rfl rfl

theorem afterClose_k (s : State) : (afterClose s).k = { s.k with d := Config.opClose } := by
  obtain ⟨-, -, -, -, ck, -⟩ := qClear_frame (removeDiscriminator Config.opClose s)
  obtain ⟨-, -, rk, -⟩ := chipReset_frame (qClear (removeDiscriminator Config.opClose s))
  exact rk.trans (ck.trans (removeDiscriminator_k _ s))

/-- Settles O34. -/
theorem dCloseClearsAndResets : Obligations.DCloseClearsAndResets := by
  intro s hinv hpos
  have hremove := removeDiscriminator_consumerFrame Config.opClose (n := 0) ⟨hinv, hpos⟩
  have hclear := qClear_consumerFrame (removeDiscriminator Config.opClose s)
  obtain ⟨hsame, hpasses, -⟩ := chipReset_spec (qClear (removeDiscriminator Config.opClose s))
  have hframe := (hremove.trans hclear).trans (consumerFrame_of_sameButDev hsame hpasses)
  obtain ⟨-, -, hdev⟩ := clearAndReset_frame (removeDiscriminator Config.opClose s)
  rw [hremove.cfg, removeDiscriminator_dev] at hdev
  refine ⟨_, _, Device.resetDone s.cfg.resetWriteSeq s.dev, hframe.timePasses, resetDone_done _ _,
    (exec_dClose s).trans (congrArg _ ?_)⟩
  exact State.ext rfl (afterClose_q s) rfl hdev rfl rfl (afterClose_k s) rfl rfl rfl rfl rfl

/-- Settles O33. -/
theorem dWriteDrivesTheChip : Obligations.DWriteDrivesTheChip := by
  intro register value s hinv hcount
  have htaken := operandsTaken_consumerFrame Config.opWrite register value ⟨hinv, hcount⟩
  obtain ⟨hsame, hpasses, hdev⟩ :=
    devWrite_spec register value (operandsTaken Config.opWrite register value s)
  have hframe := htaken.trans (consumerFrame_of_sameButDev hsame hpasses)
  have ⟨_, _, _, _, hk, _⟩ := hsame
  rw [operandsTaken_dev] at hdev
  have hq := (afterWrite_q register value s).trans (advance_three hcount)
  refine ⟨_, _, Device.written register value s.dev, hframe.timePasses, written_done _ _ _,
    (exec_dWrite register value s).trans (congrArg _ ?_)⟩
  exact State.ext rfl hq rfl hdev rfl rfl (hk.trans (operandsTaken_k _ _ _ s))
    rfl rfl rfl rfl rfl

/-! ## D.SLEEP (R121) -/

theorem setCountdown_k (n : Word) (s : State) : (setCountdown n s).k = s.k := by
  simp [setCountdown, micro]

theorem afterSleep_k (duration : Word) (s : State) :
    (afterSleep duration s).k =
      { d := 0xD0#8
        b0 := BitVec.ofNat 8 duration.toNat
        b1 := BitVec.ofNat 8 (duration.toNat / 256) } := by
  rw [← lowByte_eq, ← highByte_eq]
  exact (setCountdown_k duration _).trans (operandsTaken_k _ _ _ s)

/-- The five slots of D.SLEEP: the three QREMOVEs and the slot before the store tick the old
countdown, the slot in the store the new one. -/
theorem afterSleep_time (duration : Word) {s : State} (hidle : InterruptIdle s.t)
    (hone : OnePeriodAtATime s) (h : Holds 3 s) :
    (afterSleep duration s).t = TimeBase.onTick^[timerCount ((s.env.sched.drop 4).take 1)]
      { TimeBase.onTick^[timerCount (s.env.sched.take 4)] s.t with cd := duration } := by
  obtain ⟨⟨hsched, htime⟩, -, -, hkeep⟩ :=
    (operandsTaken_consumerFrame Config.opSleep (lowByte duration) (highByte duration) h).passes
  have hone' := onePeriodAtATime_of_suffix (hsched ▸ List.drop_suffix 3 _) hone
  have hstore := setCountdown_time duration (hkeep hidle) hone'
  rw [hsched, List.drop_drop, htime hidle, ← Function.iterate_add_apply,
    Nat.add_comm (timerCount _), ← timerCount_append, ← take_add_drop] at hstore
  exact hstore

/-- Settles O32: the Time Base by `afterSleep_time`, and the frame field by field. -/
theorem dSleepLoadsTheCountdown : Obligations.DSleepLoadsTheCountdown := by
  intro duration s hidle hone hinv hcount
  have htime := afterSleep_time duration hidle hone ⟨hinv, hcount⟩
  have htaken :=
    operandsTaken_consumerFrame Config.opSleep (lowByte duration) (highByte duration)
      ⟨hinv, hcount⟩
  obtain ⟨⟨hsched, -⟩, hrx, -, hkeep⟩ := htaken.passes
  obtain ⟨-, csched, crx, -, cidle, ccfg, -, cdev, cstatus, ci, -, -, ctx, cfree⟩ :=
    setCountdown_spec duration (hkeep hidle)
  refine ⟨_, exec_dSleep duration s, ?_, ?_, cidle, ?_, ?_, ?_⟩
  · rw [htime, iterate_onTick_cd]
  · rw [htime, iterate_onTick_tick, iterate_onTick_tick, BitVec.add_assoc, ← BitVec.ofNat_add,
      ← timerCount_append, ← take_add_drop]
  · rw [hsched, List.drop_drop] at csched
    exact csched
  · rw [hrx, hsched, List.append_assoc, ← hostBytes_append, ← take_add_drop] at crx
    exact crx
  · have hq := (afterSleep_q duration s).trans (advance_three hcount)
    exact State.ext (ccfg.trans htaken.cfg) hq rfl (cdev.trans (operandsTaken_dev _ _ _ s))
      (cstatus.trans htaken.status) (ci.trans htaken.i) (afterSleep_k duration s) rfl rfl
      (ctx.trans htaken.tx) rfl (cfree.trans htaken.free)

/-! ## Whole records (R126) -/

theorem wholeRecords_nil : WholeRecords [] := ⟨[], fun _ hr => absurd hr List.not_mem_nil, rfl⟩

theorem wholeRecords_encodeRecords {rs : List Instr} (h : ∀ r ∈ rs, isQueueRecord r = true) :
    WholeRecords (encodeRecords rs) := ⟨rs, h, rfl⟩

theorem wholeRecords_encode {r : Instr} (h : isQueueRecord r = true) :
    WholeRecords (encode true r) :=
  ⟨[r], by simpa using h, by simp [encodeRecords]⟩

theorem wholeRecords_append {as bs : List Byte} (ha : WholeRecords as) (hb : WholeRecords bs) :
    WholeRecords (as ++ bs) := by
  obtain ⟨rs, hrs, rfl⟩ := ha
  obtain ⟨rs', hrs', rfl⟩ := hb
  exact ⟨rs ++ rs', List.forall_mem_append.mpr ⟨hrs, hrs'⟩, List.flatMap_append⟩

/-- Several whole records are none, or one and the others. -/
theorem wholeRecords_cases {bs : List Byte} (h : WholeRecords bs) :
    bs = [] ∨
      ∃ r rest, isQueueRecord r = true ∧ bs = encode true r ++ rest ∧ WholeRecords rest := by
  obtain ⟨rs, hrs, rfl⟩ := h
  cases rs with
  | nil => exact .inl rfl
  | cons r rs =>
    obtain ⟨hr, hrs⟩ := List.forall_mem_cons.mp hrs
    exact .inr ⟨r, encodeRecords rs, hr, List.flatMap_cons, wholeRecords_encodeRecords hrs⟩

theorem recordsInv_warg_iff {s : State} {k : Nat} (h : s.phase = .warg k) :
    RecordsInv s ↔
      ∀ bs : List Byte, bs.length = k → WholeRecords (contents s.cfg.cap s.q ++ bs) := by
  simp only [RecordsInv, h]

theorem recordsInv_iff_of_not_warg {s : State} (h : ∀ k, s.phase ≠ .warg k) :
    RecordsInv s ↔ WholeRecords (contents s.cfg.cap s.q) := by
  unfold RecordsInv
  split
  · exact absurd ‹_› (h _)
  · rfl

/-- A reply is not a wait for operand bytes, and leaves the queue alone. -/
theorem recordsInv_sendReply (bs : List Byte) {u : State}
    (h : WholeRecords (contents u.cfg.cap u.q)) : RecordsInv (sendReply bs u) := by
  obtain ⟨hcfg, hq, -, -, -, -, -, -, hp⟩ := sendReply_frame bs u
  rw [recordsInv_iff_of_not_warg, hcfg, hq]
  · exact h
  · rcases hp with hp | ⟨p, hp⟩ <;> simp [hp]

/-! ## Command Ingestion appends whole records, or waits for the rest of one -/

/-- The record loop, started behind whole records, with the room that C.WRITE checked for. -/
theorem recordLoop_recordsInv (fuel : Nat) {s : State} (hinv : QueueInv s.cfg.cap s.q)
    (room : s.q.count + s.i.rem.toNat ≤ s.cfg.cap) (h : WholeRecords (contents s.cfg.cap s.q)) :
    RecordsInv (recordLoop fuel s) := by
  obtain ⟨n, rs, part, bad, u, hrs, -, -, -, frame, hu, hle, hrem, hend⟩ := recordLoop_cases fuel s
  have hcfg : u.cfg = s.cfg := frame.1
  have hwhole := wholeRecords_append h (wholeRecords_encodeRecords hrs)
  have hcontents (hfit : (encodeRecords rs ++ part).length ≤ s.i.rem.toNat) :
      contents u.cfg.cap u.q = contents s.cfg.cap s.q ++ encodeRecords rs ++ part := by
    rw [hu, hcfg, List.append_assoc]
    exact (appendAll_contents _ hinv (by omega)).1
  have hwhole_u (hp : part = []) : WholeRecords (contents u.cfg.cap u.q) := by
    subst hp
    rwa [hcontents (by rwa [List.append_nil]), List.append_nil]
  rcases hend with ⟨hp, -, -, e⟩ | ⟨hp, -, e⟩ | ⟨hp, -, e, -⟩ |
    ⟨op, args, k, rfl, -, h0, hlen, -, hfit, -, e⟩
  · exact e ▸ recordsInv_sendReply _ (hwhole_u hp)
  · exact e ▸ recordsInv_sendReply _ (hwhole_u hp)
  · rw [e, recordsInv_iff_of_not_warg (by simp)]
    exact hwhole_u hp
  · rw [e, recordsInv_warg_iff rfl]
    intro bs hbs
    obtain ⟨r, hr, henc⟩ := record_of_bytes (args := args ++ bs) h0
      (by rw [List.length_append]; omega)
    have hsplit : contents u.cfg.cap u.q ++ bs =
        contents s.cfg.cap s.q ++ encodeRecords rs ++ encode true r := by
      rw [hcontents (by rw [List.length_append, List.length_cons]; omega), henc]
      simp only [List.append_assoc, List.cons_append]
    exact hsplit ▸ wholeRecords_append hwhole (wholeRecords_encode hr)

/-- A C.WRITE that waited inside a record: it is whole once its missing bytes have come. -/
theorem resumeOperands_recordsInv {k : Nat} {s : State} (hinv : QueueInv s.cfg.cap s.q)
    (hn : s.i.n.toNat ≤ s.i.rem.toNat)
    (room : s.q.count + k + (s.i.rem.toNat - s.i.n.toNat) ≤ s.cfg.cap)
    (h : ∀ bs : List Byte, bs.length = k → WholeRecords (contents s.cfg.cap s.q ++ bs)) :
    RecordsInv (resumeOperands k s) := by
  obtain ⟨n, bs, u, -, -, -, frame, hu, hi, hend⟩ := appendOperands_cases k s
  have hcfg : u.cfg = s.cfg := frame.1
  have happended (hle : bs.length ≤ k) :
      contents u.cfg.cap u.q = contents s.cfg.cap s.q ++ bs ∧
        u.q.count = s.q.count + bs.length := by
    obtain ⟨hcontents, hcount, -⟩ := appendAll_contents bs hinv (by omega)
    rw [hcfg, hu]
    exact ⟨hcontents, hcount⟩
  rcases hend with ⟨hlen, e⟩ | ⟨m, hlen, -, e⟩
  · obtain ⟨hcontents, hcount⟩ := happended hlen.le
    have hrem : u.recordDone.i.rem.toNat = s.i.rem.toNat - s.i.n.toNat := by
      rw [recordDone_rem (by rwa [hi]), hi]
    have hinv_u : QueueInv u.cfg.cap u.q := by
      rw [hcfg, hu]; exact appendAll_inv bs hinv
    have hroom_u : u.q.count + u.recordDone.i.rem.toNat ≤ u.cfg.cap := by
      rw [hrem, hcfg]; omega
    rw [resumeOperands_of_all e]
    exact recordLoop_recordsInv _ hinv_u hroom_u (hcontents ▸ h bs hlen)
  · obtain ⟨hcontents, -⟩ := happended (by omega)
    rw [resumeOperands_of_short e, recordsInv_warg_iff rfl]
    intro cs hcs
    change WholeRecords (contents u.cfg.cap u.q ++ cs)
    rw [hcontents, List.append_assoc]
    exact h (bs ++ cs) (by rw [List.length_append]; omega)

/-! ## CONSUME takes the record at the head -/

theorem contents_advance_of_cons {cap : Nat} {q : Queue} {b : Byte} {bs : List Byte}
    (h : contents cap q = b :: bs) : contents cap (q.advance cap) = bs := by
  have hpos : 0 < q.count := by
    rw [← contents_length cap q, h]
    exact Nat.zero_lt_succ _
  rw [contents_advance hpos] at h
  exact List.tail_eq_of_cons_eq h

theorem contents_advanceThree_of_cons {cap : Nat} {q : Queue} {d b0 b1 : Byte} {bs : List Byte}
    (h : contents cap q = d :: b0 :: b1 :: bs) : contents cap (advanceThree cap q) = bs :=
  contents_advance_of_cons (contents_advance_of_cons (contents_advance_of_cons h))

/-- A record at the head takes exactly its own bytes, or, being a Close, all there are. -/
theorem exec_record_contents {r : Instr} (hr : isQueueRecord r = true) {rest : List Byte}
    {s t : State} (hc : contents s.cfg.cap s.q = encode true r ++ rest)
    (he : exec r s = .next t) :
    contents s.cfg.cap t.q = rest ∨ contents s.cfg.cap t.q = [] := by
  cases r with
  | dSleep duration =>
    cases he
    exact .inl (afterSleep_q duration s ▸ contents_advanceThree_of_cons hc)
  | dWrite register value =>
    cases he
    exact .inl (afterWrite_q register value s ▸ contents_advanceThree_of_cons hc)
  | dClose =>
    cases he
    exact .inr (afterClose_q s ▸ contents_clear)
  | _ => exact absurd hr Bool.false_ne_true

theorem consume_record_wholeRecords {s t : State} (hinv : QueueInv s.cfg.cap s.q)
    (h : WholeRecords (contents s.cfg.cap s.q)) (hpos : 0 < s.q.count)
    (he : exec (headRecord s) s = .next t) : WholeRecords (contents s.cfg.cap t.q) := by
  rcases wholeRecords_cases h with hnil | ⟨r, rest, hr, hc, hrest⟩
  · rw [← contents_length s.cfg.cap s.q, hnil] at hpos
    exact absurd hpos (Nat.lt_irrefl 0)
  · rw [headRecord_of_contents hinv hr hc] at he
    rcases exec_record_contents hr hc he with hcontents | hcontents <;> rw [hcontents]
    · exact hrest
    · exact wholeRecords_nil

/-! ## Every step keeps whole records -/

theorem wholeRecords_clear (cap : Nat) (q : Queue) : WholeRecords (contents cap q.clear) :=
  contents_clear (cap := cap) ▸ wholeRecords_nil

/-- Settles O50. A step waits for operand bytes, if at all, in the record loop; every other step leaves
the queued records, clears them, or takes the first. -/
theorem stepKeepsWholeRecords : Obligations.StepKeepsWholeRecords := by
  rintro s t ⟨-, hinv, hingest, -⟩ hrec he
  have hcfg : t.cfg = s.cfg := (step_effect he).cfg
  have before (hp : ∀ k, s.phase ≠ .warg k) : WholeRecords (contents s.cfg.cap s.q) :=
    (recordsInv_iff_of_not_warg hp).mp hrec
  have after (hp : ∀ k, t.phase ≠ .warg k) (h : WholeRecords (contents s.cfg.cap t.q)) :
      RecordsInv t := by
    rwa [recordsInv_iff_of_not_warg hp, hcfg]
  cases step_cases he with
  | boot h e =>
    obtain ⟨-, uq, -⟩ := statusUpdate_frame (chipReset (qClear s))
    obtain ⟨-, hq, -⟩ := clearAndReset_frame s
    have hcleared : t.q = s.q.clear := e ▸ uq.trans hq
    exact after (by simp [e, boot]) (hcleared ▸ wholeRecords_clear _ _)
  | idle h f ht hp =>
    obtain ⟨-, fq, -⟩ := f
    refine after (fun k hk => by simp [hk] at hp) ?_
    rw [fq]
    exact before fun k hk => by simp [hk] at h
  | reset u h f ht hc e =>
    obtain ⟨-, hq, -⟩ := clearAndReset_frame u
    subst e
    exact recordsInv_sendReply _ (hq ▸ wholeRecords_clear _ _)
  | plain u bs h f ht e =>
    obtain ⟨fcfg, fq, -⟩ := f
    subst e
    refine recordsInv_sendReply bs ?_
    rw [fcfg, fq]
    exact before fun k hk => by simp [hk] at h
  | write u fuel h f ht room e =>
    obtain ⟨fcfg, fq, -⟩ := f
    have hwhole := before fun k hk => by simp [hk] at h
    rw [← fcfg, ← fq] at hinv hwhole
    have ⟨_, _, hcount, _⟩ := hinv
    exact e ▸ recordLoop_recordsInv fuel hinv (room hcount) hwhole
  | wop h e =>
    have hwhole := before (by simp [h])
    exact e ▸ recordLoop_recordsInv _ hinv ((ingestInv_wop_iff h).mp hingest) hwhole
  | warg k h e =>
    obtain ⟨-, hn, room⟩ := (ingestInv_warg_iff h).mp hingest
    exact e ▸ resumeOperands_recordsInv hinv hn room ((recordsInv_warg_iff h).mp hrec)
  | held h f el e =>
    obtain ⟨-, fq, -⟩ := f
    refine after (by simp [e]) ?_
    rw [fq]
    exact before (by simp [h])
  | record h hc hg e =>
    have hwhole := (recordsInv_consume_iff h).mp hrec
    obtain ⟨-, -, gcfg, gq, -⟩ := atGateRead_timePasses s
    rw [← gcfg, ← gq] at hinv hwhole
    rw [← gq] at hc
    refine after (by simp [recordCase_phase (exec_decodeInner_cases e)]) ?_
    rw [← gcfg]
    exact consume_record_wholeRecords hinv hwhole hc e
  | status h e =>
    obtain ⟨-, uq, -⟩ := statusUpdate_frame s
    have hkept : t.q = s.q := e ▸ uq
    refine after (by simp [e, updateStatus]) ?_
    rw [hkept]
    exact before (by simp [h])

end Sys2Proof.Proofs

/-! PROOFS. The statements of 44_device_write_engine.md: what DEVWRITE and CHIPRESET drive (R131,
R137, R138), what the chip sees of it (R133), how long it takes (R139), and the bus discipline (R132,
R134). What is said of the trace of a bus sequence is said of its parts first: a half of a write, a
write, a list of writes, the reset pulse. -/

namespace Sys2Proof.Proofs

open Sys2Proof.Machine Sys2Proof.Safety Sys2Proof.Laws

/-- The trace of the DEVWRITEs of a list, in list order (R138). -/
def writesTrace (seq : List (Byte × Byte)) : List PinEvent :=
  seq.flatMap fun av => devWriteTrace av.1 av.2

theorem writesTrace_cons (av : Byte × Byte) (seq : List (Byte × Byte)) :
    writesTrace (av :: seq) = devWriteTrace av.1 av.2 ++ writesTrace seq := List.flatMap_cons

/-! ## The bus discipline (R132, R134) -/

theorem busRun_append (p : BusPhase) (xs ys : List PinEvent) :
    busRun p (xs ++ ys) = (busRun p xs).bind fun p' => busRun p' ys := by
  induction xs generalizing p with
  | nil => rfl
  | cons e xs ih => simp only [List.cons_append, busRun, ih, Option.bind_assoc]

/-- Address half, then value half, and the bus may begin anew. -/
theorem busRun_devWriteTrace (a v : Byte) : busRun .idle (devWriteTrace a v) = some .idle := by
  have haddr : busRun .idle (busHalf .addr a) = some .addressDone := rfl
  have hdata : busRun .addressDone (busHalf .data v) = some .idle := rfl
  rw [devWriteTrace, busRun_append, haddr, Option.bind_some, hdata]

theorem busRun_writesTrace (seq : List (Byte × Byte)) :
    busRun .idle (writesTrace seq) = some .idle := by
  induction seq with
  | nil => rfl
  | cons av seq ih =>
    rw [writesTrace_cons, busRun_append, busRun_devWriteTrace, Option.bind_some, ih]

/-- The trace of a CHIPRESET. -/
theorem busRun_resetTrace (seq : List (Byte × Byte)) :
    busRun .idle (resetPulseTrace ++ writesTrace seq) = some .idle := by
  have hpulse : busRun .idle resetPulseTrace = some .idle := rfl
  rw [busRun_append, hpulse, Option.bind_some, busRun_writesTrace]

theorem busAtRest_written {dev : Device} (h : BusAtRest dev) (a v : Byte) :
    BusAtRest (Device.written a v dev) := by
  obtain ⟨hidle, -, hrst⟩ := h
  obtain ⟨-, -, hwr, hkept, -, -, hbus⟩ := written_done a v dev
  refine ⟨?_, hwr, hkept.trans hrst⟩
  rw [hbus, busRun_append, hidle]
  exact busRun_devWriteTrace a v

/-- Each write ends with the strobe high, so the list does, empty or not. -/
theorem busAtRest_resetDone {dev : Device} (h : BusAtRest dev) (seq : List (Byte × Byte)) :
    BusAtRest (Device.resetDone seq dev) := by
  obtain ⟨hidle, hwr, -⟩ := h
  obtain ⟨hrst, hbus, hempty, hlast, -⟩ := resetDone_done seq dev
  refine ⟨?_, ?_, hrst⟩
  · rw [hbus, busRun_append, hidle]
    exact busRun_resetTrace seq
  · cases hl : seq.getLast? with
    | none =>
      obtain ⟨-, -, hkept⟩ := hempty (List.getLast?_eq_none_iff.mp hl)
      exact hkept.trans hwr
    | some av =>
      obtain ⟨-, -, hhigh⟩ := hlast av.1 av.2 hl
      exact hhigh

theorem busAtRest_of_effect {seq : List (Byte × Byte)} {dev dev' : Device} (h : BusAtRest dev)
    (he : DeviceEffect seq dev dev') : BusAtRest dev' := by
  cases he with
  | kept e => exact e ▸ h
  | written a v e => exact e ▸ busAtRest_written h a v
  | reset e => exact e ▸ busAtRest_resetDone h seq

/-- Settles O51: a step leaves the device side alone, or drives one DEVWRITE or one CHIPRESET. -/
theorem stepKeepsTheBusDiscipline : Obligations.StepKeepsTheBusDiscipline := fun _ _ hrest he =>
  busAtRest_of_effect hrest (step_effect he).device

/-! ## DEVWRITE and CHIPRESET (R131, R137, R138) -/

/-- An operation on the device side lets time pass and changes nothing else. -/
theorem timePasses_of_sameButDev {n : Nat} {s t : State} (h : SameButDev s t)
    (hpasses : Passes n s t) : TimePasses n s { t with dev := s.dev } := by
  obtain ⟨hcfg, hq, hstatus, hi, hk, hphase, htx, hfree⟩ := h
  obtain ⟨hel, hrx, -⟩ := hpasses
  exact ⟨hel, hrx, hcfg, hq, rfl, hstatus, hi, hk, hphase, htx, hfree⟩

/-- Settles O19. -/
theorem devWriteDrivesTheSequence : Obligations.DevWriteDrivesTheSequence := by
  intro a v s
  obtain ⟨hsame, hpasses, hdev⟩ := devWrite_spec a v s
  refine ⟨_, Device.written a v s.dev, timePasses_of_sameButDev hsame hpasses,
    written_done a v s.dev, ?_⟩
  rw [← hdev]

/-- Settles O20. -/
theorem chipResetDrivesTheSequence : Obligations.ChipResetDrivesTheSequence := by
  intro s
  obtain ⟨hsame, hpasses, hdev⟩ := chipReset_spec s
  refine ⟨_, _, Device.resetDone s.cfg.resetWriteSeq s.dev,
    timePasses_of_sameButDev hsame hpasses, resetDone_done _ s.dev, ?_⟩
  rw [← hdev]

/-! ## What the chip sees (R133) -/

/-- One rising edge of the strobe, with select and data as the half has set them. -/
theorem chipEvents_busHalf (sel half : Sel) (d v : Byte) (es : List PinEvent) :
    chipEvents sel d .released (busHalf half v ++ es) =
      .latch half v :: chipEvents half v .released es := rfl

theorem chipEvents_devWriteTrace (sel : Sel) (d a v : Byte) (es : List PinEvent) :
    chipEvents sel d .released (devWriteTrace a v ++ es) =
      .latch .addr a :: .latch .data v :: chipEvents .data v .released es := by
  rw [devWriteTrace, List.append_assoc, chipEvents_busHalf, chipEvents_busHalf]

theorem chipEvents_writesTrace (seq : List (Byte × Byte)) (sel : Sel) (d : Byte) :
    chipEvents sel d .released (writesTrace seq) =
      seq.flatMap fun av => [.latch .addr av.1, .latch .data av.2] := by
  induction seq generalizing sel d with
  | nil => rfl
  | cons av seq ih =>
    rw [writesTrace_cons, chipEvents_devWriteTrace, ih, List.flatMap_cons]
    rfl

theorem chipEvents_resetPulseTrace (sel : Sel) (d : Byte) (rst : ResetLine) (es : List PinEvent) :
    chipEvents sel d rst (resetPulseTrace ++ es) =
      .resetPulse :: chipEvents sel d .released es := rfl

/-- Settles O21: the pulse of a CHIPRESET leaves the reset line released for the writes. -/
theorem chipSeesAddressThenValue : Obligations.ChipSeesAddressThenValue := by
  refine ⟨fun a v sel d => ?_, fun seq sel d => ?_⟩
  · have hwrite := chipEvents_devWriteTrace sel d a v []
    rwa [List.append_nil] at hwrite
  · exact (chipEvents_resetPulseTrace sel d .released _).trans
      (congrArg _ (chipEvents_writesTrace seq sel d))

/-! ## How long it takes (R139, R194) -/

section Duration

variable (time : Config.Timing)

theorem minDuration_append (xs ys : List PinEvent) :
    minDuration time (xs ++ ys) = minDuration time xs + minDuration time ys := by
  induction xs with
  | nil => exact (Nat.zero_add _).symm
  | cons e xs ih => cases e <;> simp only [List.cons_append, minDuration, ih, Nat.add_assoc]

/-- A half holds the strobe low for one delay and high for another. -/
theorem minDuration_busHalf (half : Sel) (v : Byte) :
    minDuration time (busHalf half v) = 2 * time.tStrobe := (Nat.two_mul _).symm

theorem minDuration_devWriteTrace (a v : Byte) :
    minDuration time (devWriteTrace a v) = 4 * time.tStrobe := by
  rw [devWriteTrace, minDuration_append, minDuration_busHalf, minDuration_busHalf]
  omega

theorem minDuration_writesTrace (seq : List (Byte × Byte)) :
    minDuration time (writesTrace seq) = 4 * time.tStrobe * seq.length := by
  induction seq with
  | nil => rfl
  | cons av seq ih =>
    rw [writesTrace_cons, minDuration_append, minDuration_devWriteTrace, ih, List.length_cons,
      Nat.mul_succ, Nat.add_comm]

/-- The trace of a CHIPRESET. -/
theorem minDuration_resetTrace (seq : List (Byte × Byte)) :
    minDuration time (resetPulseTrace ++ writesTrace seq) =
      time.tRst + 4 * time.tStrobe * seq.length := by
  have hpulse : minDuration time resetPulseTrace = time.tRst := rfl
  rw [minDuration_append, hpulse, minDuration_writesTrace]

end Duration

/-- A period has ended once as much time has passed as the timer takes for one. -/
theorem one_le_periodsBy {time : Config.Timing} {first x : Nat} (hpos : 0 < first)
    (hfirst : first ≤ time.tTick) (hx : time.tTick ≤ x) : 1 ≤ periodsBy time first x := by
  refine (lt_periodsBy (hpos.trans_le hfirst) 0 x).mpr ?_
  rw [Nat.zero_mul, Nat.add_zero]
  exact hfirst.trans hx

/-- Settles O22: the reset pulse alone takes `T_RST`. -/
theorem busSequencesTakeTheirMinimumTime : Obligations.BusSequencesTakeTheirMinimumTime := by
  intro time seq
  have hreset := minDuration_resetTrace time seq
  refine ⟨minDuration_devWriteTrace time, hreset, fun first hpos hfirst hrst => ?_⟩
  refine one_le_periodsBy hpos hfirst (hrst.trans ?_)
  exact (Nat.le_add_right _ _).trans hreset.ge

end Sys2Proof.Proofs

/-! PROOFS. The statements of 45_main_loop_and_status.md: the choice at `P_POLL` (R150), the pending
reply (R151, assumption 22), and the status line (R152). For the last, each operation but STATUSUPDATE
keeps the line, and `step_cases` says which of them a step runs: only boot and `P_STATUS` call
STATUSUPDATE (D11). -/

namespace Sys2Proof.Proofs

open Sys2Proof.Machine Sys2Proof.Safety Sys2Proof.Laws

/-! ## The choice at P_POLL and the pending reply (R150, R151) -/

/-- Settles O43: one slot passes before `RxAvail()` looks at `RX`. -/
theorem pollChoosesIngestOrConsume : Obligations.PollChoosesIngestOrConsume := by
  intro s hp
  refine ⟨interleave s, interleave_timePasses s, ?_⟩
  rw [← interleave_rx]
  simp only [step, hp]
  rfl

/-- Settles O42: pending bytes that decode to a reply are its encoding, which is what it sends. -/
theorem stepRunsThePendingReply : Obligations.StepRunsThePendingReply := by
  intro s pending hp
  refine ⟨⟨_, step_reply hp, sendReply_repliesOnly pending s⟩, fun i l hl hd => ?_⟩
  obtain ⟨rfl, -, hbytes⟩ := encodeOfDecodeIsIdentity _ _ _ _ _ hd
  rw [List.append_nil] at hbytes
  rw [step_reply hp, exec_reply hl s.cfg.hdrLenAlways, hbytes]

/-! ## STATUSUPDATE drives the line (R152, R181) -/

theorem statusLine_eq (q : Queue) :
    q.statusLine = if q.count = 0 then .empty else .nonempty := by
  simp only [Queue.statusLine, isEmpty_iff]

theorem step_status {s : State} (hp : s.phase = .status) : step s = .next (updateStatus s) := by
  simp only [step, hp]

theorem updateStatus_eq (s : State) :
    updateStatus s = ((interleave s).setStatus s.q.statusLine).setPhase .poll := by
  rw [updateStatus, (statusUpdate_spec s).1]

/-- Boot updates the line behind QCLEAR, so it shows an empty queue. -/
theorem boot_status (s : State) : (boot s).status = .empty := by
  obtain ⟨-, hq, -⟩ := clearAndReset_frame s
  rw [boot, State.setPhase_status, (statusUpdate_spec _).1, State.setStatus_status, hq]
  rfl

/-! ## Nothing else drives it (D11) -/

/-- The status line shows in `t` what it showed in `s`. -/
def KeepsStatus (s t : State) : Prop := t.status = s.status

theorem KeepsStatus.trans {s t u : State} (h : KeepsStatus s t) (h' : KeepsStatus t u) :
    KeepsStatus s u := Eq.trans h' h

theorem fetchFrame_keepsStatus {s t : State} (f : FetchFrame s t) : KeepsStatus s t := by
  obtain ⟨-, -, -, hstatus, -⟩ := f
  exact hstatus

theorem clearAndReset_keepsStatus (s : State) : KeepsStatus s (chipReset (qClear s)) := by
  obtain ⟨-, -, -, -, -, -, cstatus, -⟩ := qClear_frame s
  obtain ⟨-, -, -, -, -, rstatus, -⟩ := chipReset_frame (qClear s)
  exact rstatus.trans cstatus

theorem sendReply_keepsStatus (bs : List Byte) (s : State) : KeepsStatus s (sendReply bs s) := by
  obtain ⟨-, -, -, hstatus, -⟩ := sendReply_frame bs s
  exact hstatus

theorem recordLoop_keepsStatus (fuel : Nat) (s : State) : KeepsStatus s (recordLoop fuel s) := by
  obtain ⟨-, -, -, -, -, -, hstatus, -⟩ := recordLoop_frame fuel s
  exact hstatus

theorem resumeOperands_keepsStatus (k : Nat) (s : State) :
    KeepsStatus s (resumeOperands k s) := by
  obtain ⟨-, -, -, -, -, -, hstatus, -⟩ := resumeOperands_frame k s
  exact hstatus

theorem removeDiscriminator_keepsStatus (d : Byte) (s : State) :
    KeepsStatus s (removeDiscriminator d s) := by
  obtain ⟨-, -, -, -, hstatus, -⟩ := qRemoveInto_frame (fun k => { k with d := d }) s
  exact hstatus

theorem operandsTaken_keepsStatus (d b0 b1 : Byte) (s : State) :
    KeepsStatus s (operandsTaken d b0 b1 s) := by
  obtain ⟨-, -, -, -, hstatus, -⟩ := removeOperands_frame d b0 b1 s
  exact hstatus

theorem setCountdown_keepsStatus (n : Word) (s : State) : KeepsStatus s (setCountdown n s) := by
  obtain ⟨-, -, -, -, -, hstatus⟩ := setCountdown_frame n s
  exact hstatus

theorem devWrite_keepsStatus (a v : Byte) (s : State) : KeepsStatus s (devWrite a v s) := by
  obtain ⟨-, -, -, -, -, hstatus, -⟩ := devWrite_frame a v s
  exact hstatus

/-- However a record runs, it changes the queue and leaves the line to the next `P_STATUS`. -/
theorem recordCase_keepsStatus {s t : State} (h : RecordCase s t) : KeepsStatus s t := by
  cases h with
  | sleep d e => exact e ▸ (operandsTaken_keepsStatus _ _ _ s).trans (setCountdown_keepsStatus d _)
  | write a v e => exact e ▸ (operandsTaken_keepsStatus _ a v s).trans (devWrite_keepsStatus a v _)
  | close e => exact e ▸ (removeDiscriminator_keepsStatus _ s).trans (clearAndReset_keepsStatus _)
  | other d e => exact e ▸ removeDiscriminator_keepsStatus d s

/-- What a step does to the status line: boot and `P_STATUS` drive it, and no other phase does. -/
theorem step_keepsStatus {s t : State} (he : step s = .next t) (hboot : s.phase ≠ .boot)
    (hstatus : s.phase ≠ .status) : KeepsStatus s t := by
  cases step_cases he with
  | boot h e => exact absurd h hboot
  | idle h f ht hp => exact fetchFrame_keepsStatus f
  | reset u h f ht hc e =>
    exact e ▸ ((fetchFrame_keepsStatus f).trans (clearAndReset_keepsStatus u)).trans
      (sendReply_keepsStatus _ _)
  | plain u bs h f ht e => exact e ▸ (fetchFrame_keepsStatus f).trans (sendReply_keepsStatus bs u)
  | write u fuel h f ht room e =>
    exact e ▸ (fetchFrame_keepsStatus f).trans (recordLoop_keepsStatus fuel u)
  | wop h e => exact e ▸ recordLoop_keepsStatus _ s
  | warg k h e => exact e ▸ resumeOperands_keepsStatus k s
  | held h f el e => exact fetchFrame_keepsStatus f
  | record h hc hg e =>
    have f := (interleave_fetchFrame s).trans (interleave_fetchFrame (interleave s))
    exact (fetchFrame_keepsStatus f).trans (recordCase_keepsStatus (exec_decodeInner_cases e))
  | status h e => exact absurd h hstatus

/-- Settles O44. -/
theorem statusFollowsTheOccupancy : Obligations.StatusFollowsTheOccupancy := by
  refine ⟨fun s hp => ⟨interleave s, interleave_timePasses s, ?_⟩, fun s t he hp => ?_⟩
  · rw [step_status hp, updateStatus_eq, statusLine_eq]
    rfl
  · by_cases hboot : s.phase = .boot
    · simp only [step, hboot] at he
      cases he
      rw [if_pos hboot, boot_status]
    · rw [if_neg hboot]
      exact step_keepsStatus he hboot hp

end Sys2Proof.Proofs

/-! PROOFS. The statements of 60_exceptions.md: the interrupt while it is held off (R168, D19), and what
an interrupt between two micro-steps leaves alone (R169, R49). -/

namespace Sys2Proof.Proofs

open Sys2Proof.Machine Sys2Proof.Safety Sys2Proof.Laws

theorem serve_heldOff {t : TimeBase} (h : t.irqEn = false) : t.serve = t := by
  simp only [TimeBase.serve, h, Bool.false_and, Bool.false_eq_true, if_false]

/-- Held off, a period that ends sets the pending bit and runs no TICK (D19). -/
theorem timerDue_heldOff {t : TimeBase} (h : t.irqEn = false) :
    t.timerDue = { t with irqPend := true } :=
  serve_heldOff (t := { t with irqPend := true }) h

/-- Settles O13: what the timer event does is what `timerDue` does to the Time Base. -/
theorem heldOffTickStaysPending : Obligations.HeldOffTickStaysPending := fun s hoff =>
  congrArg s.setT (timerDue_heldOff hoff)

/-- Settles O17: the schedule and the counters, `RX`, and the frame of one slot. -/
theorem interruptLeavesTheMainContextAlone : Obligations.InterruptLeavesTheMainContextAlone :=
  interleave_timePasses

end Sys2Proof.Proofs

/-! PROOFS. The statements of 70_reset_and_hazards.md: the boot sequence (R181) and the state after
it (R182). The two lemmas about `boot` hold in every state; R182 puts the state after block reset
(R28) into them. -/

namespace Sys2Proof.Proofs

open Sys2Proof.Machine Sys2Proof.Safety Sys2Proof.Laws

/-! ## The boot sequence (R181) -/

/-- Boot clears the queue, drives one whole CHIPRESET and sends nothing. -/
theorem boot_frame (s : State) : (boot s).q = s.q.clear ∧
    (boot s).dev = Device.resetDone s.cfg.resetWriteSeq s.dev ∧ (boot s).tx = s.tx := by
  obtain ⟨-, hq, hdev⟩ := clearAndReset_frame s
  obtain ⟨-, uq, udev, -⟩ := statusUpdate_frame (chipReset (qClear s))
  exact ⟨uq.trans hq, udev.trans hdev, (statusUpdate_tx _).trans (clearAndReset_tx s)⟩

/-- Boot reads no byte: what the host sends meanwhile waits in `RX`. -/
theorem boot_passes (s : State) : ∃ n, Passes n s (boot s) := by
  obtain ⟨n, hreset⟩ := clearAndReset_passes s
  obtain ⟨-, hupdate⟩ := statusUpdate_spec (chipReset (qClear s))
  exact ⟨_, hreset.trans hupdate⟩

/-! ## The state after boot (R182) -/

/-- A countdown at 0 stays there, whatever the number of TICKs. -/
theorem iterate_onTick_cd_zero {t : TimeBase} (h : t.cd = 0#16) (k : Nat) :
    (TimeBase.onTick^[k] t).cd = 0#16 := by
  apply BitVec.eq_of_toNat_eq
  rw [iterate_onTick_cd, h, BitVec.toNat_ofNat, Nat.zero_mod, Nat.zero_sub]

/-- Settles O45: the queue, the device side and `TX` as boot leaves them in any state; the Time Base
and `RX` from the slots that pass; the pins by the bus discipline, since block reset leaves the bus
at rest. -/
theorem bootLeavesTheMachineReady : Obligations.BootLeavesTheMachineReady := by
  intro cfg sched
  obtain ⟨hq, hdev, htx⟩ := boot_frame (State.ofReset cfg sched)
  obtain ⟨n, ⟨hsched, htime⟩, hrx, -⟩ := boot_passes (State.ofReset cfg sched)
  have hticks := htime ⟨rfl, rfl⟩
  have hdone : ChipResetDone cfg.resetWriteSeq _ (boot (State.ofReset cfg sched)).dev :=
    hdev ▸ resetDone_done _ _
  obtain ⟨-, hwr, hrst⟩ := stepKeepsTheBusDiscipline (State.ofReset cfg sched) _ ⟨rfl, rfl, rfl⟩ rfl
  refine ⟨n, boot (State.ofReset cfg sched), rfl, congrArg Queue.wr hq, congrArg Queue.rd hq,
    congrArg Queue.count hq, ?_, ?_, hsched, hdone, hwr, hrst, ?_, ?_, boot_status _, htx, hrx, rfl⟩
  · rw [hticks, iterate_onTick_cd_zero rfl]
  · rw [hticks, iterate_onTick_tick]
    exact BitVec.zero_add _
  · intro a v hl
    obtain ⟨-, -, -, hlast, -⟩ := hdone
    obtain ⟨hsel, hd, -⟩ := hlast a v hl
    exact ⟨hsel, hd⟩
  · intro x
    obtain ⟨-, -, -, -, hshadow⟩ := hdone
    exact (hshadow x).trans Option.or_none

end Sys2Proof.Proofs
